-- ==== Sys2Proof/Word.lean ====
section
/-! DEFINITION. The word types of the frame codec block: 8-bit bytes, 32-bit registers, 22-bit host
byte addresses (00_scope.md rules R8, R9; 20_memory.md rule R60). -/

namespace Sys2Proof

/-- A byte is 8 bits (R9). -/
abbrev Byte := BitVec 8

/-- Every register is 32 bits wide as seen by the host (R20). -/
abbrev Word := BitVec 32

/-- A host byte address is 22 bits wide (R8, R60). -/
abbrev Addr := BitVec 22

end Sys2Proof
end

