-- ==== Sys2Proof/Syntax.lean ====
section
/-! DEFINITION. The encoded objects of the block, one constructor per mnemonic of
spec/opcode_table.json: the six command words (30_encoding.md rule R91), the sixteen values of the
opcode field of frame byte 0 (R94, R99) and the three length forms of frame byte 1 (R95, R96).
A constructor's fields are the bits its row leaves open. -/

namespace Sys2Proof

inductive Instr where
  /-- DECODE, R121. -/
  | decode
  /-- UNMASK, R123. -/
  | unmask
  /-- ENCODE, R160. -/
  | encode
  /-- VALIDATE, R180. -/
  | validate
  /-- ACCEPT, R211. -/
  | accept
  /-- SHA1, R210. -/
  | sha1
  /-- FRAME_OP_CONTINUATION: frame byte 0 with OPCODE = 0x0, R140. -/
  | frameOpContinuation (fin : Bool) (rsv : BitVec 3)
  /-- FRAME_OP_TEXT: frame byte 0 with OPCODE = 0x1, R141. -/
  | frameOpText (fin : Bool) (rsv : BitVec 3)
  /-- FRAME_OP_BINARY: frame byte 0 with OPCODE = 0x2, R142. -/
  | frameOpBinary (fin : Bool) (rsv : BitVec 3)
  /-- FRAME_OP_UNNAMED_0x3: frame byte 0 with OPCODE = 0x3, R146. -/
  | frameOpUnnamed3 (fin : Bool) (rsv : BitVec 3)
  /-- FRAME_OP_UNNAMED_0x4: frame byte 0 with OPCODE = 0x4, R146. -/
  | frameOpUnnamed4 (fin : Bool) (rsv : BitVec 3)
  /-- FRAME_OP_UNNAMED_0x5: frame byte 0 with OPCODE = 0x5, R146. -/
  | frameOpUnnamed5 (fin : Bool) (rsv : BitVec 3)
  /-- FRAME_OP_UNNAMED_0x6: frame byte 0 with OPCODE = 0x6, R146. -/
  | frameOpUnnamed6 (fin : Bool) (rsv : BitVec 3)
  /-- FRAME_OP_UNNAMED_0x7: frame byte 0 with OPCODE = 0x7, R146. -/
  | frameOpUnnamed7 (fin : Bool) (rsv : BitVec 3)
  /-- FRAME_OP_CLOSE: frame byte 0 with OPCODE = 0x8, R143. -/
  | frameOpClose (fin : Bool) (rsv : BitVec 3)
  /-- FRAME_OP_PING: frame byte 0 with OPCODE = 0x9, R144. -/
  | frameOpPing (fin : Bool) (rsv : BitVec 3)
  /-- FRAME_OP_PONG: frame byte 0 with OPCODE = 0xA, R145. -/
  | frameOpPong (fin : Bool) (rsv : BitVec 3)
  /-- FRAME_OP_UNNAMED_0xB: frame byte 0 with OPCODE = 0xB, R146. -/
  | frameOpUnnamedB (fin : Bool) (rsv : BitVec 3)
  /-- FRAME_OP_UNNAMED_0xC: frame byte 0 with OPCODE = 0xC, R146. -/
  | frameOpUnnamedC (fin : Bool) (rsv : BitVec 3)
  /-- FRAME_OP_UNNAMED_0xD: frame byte 0 with OPCODE = 0xD, R146. -/
  | frameOpUnnamedD (fin : Bool) (rsv : BitVec 3)
  /-- FRAME_OP_UNNAMED_0xE: frame byte 0 with OPCODE = 0xE, R146. -/
  | frameOpUnnamedE (fin : Bool) (rsv : BitVec 3)
  /-- FRAME_OP_UNNAMED_0xF: frame byte 0 with OPCODE = 0xF, R146. -/
  | frameOpUnnamedF (fin : Bool) (rsv : BitVec 3)
  /-- FRAME_LEN7: frame byte 1 with LENIND 0 to 125, the literal length form, R96. -/
  | frameLen7 (mask : Bool) (lenInd : BitVec 7)
  /-- FRAME_LEN16: frame byte 1 with LENIND = 126, the 16-bit length form, R96. -/
  | frameLen16 (mask : Bool)
  /-- FRAME_LEN32: frame byte 1 with LENIND = 127, the 32-bit length form, R96. -/
  | frameLen32 (mask : Bool)
  deriving DecidableEq, Repr

end Sys2Proof
end

