-- ==== Sys2Proof/WellFormed.lean ====
section
/-! DEFINITION. Which terms of `Instr` stand for an encoded object. The one condition is FRAME_LEN7's:
its six match/mask rows together cover the indicator values 0 to 125 exactly (30_encoding.md, R96).
Every other constructor's fields may hold any value of their type. -/

namespace Sys2Proof

/-- The instruction stands for a word or byte of the block's encodings. -/
def wellFormed : Instr → Bool
  | .decode => true
  | .unmask => true
  | .encode => true
  | .validate => true
  | .accept => true
  | .sha1 => true
  | .frameOpContinuation _ _ => true
  | .frameOpText _ _ => true
  | .frameOpBinary _ _ => true
  | .frameOpUnnamed3 _ _ => true
  | .frameOpUnnamed4 _ _ => true
  | .frameOpUnnamed5 _ _ => true
  | .frameOpUnnamed6 _ _ => true
  | .frameOpUnnamed7 _ _ => true
  | .frameOpClose _ _ => true
  | .frameOpPing _ _ => true
  | .frameOpPong _ _ => true
  | .frameOpUnnamedB _ _ => true
  | .frameOpUnnamedC _ _ => true
  | .frameOpUnnamedD _ _ => true
  | .frameOpUnnamedE _ _ => true
  | .frameOpUnnamedF _ _ => true
  | .frameLen7 _ lenInd => decide (lenInd.toNat ≤ 125)
  | .frameLen16 _ => true
  | .frameLen32 _ => true

end Sys2Proof
end

