-- ==== Sys2Proof/Decode.lean ====
section
/-! DEFINITION. The block's three encodings (30_encoding.md rules R90 to R96), the opcode table as
match/mask rows, the decoder (total, rejecting by name) and, after it, the encoder. -/

namespace Sys2Proof

/-- The `format` column of spec/opcode_table.json: which encoding a row belongs to. -/
inductive Space where
  /-- The 32-bit command word written to CMD (R90). -/
  | cmd32
  /-- Frame byte 0: FIN, RSV, OPCODE (R94). -/
  | frameB0
  /-- Frame byte 1: MASK, LENIND (R95). -/
  | frameB1
  deriving DecidableEq, Repr

/-- Why a word is not decoded. Safe: the machine raises IllegalCommand for the first two (R92), and no
frame byte is ever rejected. -/
inductive Reject where
  /-- A command word with `w[31:8] ≠ 0` (R92). -/
  | zeroFieldSet
  /-- A command word with `w[31:8] = 0` whose code is none of R91's table (R92). -/
  | unknownCode
  /-- A frame byte of more than 8 bits: no object of the hardware, only of this function's argument. -/
  | notAByte
  deriving DecidableEq, Repr

/-- Frame byte 0, `FIN | RSV1 | RSV2 | RSV3 | OPCODE[3:0]` (R93, R94). -/
def frameByte0 (fin : Bool) (rsv : BitVec 3) (op : BitVec 4) : Byte :=
  BitVec.ofBool fin ++ rsv ++ op

/-- Frame byte 1, `MASK | LENIND[6:0]` (R93, R95). -/
def frameByte1 (mask : Bool) (ind : BitVec 7) : Byte :=
  BitVec.ofBool mask ++ ind

/-- `FIN = b0[7]` (R94). -/
def finOf (b0 : Byte) : Bool := b0.getLsbD 7

/-- `RSV = b0[6:4]` (R94). -/
def rsvOf (b0 : Byte) : BitVec 3 := b0.extractLsb' 4 3

/-- `OPCODE = b0[3:0]` (R94). -/
def opcodeOf (b0 : Byte) : BitVec 4 := b0.extractLsb' 0 4

/-- `MASK = b1[7]` (R95). -/
def maskOf (b1 : Byte) : Bool := b1.getLsbD 7

/-- `LENIND = b1[6:0]` (R95). -/
def lenIndOf (b1 : Byte) : BitVec 7 := b1.extractLsb' 0 7

/-- One row of the opcode table: `w` belongs to it when `w &&& mask = pattern`. -/
structure Row where
  mask : Word
  pattern : Word
  build : Word → Instr

/-- `w` matches the row. -/
def Row.hits (r : Row) (w : Word) : Bool := w &&& r.mask == r.pattern

/-- The six command rows (R91): the match is the code, the mask is all ones. -/
def commandRows : List Row :=
  [⟨0xFFFFFFFF, 0x00000001, fun _ => .decode⟩,
   ⟨0xFFFFFFFF, 0x00000002, fun _ => .unmask⟩,
   ⟨0xFFFFFFFF, 0x00000003, fun _ => .encode⟩,
   ⟨0xFFFFFFFF, 0x00000004, fun _ => .validate⟩,
   ⟨0xFFFFFFFF, 0x00000005, fun _ => .accept⟩,
   ⟨0xFFFFFFFF, 0x00000006, fun _ => .sha1⟩]

/-- A row of frame byte 0: the opcode bits 3:0 are fixed, FIN and RSV are open (R94, R99). -/
def byte0Row (op : Word) (mk : Bool → BitVec 3 → Instr) : Row :=
  ⟨0x0F, op, fun w => mk (finOf (w.setWidth 8)) (rsvOf (w.setWidth 8))⟩

/-- The sixteen rows of frame byte 0 (R99). -/
def byte0Rows : List Row :=
  [byte0Row 0x0 .frameOpContinuation,
   byte0Row 0x1 .frameOpText,
   byte0Row 0x2 .frameOpBinary,
   byte0Row 0x3 .frameOpUnnamed3,
   byte0Row 0x4 .frameOpUnnamed4,
   byte0Row 0x5 .frameOpUnnamed5,
   byte0Row 0x6 .frameOpUnnamed6,
   byte0Row 0x7 .frameOpUnnamed7,
   byte0Row 0x8 .frameOpClose,
   byte0Row 0x9 .frameOpPing,
   byte0Row 0xA .frameOpPong,
   byte0Row 0xB .frameOpUnnamedB,
   byte0Row 0xC .frameOpUnnamedC,
   byte0Row 0xD .frameOpUnnamedD,
   byte0Row 0xE .frameOpUnnamedE,
   byte0Row 0xF .frameOpUnnamedF]

/-- A row of frame byte 1 that is part of FRAME_LEN7. -/
def len7Row (mask pattern : Word) : Row :=
  ⟨mask, pattern, fun w => .frameLen7 (maskOf (w.setWidth 8)) (lenIndOf (w.setWidth 8))⟩

/-- The eight rows of frame byte 1: six for the literal lengths 0 to 125, one for 126, one for 127
(R96). -/
def byte1Rows : List Row :=
  [len7Row 0x40 0x00,
   len7Row 0x60 0x40,
   len7Row 0x70 0x60,
   len7Row 0x78 0x70,
   len7Row 0x7C 0x78,
   len7Row 0x7E 0x7C,
   ⟨0x7F, 0x7E, fun w => .frameLen16 (maskOf (w.setWidth 8))⟩,
   ⟨0x7F, 0x7F, fun w => .frameLen32 (maskOf (w.setWidth 8))⟩]

/-- The table's rows of one format. -/
def rowsOf : Space → List Row
  | .cmd32 => commandRows
  | .frameB0 => byte0Rows
  | .frameB1 => byte1Rows

/-- The rejection of a word that is not decoded. -/
def rejection : Space → Word → Reject
  | .cmd32, w => if w.extractLsb' 8 24 = 0 then .unknownCode else .zeroFieldSet
  | .frameB0, _ => .notAByte
  | .frameB1, _ => .notAByte

/-- The decoder: the instruction of the first row of the format that `w` matches; a frame byte is a
number below 256. Total, and a word of no row is rejected by name. -/
def decode (sp : Space) (w : Word) : Except Reject Instr :=
  if sp ≠ .cmd32 ∧ 256 ≤ w.toNat then .error .notAByte
  else
    match (rowsOf sp).find? (fun r => r.hits w) with
    | some r => .ok (r.build w)
    | none => .error (rejection sp w)

/-- The decoder on a command word (R90 to R92). -/
def decodeCommand (w : Word) : Except Reject Instr := decode .cmd32 w

/-- The decoder on frame byte 0 (R94, R99). -/
def decodeByte0 (b : Byte) : Except Reject Instr := decode .frameB0 (b.setWidth 32)

/-- The decoder on frame byte 1 (R95, R96). -/
def decodeByte1 (b : Byte) : Except Reject Instr := decode .frameB1 (b.setWidth 32)

/-- The format an instruction is encoded in. -/
def spaceOf : Instr → Space
  | .decode => .cmd32
  | .unmask => .cmd32
  | .encode => .cmd32
  | .validate => .cmd32
  | .accept => .cmd32
  | .sha1 => .cmd32
  | .frameOpContinuation _ _ => .frameB0
  | .frameOpText _ _ => .frameB0
  | .frameOpBinary _ _ => .frameB0
  | .frameOpUnnamed3 _ _ => .frameB0
  | .frameOpUnnamed4 _ _ => .frameB0
  | .frameOpUnnamed5 _ _ => .frameB0
  | .frameOpUnnamed6 _ _ => .frameB0
  | .frameOpUnnamed7 _ _ => .frameB0
  | .frameOpClose _ _ => .frameB0
  | .frameOpPing _ _ => .frameB0
  | .frameOpPong _ _ => .frameB0
  | .frameOpUnnamedB _ _ => .frameB0
  | .frameOpUnnamedC _ _ => .frameB0
  | .frameOpUnnamedD _ _ => .frameB0
  | .frameOpUnnamedE _ _ => .frameB0
  | .frameOpUnnamedF _ _ => .frameB0
  | .frameLen7 _ _ => .frameB1
  | .frameLen16 _ => .frameB1
  | .frameLen32 _ => .frameB1

/-- The encoder: the word or byte of an instruction in its format, written from R91's codes and the
field layouts of R94 and R95. -/
def encode : Instr → Word
  | .decode => 0x00000001
  | .unmask => 0x00000002
  | .encode => 0x00000003
  | .validate => 0x00000004
  | .accept => 0x00000005
  | .sha1 => 0x00000006
  | .frameOpContinuation fin rsv => (frameByte0 fin rsv 0x0).setWidth 32
  | .frameOpText fin rsv => (frameByte0 fin rsv 0x1).setWidth 32
  | .frameOpBinary fin rsv => (frameByte0 fin rsv 0x2).setWidth 32
  | .frameOpUnnamed3 fin rsv => (frameByte0 fin rsv 0x3).setWidth 32
  | .frameOpUnnamed4 fin rsv => (frameByte0 fin rsv 0x4).setWidth 32
  | .frameOpUnnamed5 fin rsv => (frameByte0 fin rsv 0x5).setWidth 32
  | .frameOpUnnamed6 fin rsv => (frameByte0 fin rsv 0x6).setWidth 32
  | .frameOpUnnamed7 fin rsv => (frameByte0 fin rsv 0x7).setWidth 32
  | .frameOpClose fin rsv => (frameByte0 fin rsv 0x8).setWidth 32
  | .frameOpPing fin rsv => (frameByte0 fin rsv 0x9).setWidth 32
  | .frameOpPong fin rsv => (frameByte0 fin rsv 0xA).setWidth 32
  | .frameOpUnnamedB fin rsv => (frameByte0 fin rsv 0xB).setWidth 32
  | .frameOpUnnamedC fin rsv => (frameByte0 fin rsv 0xC).setWidth 32
  | .frameOpUnnamedD fin rsv => (frameByte0 fin rsv 0xD).setWidth 32
  | .frameOpUnnamedE fin rsv => (frameByte0 fin rsv 0xE).setWidth 32
  | .frameOpUnnamedF fin rsv => (frameByte0 fin rsv 0xF).setWidth 32
  | .frameLen7 mask lenInd => (frameByte1 mask lenInd).setWidth 32
  | .frameLen16 mask => (frameByte1 mask 126).setWidth 32
  | .frameLen32 mask => (frameByte1 mask 127).setWidth 32

/-- Which frame byte a lone 8-bit table word is read as. The table numbers the rows of frame byte 0 and
of frame byte 1 as 8 bits alike, and a number alone does not say which byte of the frame it is: a byte
with RSV = 0 is read as byte 0, any other as byte 1 (DESIGN CHOICE, assumption log 5; it concerns this
interface function and `withFetchWord` only). -/
def loneByteSpace (b : Byte) : Space := if rsvOf b = 0 then .frameB0 else .frameB1

/-- The instruction the decoder reads from a table word of `nbits` bits (fixed name of the host). -/
def decodeTableWord (nbits w : Nat) : Option Instr :=
  if 2 ^ nbits ≤ w then none
  else if nbits = 32 then (decodeCommand (BitVec.ofNat 32 w)).toOption
  else if nbits = 8 then (decode (loneByteSpace (BitVec.ofNat 8 w)) (BitVec.ofNat 32 w)).toOption
  else none

end Sys2Proof
end

