-- ==== Sys2Proof/Config.lean ====
section
/-! DEFINITION. What one implementation fixes: the four size parameters of 00_scope.md rule R7, their
legal ranges and reference values, and the free values of the reset contents of the byte buffers
(70_reset_and_hazards.md rule R261). -/

namespace Sys2Proof

/-- The implementation parameters (R7). They are counts, never shifted or masked, hence naturals. -/
structure Params where
  /-- `IBUF_SIZE`: capacity of IBUF, and of OBUF. -/
  ibufSize : Nat
  /-- `HDR_N`: number of entries of the header table. -/
  hdrN : Nat
  /-- `HNAME_MAX`: capacity of one header-name field. -/
  hnameMax : Nat
  /-- `HVAL_MAX`: capacity of one header-value field, and of KEYBUF. -/
  hvalMax : Nat
  deriving DecidableEq, Repr

/-- The legal ranges of R7's table. -/
abbrev Params.Legal (p : Params) : Prop :=
  (128 ≤ p.ibufSize ∧ p.ibufSize ≤ 2 ^ 20) ∧ (4 ≤ p.hdrN ∧ p.hdrN ≤ 64) ∧
  (21 ≤ p.hnameMax ∧ p.hnameMax ≤ 256) ∧ (9 ≤ p.hvalMax ∧ p.hvalMax ≤ 512)

/-- The reference values of R7's table, which `State.reset` takes (assumption log 2). -/
def Params.reference : Params := ⟨4096, 16, 64, 256⟩

/-- FREE VALUE (R261, assumption log 3): the byte a buffer byte holds after the `n`-th reset event at
host address `a`, as long as nothing has written it. No body: nothing can be proved of its value. -/
opaque Config.resetDraw : (n : Nat) → (a : Nat) → Byte

end Sys2Proof
end

