-- ==== Sys2Proof/Machine/State.lean ====
section
/-! DEFINITION. The state of the block as plain data (10_state.md rule R20), the host side the step reads
(20_memory.md rule R60), the error record of a command, the reasons a step could stop, and reset. -/

namespace Sys2Proof.Machine

/-- There is NO fault: the spec names no condition that stops the block. A command error is recorded in
STATUS and ERRCODE (R235, R239) and an access the map does not admit sets STATUS.ACCERR (R64); both are
next states. Raised by nobody, hence safe. -/
inductive Fault where
  deriving DecidableEq, Repr

/-- Why a step has no meaning. -/
inductive Refusal where
  /-- An instruction of the table that `exec` gives no meaning. Raised by no arm of this model: every
  instruction has its meaning. Safe. -/
  | notModelled (mnemonic : String)
  deriving DecidableEq, Repr

/-- The error kinds of R230. -/
inductive ErrKind where
  | missingOrInvalidUpgrade
  | missingOrInvalidConnection
  | unsupportedVersion
  | missingOrInvalidKey
  | bufferUnderrun
  | payloadTooLarge
  | illegalCommand
  | lengthOutOfRange
  deriving DecidableEq, Repr

/-- What `raise E(detail, index)` records (R12, R231). -/
structure CmdError where
  kind : ErrKind
  detail : Byte
  index : Byte
  deriving DecidableEq, Repr

/-- One host access (R60): an 8-bit or 32-bit read or write at a 22-bit byte address. -/
inductive HostAccess where
  | rd8 (a : Addr)
  | wr8 (a : Addr) (b : Byte)
  | rd32 (a : Addr)
  | wr32 (a : Addr) (w : Word)
  deriving DecidableEq, Repr

/-- What the outside world does to the block: a host access, or the reset event that may happen between
two of them (R260). -/
inductive HostEvent where
  | access (x : HostAccess)
  | reset
  deriving DecidableEq, Repr

/-- What a host read returns (R63, R64). -/
inductive Reply where
  | byte (b : Byte)
  | word (w : Word)
  deriving DecidableEq, Repr

/-- The two length registers of one header-table entry (R41). -/
structure HdrLens where
  nameLen : Word
  valueLen : Word
  deriving DecidableEq, Repr

/-- The bytes of the buffers that have been written since the last reset event, keyed by host address,
addresses strictly rising. An unlisted address reads as no value here; the machine's read supplies its
free value (R261, assumption log 3). -/
abbrev Memory := List Host.Cell

/-- The architectural state of R20, and below it the model's own host side. ID is hard-wired (R21) and
has no field; the PARAM registers show `params` (R34). -/
structure State where
  /-- The implementation parameters, shown by PARAM_IBUF_SIZE, PARAM_HDR_N, PARAM_HNAME_MAX and
  PARAM_HVAL_MAX (R7, R34). -/
  params : Params
  /-- CMD (R22). -/
  cmd : Word
  /-- STATUS: bit 0 OK, bit 1 ERR, bit 2 ACCERR (R23). -/
  status : Word
  /-- ERRCODE (R24). -/
  errcode : Word
  /-- CFG_VERSION.VERSION, 16 bits (R8, R25). -/
  cfgVersion : BitVec 16
  /-- ILEN (R26). -/
  ilen : Word
  /-- OLEN (R30). -/
  olen : Word
  /-- MASKKEY (R31). -/
  maskkey : Word
  /-- FRAME (R27). -/
  frame : Word
  /-- PLEN (R28). -/
  plen : Word
  /-- CONSUMED (R29). -/
  consumed : Word
  /-- KEYLEN (R32). -/
  keylen : Word
  /-- HDR_COUNT (R33). -/
  hdrCount : Word
  /-- NAME_LEN[e] and VALUE_LEN[e], one entry per header-table entry (R40, R41). -/
  hdr : List HdrLens
  /-- IBUF, OBUF, KEYBUF, DIGEST, TOKEN, HNAME[e], HVAL[e] (R35 to R39, R42), in one address space
  (R61). -/
  mem : Memory
  /-- The model's own: how many reset events there have been; it picks the free values of the buffer
  bytes (R261). -/
  resets : Nat
  /-- The model's own: what the host does next, first event first (R60, R73). -/
  host : List HostEvent
  /-- The model's own: what the last host event returned to the host, none after a write or a reset. -/
  reply : Option Reply
  deriving DecidableEq, Repr

/-- The block after its `n`-th reset event, with parameters `p` (R260, R261): every register at its
reset value, no buffer byte written, nothing pending from the host. -/
def State.resetWith (p : Params) (n : Nat) : State where
  params := p
  cmd := 0
  status := 0
  errcode := 0
  cfgVersion := 13
  ilen := 0
  olen := 0
  maskkey := 0
  frame := 0
  plen := 0
  consumed := 0
  keylen := 0
  hdrCount := 0
  hdr := List.replicate p.hdrN ⟨0, 0⟩
  mem := []
  resets := n
  host := []
  reply := none

/-- The machine right after reset (R260), at the reference parameter values of R7. -/
def State.reset : State := State.resetWith Params.reference 0

end Sys2Proof.Machine
end

