-- ==== Sys2Proof/Machine/Flags.lean ====
section
/-! DEFINITION. The flags and packed result registers: STATUS (10_state.md rule R23), FRAME (R27) and
ERRCODE (R24), and how each is computed. -/

namespace Sys2Proof.Machine

/-- STATUS.OK, bit 0 (R23). -/
def statusOkBit (w : Word) : Bool := w.getLsbD 0

/-- STATUS.ERR, bit 1 (R23). -/
def statusErrBit (w : Word) : Bool := w.getLsbD 1

/-- STATUS.ACCERR, bit 2 (R23). -/
def statusAccErrBit (w : Word) : Bool := w.getLsbD 2

/-- STATUS after a command that succeeds: OK ← 1, ERR ← 0, the other bits unchanged (R235). -/
def statusSucceed (w : Word) : Word := (w &&& ~~~3) ||| 1

/-- STATUS after a command that raises an error: OK ← 0, ERR ← 1, the other bits unchanged (R235). -/
def statusRaise (w : Word) : Word := (w &&& ~~~3) ||| 2

/-- STATUS after an access error: ACCERR ← 1, the other bits unchanged (R64, R234). -/
def statusAccessError (w : Word) : Word := w ||| 4

/-- STATUS after a host write of `v`: ACCERR is cleared when `v[2] = 1`, every other bit of `v` is
ignored (R23). -/
def statusHostWrite (w v : Word) : Word := if v.getLsbD 2 then w &&& ~~~4 else w

/-- `Known(op)`: the six frame opcodes TWS names (R99, R121). -/
def opKnown (op : BitVec 4) : Bool :=
  op = 0x0 || op = 0x1 || op = 0x2 || op = 0x8 || op = 0x9 || op = 0xA

/-- FRAME as DECODE writes it: `{16'b0, hdr[3:0], form[1:0], Known, m, b0[7:0]}` (R27, R121). -/
def packFrame (hdr : BitVec 4) (form : BitVec 2) (known m : Bool) (b0 : Byte) : Word :=
  (0 : BitVec 16) ++ hdr ++ form ++ BitVec.ofBool known ++ BitVec.ofBool m ++ b0

/-- FRAME.OPCODE, bits 3:0 (R27). -/
def frameOpcode (w : Word) : BitVec 4 := w.extractLsb' 0 4

/-- FRAME.RSV, bits 6:4 (R27). -/
def frameRsv (w : Word) : BitVec 3 := w.extractLsb' 4 3

/-- FRAME.FIN, bit 7 (R27). -/
def frameFin (w : Word) : Bool := w.getLsbD 7

/-- FRAME.MASK, bit 8 (R27). -/
def frameMask (w : Word) : Bool := w.getLsbD 8

/-- FRAME.OPKNOWN, bit 9 (R27). -/
def frameOpKnown (w : Word) : Bool := w.getLsbD 9

/-- FRAME.LENFORM, bits 11:10 (R27). -/
def frameLenForm (w : Word) : BitVec 2 := w.extractLsb' 10 2

/-- FRAME.HDRLEN, bits 15:12 (R27). -/
def frameHdrLen (w : Word) : BitVec 4 := w.extractLsb' 12 4

/-- FRAME[31:16], which read 0 (R27). -/
def frameHigh (w : Word) : BitVec 16 := w.extractLsb' 16 16

/-- `code(E)`: the error code of an error kind (R230). -/
def errorCode : ErrKind → Byte
  | .missingOrInvalidUpgrade => 1
  | .missingOrInvalidConnection => 2
  | .unsupportedVersion => 3
  | .missingOrInvalidKey => 4
  | .bufferUnderrun => 5
  | .payloadTooLarge => 6
  | .illegalCommand => 7
  | .lengthOutOfRange => 8

/-- ERRCODE as a raised error records it: `{8'h00, index, detail, code}` (R24, R235). -/
def packError (e : CmdError) : Word :=
  (0 : BitVec 8) ++ e.index ++ e.detail ++ errorCode e.kind

/-- ERRCODE.CODE, bits 7:0 (R24). -/
def errorCodeField (w : Word) : Byte := w.extractLsb' 0 8

/-- ERRCODE.DETAIL, bits 15:8 (R24). -/
def errorDetailField (w : Word) : Byte := w.extractLsb' 8 8

/-- ERRCODE.INDEX, bits 23:16 (R24). -/
def errorIndexField (w : Word) : Byte := w.extractLsb' 16 8

/-- ERRCODE[31:24], which read 0 (R24). -/
def errorHighField (w : Word) : Byte := w.extractLsb' 24 8

end Sys2Proof.Machine
end

