-- ==== Sys2Proof/Machine/Map.lean ====
section
/-! DEFINITION. The host address map (20_memory.md rules R61, R62): the registers, the windows, and what
stands at an address. -/

namespace Sys2Proof.Machine

/-- The registers of the address map (R61). -/
inductive Reg where
  | id | cmd | status | errcode | cfgVersion | ilen | olen | maskkey | frame | plen | consumed
  | keylen | hdrCount | paramIbufSize | paramHdrN | paramHnameMax | paramHvalMax
  | nameLen (e : Nat)
  | valueLen (e : Nat)
  deriving DecidableEq, Repr

/-- The windows of the address map, one per byte buffer (R61, R62). -/
inductive Win where
  | digest | token | keybuf
  | hname (e : Nat)
  | hval (e : Nat)
  | ibuf | obuf
  deriving DecidableEq, Repr

/-- What stands at a host address. -/
inductive Place where
  | reg (r : Reg)
  | byte (w : Win) (i : Nat)
  | reserved
  deriving DecidableEq, Repr

/-- The RW registers, which a 32-bit write may address (R63). -/
def Reg.writable : Reg → Bool
  | .cmd | .status | .cfgVersion | .ilen | .maskkey | .keylen | .hdrCount => true
  | .nameLen _ | .valueLen _ => true
  | .id | .errcode | .olen | .frame | .plen | .consumed => false
  | .paramIbufSize | .paramHdrN | .paramHnameMax | .paramHvalMax => false

/-- The RW windows, which an 8-bit write may address (R63). -/
def Win.writable : Win → Bool
  | .keybuf | .hname _ | .hval _ | .ibuf => true
  | .digest | .token | .obuf => false

/-- The host address of a window's byte 0 (R61). -/
def Win.base : Win → Nat
  | .digest => 0x100
  | .token => 0x120
  | .keybuf => 0x200
  | .hname e => 0x10000 + 0x400 * e + 0x100
  | .hval e => 0x10000 + 0x400 * e + 0x200
  | .ibuf => 0x100000
  | .obuf => 0x200000

/-- A window's size in bytes (R7, R35 to R39, R42). -/
def Win.size (p : Params) : Win → Nat
  | .digest => 20
  | .token => 28
  | .keybuf => p.hvalMax
  | .hname _ => p.hnameMax
  | .hval _ => p.hvalMax
  | .ibuf => p.ibufSize
  | .obuf => p.ibufSize

/-- Window byte `i` stands at `base + i` (R62). -/
def Win.addr (w : Win) (i : Nat) : Nat := w.base + i

/-- The control, status, operand and result registers and their addresses (R61). -/
def controlMap : List (Nat × Reg) :=
  [(0x000, .id), (0x004, .cmd), (0x008, .status), (0x00C, .errcode), (0x010, .cfgVersion),
   (0x014, .ilen), (0x018, .olen), (0x01C, .maskkey), (0x020, .frame), (0x024, .plen),
   (0x028, .consumed), (0x02C, .keylen), (0x030, .hdrCount), (0x034, .paramIbufSize),
   (0x038, .paramHdrN), (0x03C, .paramHnameMax), (0x040, .paramHvalMax)]

/-- What stands at offset `off` of header-table entry `e` (R61). -/
def locateEntry (p : Params) (e off : Nat) : Place :=
  if off = 0x000 then .reg (.nameLen e)
  else if off = 0x004 then .reg (.valueLen e)
  else if 0x100 ≤ off ∧ off < 0x100 + p.hnameMax then .byte (.hname e) (off - 0x100)
  else if 0x200 ≤ off ∧ off < 0x200 + p.hvalMax then .byte (.hval e) (off - 0x200)
  else .reserved

/-- What stands at host address `a` (R61): a register at its own address only, a window byte, or
reserved. -/
def locate (p : Params) (a : Nat) : Place :=
  if a < 0x100 then
    match controlMap.lookup a with
    | some r => .reg r
    | none => .reserved
  else if a < 0x100 + 20 then .byte .digest (a - 0x100)
  else if a < 0x120 then .reserved
  else if a < 0x120 + 28 then .byte .token (a - 0x120)
  else if a < 0x200 then .reserved
  else if a < 0x200 + p.hvalMax then .byte .keybuf (a - 0x200)
  else if a < 0x10000 then .reserved
  else if a < 0x10000 + 0x400 * p.hdrN then
    locateEntry p ((a - 0x10000) / 0x400) ((a - 0x10000) % 0x400)
  else if a < 0x100000 then .reserved
  else if a < 0x100000 + p.ibufSize then .byte .ibuf (a - 0x100000)
  else if a < 0x200000 then .reserved
  else if a < 0x200000 + p.ibufSize then .byte .obuf (a - 0x200000)
  else .reserved

end Sys2Proof.Machine
end

