-- ==== Sys2Proof/Machine/Ops.lean ====
section
/-! DEFINITION. The named operations over memory and registers, and the ONE recording of a command's
outcome: the block takes no exception, an error is recorded in STATUS and ERRCODE (60_exceptions.md rules
R235, R236, R239), and there is no return from one (R240). -/

namespace Sys2Proof.Machine

/-- The byte written at `a` since the last reset event, if any. -/
def memGet : Memory → Nat → Option Byte
  | [], _ => none
  | c :: m, a => if c.1 = a then some c.2 else memGet m a

/-- `BUF[i] <- b` at one host address (R10), keeping addresses strictly rising. -/
def memSet : Memory → Nat → Byte → Memory
  | [], a, b => [(a, b)]
  | c :: m, a, b =>
    if a < c.1 then (a, b) :: c :: m
    else if a = c.1 then (a, b) :: m
    else c :: memSet m a b

/-- `BUF[i] <- b` for each byte of a sequence, at rising addresses from `a` on (R10). -/
def memWrite : Memory → Nat → List Byte → Memory
  | m, _, [] => m
  | m, a, b :: bs => memWrite (memSet m a b) (a + 1) bs

/-- The canonical form of a memory: addresses strictly rising. (An unlisted address reads as no value, so
no entry can equal what it reads as.) -/
def Memory.wf : Memory → Bool
  | [] => true
  | [_] => true
  | c :: d :: m => decide (c.1 < d.1) && Memory.wf (d :: m)

/-- Every listed address is a window byte of the address map (R61, R62). -/
def Memory.mapped (p : Params) (m : Memory) : Bool :=
  m.all fun c =>
    match locate p c.1 with
    | .byte _ _ => true
    | .reg _ => false
    | .reserved => false

/-- The byte the machine reads at a host address: the byte last written, or the free value of the last
reset event if nothing has written it since (R73, R261). -/
def memByte (s : State) (a : Nat) : Byte := (memGet s.mem a).getD (Config.resetDraw s.resets a)

/-- `BUF[i]` (R10). -/
def bufByte (s : State) (w : Win) (i : Nat) : Byte := memByte s (w.addr i)

/-- `BUF[0 .. n)` (R9). -/
def bufBytes (s : State) (w : Win) (n : Nat) : List Byte := (List.range n).map (bufByte s w)

/-- `BUF[i] <- bs[i]` for every byte of `bs` (R10). -/
def writeBuf (w : Win) (bs : List Byte) (s : State) : State :=
  { s with mem := memWrite s.mem (w.addr 0) bs }

/-- `BUF[i] <- b` (R10). -/
def writeByte (w : Win) (i : Nat) (b : Byte) (s : State) : State :=
  { s with mem := memSet s.mem (w.addr i) b }

/-- The length registers of header-table entry `e` (R41). -/
def hdrLens (s : State) (e : Nat) : HdrLens := s.hdr.getD e ⟨0, 0⟩

/-- `ID`, hard-wired (R21). -/
def idValue : Word := 0x57530001

/-- The value a register shows to the host (R20 to R34, R41). -/
def readReg (s : State) : Reg → Word
  | .id => idValue
  | .cmd => s.cmd
  | .status => s.status
  | .errcode => s.errcode
  | .cfgVersion => s.cfgVersion.setWidth 32
  | .ilen => s.ilen
  | .olen => s.olen
  | .maskkey => s.maskkey
  | .frame => s.frame
  | .plen => s.plen
  | .consumed => s.consumed
  | .keylen => s.keylen
  | .hdrCount => s.hdrCount
  | .paramIbufSize => BitVec.ofNat 32 s.params.ibufSize
  | .paramHdrN => BitVec.ofNat 32 s.params.hdrN
  | .paramHnameMax => BitVec.ofNat 32 s.params.hnameMax
  | .paramHvalMax => BitVec.ofNat 32 s.params.hvalMax
  | .nameLen e => (hdrLens s e).nameLen
  | .valueLen e => (hdrLens s e).valueLen

/-- What a host write of `v` stores in a register (R22, R23, R25, R26, R31 to R33, R41). A read-only
register keeps its value; no admitted write addresses one (R63). -/
def writeReg (r : Reg) (v : Word) (s : State) : State :=
  match r with
  | .cmd => { s with cmd := v }
  | .status => { s with status := statusHostWrite s.status v }
  | .cfgVersion => { s with cfgVersion := v.extractLsb' 0 16 }
  | .ilen => { s with ilen := v }
  | .maskkey => { s with maskkey := v }
  | .keylen => { s with keylen := v }
  | .hdrCount => { s with hdrCount := v }
  | .nameLen e => { s with hdr := s.hdr.set e { hdrLens s e with nameLen := v } }
  | .valueLen e => { s with hdr := s.hdr.set e { hdrLens s e with valueLen := v } }
  | .id | .errcode | .olen | .frame | .plen | .consumed => s
  | .paramIbufSize | .paramHdrN | .paramHnameMax | .paramHvalMax => s

/-- `succeed`: the recording of a command without error (R235). -/
def succeed (s : State) : State :=
  { s with status := statusSucceed s.status, errcode := 0 }

/-- `raise E`: the recording of a command error (R235). -/
def raise (e : CmdError) (s : State) : State :=
  { s with status := statusRaise s.status, errcode := packError e }

/-- How every command ends (R235, R236): its outputs are written only when no check failed; on an error
the state holds the command's failure outputs, `bad`, and the error is recorded. -/
def complete {α : Type} (r : Except CmdError α) (good : α → State) (bad : State) : State :=
  match r with
  | .ok a => succeed (good a)
  | .error e => raise e bad

/-- An illegal command word: DETAIL = `w[7:0]`, INDEX = 1 when `w[31:8] ≠ 0`; no unit runs (R92, R237). -/
def illegalCommandError (w : Word) : CmdError :=
  ⟨.illegalCommand, w.extractLsb' 0 8, if w.extractLsb' 8 24 = 0 then 0 else 1⟩

/-- Issuing an illegal command word (R237). -/
def illegalCommand (w : Word) (s : State) : State := raise (illegalCommandError w) s

/-- An access error: STATUS.ACCERR ← 1 and nothing else (R64, R234). -/
def accessError (s : State) : State := { s with status := statusAccessError s.status }

/-- The reset event (R260, R261): every register at its reset value, every buffer byte a new free value;
the parameters are fixed, and what the host does next stays. -/
def resetEvent (s : State) : State :=
  { State.resetWith s.params (s.resets + 1) with host := s.host }

end Sys2Proof.Machine
end

