-- ==== Sys2Proof/Machine/Operands.lean ====
section
/-! DEFINITION. The commands' operand forms: the byte buffers under their length registers, the masking
key's four bytes, a frame's byte source, and the header names and values. -/

namespace Sys2Proof.Machine

/-- The four key bytes `[K[0], K[1], K[2], K[3]]` of MASKKEY (R31, R123). -/
def keyBytes (k : Word) : List Byte :=
  [k.extractLsb' 24 8, k.extractLsb' 16 8, k.extractLsb' 8 8, k.extractLsb' 0 8]

/-- The big-endian 32-bit word of four bytes, `{b[0], b[1], b[2], b[3]}` (R9, R66). -/
def be32 (bs : List Byte) : Word :=
  bs.getD 0 0 ++ bs.getD 1 0 ++ bs.getD 2 0 ++ bs.getD 3 0

/-- The 4-byte big-endian encoding of a word (R204). -/
def be32Bytes (w : Word) : List Byte := keyBytes w

/-- The 8-byte big-endian encoding of a 64-bit number (R201). -/
def be64Bytes (n : Nat) : List Byte :=
  [7, 6, 5, 4, 3, 2, 1, 0].map fun i => BitVec.ofNat 8 (n / 256 ^ i)

/-- The unsigned big-endian number of a byte sequence (R96). -/
def beNat (bs : List Byte) : Nat := bs.foldl (fun n b => n * 256 + b.toNat) 0

/-- `IBUF[0 .. ILEN)` (R26, R35). -/
def inputBytes (s : State) : List Byte := bufBytes s .ibuf s.ilen.toNat

/-- `KEYBUF[0 .. KEYLEN)` (R32, R37). -/
def clientKey (s : State) : List Byte := bufBytes s .keybuf s.keylen.toNat

/-- The check of ILEN that DECODE, UNMASK and SHA1 make first (R232). -/
def checkIlen (s : State) : Except CmdError Unit :=
  if s.params.ibufSize < s.ilen.toNat then .error ⟨.lengthOutOfRange, 1, 0⟩ else .ok ()

/-- The check of KEYLEN that ACCEPT makes first (R232). -/
def checkKeylen (s : State) : Except CmdError Unit :=
  if s.params.hvalMax < s.keylen.toNat then .error ⟨.lengthOutOfRange, 2, 0⟩ else .ok ()

/-- The frame in IBUF, byte by byte (R121). -/
def inputFrame (s : State) : Nat → Byte := bufByte s .ibuf

/-- A frame with byte `j` replaced by `b`. -/
def withFrameByte (frame : Nat → Byte) (j : Nat) (b : Byte) : Nat → Byte :=
  fun i => if i = j then b else frame i

/-- `Name(e) = HNAME[e][0 .. NAME_LEN[e])` (R170). -/
def headerName (s : State) (e : Nat) : List Byte :=
  bufBytes s (.hname e) (hdrLens s e).nameLen.toNat

/-- `Val(e) = HVAL[e][0 .. VALUE_LEN[e])` (R170). -/
def headerValue (s : State) (e : Nat) : List Byte :=
  bufBytes s (.hval e) (hdrLens s e).valueLen.toNat

end Sys2Proof.Machine
end

