-- ==== Sys2Proof/Machine/Access.lean ====
section
/-! DEFINITION. The host accesses and the reset event (20_memory.md rules R60, R63, R64;
70_reset_and_hazards.md rule R260): what one host event does, up to the command it may issue. -/

namespace Sys2Proof.Machine

/-- What one host event comes to: a state, or a state and a command word to issue in the same transition
(R22, R60). -/
inductive Issue where
  | quiet (t : State)
  | command (w : Word) (t : State)
  deriving DecidableEq, Repr

/-- `s` with what a host event returns to the host. -/
def replyWith (r : Option Reply) (s : State) : State := { s with reply := r }

/-- An 8-bit read: a window byte, else an access error that returns 0 (R63, R64). -/
def read8 (a : Addr) (s : State) : State :=
  match locate s.params a.toNat with
  | .byte w i => replyWith (some (.byte (bufByte s w i))) s
  | .reg _ | .reserved => replyWith (some (.byte 0)) (accessError s)

/-- An 8-bit write: a byte of a writable window, else an access error that stores nothing (R63, R64). -/
def write8 (a : Addr) (b : Byte) (s : State) : State :=
  match locate s.params a.toNat with
  | .byte w i =>
    if w.writable then replyWith none (writeByte w i b s) else replyWith none (accessError s)
  | .reg _ | .reserved => replyWith none (accessError s)

/-- A 32-bit read: a register, else an access error that returns 0 (R63, R64). -/
def read32 (a : Addr) (s : State) : State :=
  match locate s.params a.toNat with
  | .reg r => replyWith (some (.word (readReg s r))) s
  | .byte _ _ | .reserved => replyWith (some (.word 0)) (accessError s)

/-- A 32-bit write: a writable register, and for CMD the command it issues; else an access error that
stores nothing and issues no command (R22, R63, R64). -/
def write32 (a : Addr) (v : Word) (s : State) : Issue :=
  match locate s.params a.toNat with
  | .reg r =>
    if r.writable then
      if r = .cmd then .command v (replyWith none (writeReg .cmd v s))
      else .quiet (replyWith none (writeReg r v s))
    else .quiet (replyWith none (accessError s))
  | .byte _ _ | .reserved => .quiet (replyWith none (accessError s))

/-- One host event (R60, R260). -/
def hostEvent (ev : HostEvent) (s : State) : Issue :=
  match ev with
  | .access (.rd8 a) => .quiet (read8 a s)
  | .access (.wr8 a b) => .quiet (write8 a b s)
  | .access (.rd32 a) => .quiet (read32 a s)
  | .access (.wr32 a v) => write32 a v s
  | .reset => .quiet (resetEvent s)

/-- The host write that issues the command word `w` (R22, R61, R106). -/
def commandWrite (w : Word) : HostEvent := .access (.wr32 0x004 w)

/-- The frame that puts a lone frame byte before the parser, all its other bytes zero: for byte 0 the
frame `b 00` (as in R140 to R146's examples), for byte 1 the frame `00 b` and the zero bytes that `b`'s
length form asks for: extended length, key and payload. -/
def frameAround (b : Byte) : List Byte :=
  match loneByteSpace b with
  | .cmd32 | .frameB0 => [b, 0]
  | .frameB1 =>
    let ext := if lenIndOf b = 126 then 2 else if lenIndOf b = 127 then 4 else (lenIndOf b).toNat
    let key := if maskOf b then 4 else 0
    0 :: b :: List.replicate (ext + key) 0

/-- `s` with a frame loaded for DECODE, bytes and length, and DECODE's command word written next. -/
def loadFrame (bs : List Byte) (s : State) : State :=
  { writeBuf .ibuf bs s with
    ilen := BitVec.ofNat 32 bs.length
    host := commandWrite 1 :: s.host }

end Sys2Proof.Machine
end

