-- ==== Sys2Proof/Machine/Encoder.lean ====
section
/-! DEFINITION. The frame encoder (41_frame_encoder.md): ENCODE. -/

namespace Sys2Proof.Machine

/-- The frame ENCODE emits for a payload: FIN = 1, RSV = 0, OPCODE = text, MASK = 0, a literal length,
then the raw payload (R104, R160). -/
def textFrame (payload : List Byte) : List Byte :=
  0x81 :: BitVec.ofNat 8 payload.length :: payload

/-- The length multiplexer of the send side: 126 and more is rejected (R105, R161). -/
def checkPayload (s : State) : Except CmdError Unit :=
  if 126 ≤ s.ilen.toNat then .error ⟨.payloadTooLarge, 0, 0⟩ else .ok ()

/-- ENCODE (R160). -/
def execEncode (s : State) : Host.Outcome State Fault Refusal :=
  .next (complete (checkPayload s)
    (fun _ => { writeBuf .obuf (textFrame (inputBytes s)) s with olen := s.ilen + 2 })
    { s with olen := 0 })

end Sys2Proof.Machine
end

