-- ==== Sys2Proof/Machine/Parser.lean ====
section
/-! DEFINITION. The frame parser (40_frame_parser.md): the unmask datapath, DECODE, UNMASK, and the
meanings of the frame opcode values and length forms, which are what DECODE does on a frame whose byte 0
or byte 1 is the row's byte (assumption log 1). -/

namespace Sys2Proof.Machine

/-- The unmask datapath on the bytes from index `i` on: byte `i` is XORed with `K[i mod 4]` (R120). -/
def unmaskFrom (k : List Byte) : Nat → List Byte → List Byte
  | _, [] => []
  | i, b :: bs => (b ^^^ k.getD (i % 4) 0) :: unmaskFrom k (i + 1) bs

/-- `Unmask(P, K)` (R120). -/
def unmaskBytes (bs k : List Byte) : List Byte := unmaskFrom k 0 bs

/-- `Take(n, step)` at cursor `pos` (R11): the bytes and the advanced cursor, or BufferUnderrun with
DETAIL = `step`; the comparison is over the naturals and never wraps (R13). -/
def takeBytes (frame : Nat → Byte) (ilen pos n step : Nat) : Except CmdError (List Byte × Nat) :=
  if ilen < pos + n then .error ⟨.bufferUnderrun, BitVec.ofNat 8 step, 0⟩
  else .ok ((List.range n).map (fun k => frame (pos + k)), pos + n)

/-- What step 3 of DECODE finds: the payload length, LENFORM and the cursor. -/
structure LengthField where
  len : Nat
  form : BitVec 2
  pos : Nat
  deriving DecidableEq, Repr

/-- The length multiplexer of the decode side, step 3 of R121 (R96). -/
def readLength (frame : Nat → Byte) (ilen pos : Nat) (ind : BitVec 7) : Except CmdError LengthField :=
  if ind = 126 then do
    let e ← takeBytes frame ilen pos 2 3
    pure ⟨beNat e.1, 1, e.2⟩
  else if ind = 127 then do
    let e ← takeBytes frame ilen pos 4 3
    pure ⟨beNat e.1, 2, e.2⟩
  else pure ⟨ind.toNat, 0, pos⟩

/-- The masking key, step 4 of R121: four bytes when MASK = 1, else absent and taken as zero (R97). -/
def readKey (frame : Nat → Byte) (ilen pos : Nat) (m : Bool) : Except CmdError (List Byte × Nat) :=
  if m then takeBytes frame ilen pos 4 4 else .ok ([0, 0, 0, 0], pos)

/-- What DECODE finds in a frame (R121). -/
structure Parsed where
  b0 : Byte
  mask : Bool
  form : BitVec 2
  hdrLen : Nat
  len : Nat
  key : List Byte
  payload : List Byte
  deriving DecidableEq, Repr

/-- Steps 1 to 6 of DECODE on a frame of `ilen` bytes (R121). -/
def parseFrame (frame : Nat → Byte) (ilen : Nat) : Except CmdError Parsed := do
  let r0 ← takeBytes frame ilen 0 1 1
  let r1 ← takeBytes frame ilen r0.2 1 2
  let b0 := r0.1.getD 0 0
  let b1 := r1.1.getD 0 0
  let f ← readLength frame ilen r1.2 (lenIndOf b1)
  let k ← readKey frame ilen f.pos (maskOf b1)
  let p ← takeBytes frame ilen k.2 f.len 5
  pure ⟨b0, maskOf b1, f.form, k.2, f.len, k.1, unmaskBytes p.1 k.1⟩

/-- DECODE's outputs on success (R47, R121). -/
def writeParsed (s : State) (p : Parsed) : State :=
  { writeBuf .obuf p.payload s with
    frame := packFrame (BitVec.ofNat 4 p.hdrLen) p.form (opKnown (opcodeOf p.b0)) p.mask p.b0
    plen := BitVec.ofNat 32 p.len
    consumed := BitVec.ofNat 32 (p.hdrLen + p.len)
    maskkey := be32 p.key
    olen := BitVec.ofNat 32 p.len }

/-- DECODE's failure outputs (R47, R236). -/
def clearParsed (s : State) : State :=
  { s with frame := 0, plen := 0, consumed := 0, maskkey := 0, olen := 0 }

/-- DECODE on a frame of ILEN bytes (R121): the length check, then the parser. -/
def decodeFrame (frame : Nat → Byte) (s : State) : State :=
  complete (do checkIlen s; parseFrame frame s.ilen.toNat) (writeParsed s) (clearParsed s)

/-- DECODE (R121): parse the frame in IBUF[0 .. ILEN). -/
def execDecode (s : State) : Host.Outcome State Fault Refusal :=
  .next (decodeFrame (inputFrame s) s)

/-- UNMASK (R123). -/
def execUnmask (s : State) : Host.Outcome State Fault Refusal :=
  .next (complete (checkIlen s)
    (fun _ =>
      { writeBuf .obuf (unmaskBytes (inputBytes s) (keyBytes s.maskkey)) s with olen := s.ilen })
    { s with olen := 0 })

/-- The frame parser on the frame in IBUF with byte 0 being `b` (R121, assumption log 1). -/
def decodeWithByte0 (b : Byte) (s : State) : Host.Outcome State Fault Refusal :=
  .next (decodeFrame (withFrameByte (inputFrame s) 0 b) s)

/-- The frame parser on the frame in IBUF with byte 1 being `b` (R121, assumption log 1). -/
def decodeWithByte1 (b : Byte) (s : State) : Host.Outcome State Fault Refusal :=
  .next (decodeFrame (withFrameByte (inputFrame s) 1 b) s)

/-- OPCODE 0x0, continuation (R140). -/
def execFrameOpContinuation (fin : Bool) (rsv : BitVec 3) (s : State) : Host.Outcome State Fault Refusal :=
  decodeWithByte0 (frameByte0 fin rsv 0x0) s

/-- OPCODE 0x1, text (R141). -/
def execFrameOpText (fin : Bool) (rsv : BitVec 3) (s : State) : Host.Outcome State Fault Refusal :=
  decodeWithByte0 (frameByte0 fin rsv 0x1) s

/-- OPCODE 0x2, binary (R142). -/
def execFrameOpBinary (fin : Bool) (rsv : BitVec 3) (s : State) : Host.Outcome State Fault Refusal :=
  decodeWithByte0 (frameByte0 fin rsv 0x2) s

/-- OPCODE 0x3, not named by TWS (R146). -/
def execFrameOpUnnamed3 (fin : Bool) (rsv : BitVec 3) (s : State) : Host.Outcome State Fault Refusal :=
  decodeWithByte0 (frameByte0 fin rsv 0x3) s

/-- OPCODE 0x4, not named by TWS (R146). -/
def execFrameOpUnnamed4 (fin : Bool) (rsv : BitVec 3) (s : State) : Host.Outcome State Fault Refusal :=
  decodeWithByte0 (frameByte0 fin rsv 0x4) s

/-- OPCODE 0x5, not named by TWS (R146). -/
def execFrameOpUnnamed5 (fin : Bool) (rsv : BitVec 3) (s : State) : Host.Outcome State Fault Refusal :=
  decodeWithByte0 (frameByte0 fin rsv 0x5) s

/-- OPCODE 0x6, not named by TWS (R146). -/
def execFrameOpUnnamed6 (fin : Bool) (rsv : BitVec 3) (s : State) : Host.Outcome State Fault Refusal :=
  decodeWithByte0 (frameByte0 fin rsv 0x6) s

/-- OPCODE 0x7, not named by TWS (R146). -/
def execFrameOpUnnamed7 (fin : Bool) (rsv : BitVec 3) (s : State) : Host.Outcome State Fault Refusal :=
  decodeWithByte0 (frameByte0 fin rsv 0x7) s

/-- OPCODE 0x8, close (R143). -/
def execFrameOpClose (fin : Bool) (rsv : BitVec 3) (s : State) : Host.Outcome State Fault Refusal :=
  decodeWithByte0 (frameByte0 fin rsv 0x8) s

/-- OPCODE 0x9, ping (R144). -/
def execFrameOpPing (fin : Bool) (rsv : BitVec 3) (s : State) : Host.Outcome State Fault Refusal :=
  decodeWithByte0 (frameByte0 fin rsv 0x9) s

/-- OPCODE 0xA, pong (R145). -/
def execFrameOpPong (fin : Bool) (rsv : BitVec 3) (s : State) : Host.Outcome State Fault Refusal :=
  decodeWithByte0 (frameByte0 fin rsv 0xA) s

/-- OPCODE 0xB, not named by TWS (R146). -/
def execFrameOpUnnamedB (fin : Bool) (rsv : BitVec 3) (s : State) : Host.Outcome State Fault Refusal :=
  decodeWithByte0 (frameByte0 fin rsv 0xB) s

/-- OPCODE 0xC, not named by TWS (R146). -/
def execFrameOpUnnamedC (fin : Bool) (rsv : BitVec 3) (s : State) : Host.Outcome State Fault Refusal :=
  decodeWithByte0 (frameByte0 fin rsv 0xC) s

/-- OPCODE 0xD, not named by TWS (R146). -/
def execFrameOpUnnamedD (fin : Bool) (rsv : BitVec 3) (s : State) : Host.Outcome State Fault Refusal :=
  decodeWithByte0 (frameByte0 fin rsv 0xD) s

/-- OPCODE 0xE, not named by TWS (R146). -/
def execFrameOpUnnamedE (fin : Bool) (rsv : BitVec 3) (s : State) : Host.Outcome State Fault Refusal :=
  decodeWithByte0 (frameByte0 fin rsv 0xE) s

/-- OPCODE 0xF, not named by TWS (R146). -/
def execFrameOpUnnamedF (fin : Bool) (rsv : BitVec 3) (s : State) : Host.Outcome State Fault Refusal :=
  decodeWithByte0 (frameByte0 fin rsv 0xF) s

/-- LENIND 0 to 125, the literal length (R96). -/
def execFrameLen7 (mask : Bool) (lenInd : BitVec 7) (s : State) : Host.Outcome State Fault Refusal :=
  decodeWithByte1 (frameByte1 mask lenInd) s

/-- LENIND 126, the 16-bit extended length (R96). -/
def execFrameLen16 (mask : Bool) (s : State) : Host.Outcome State Fault Refusal :=
  decodeWithByte1 (frameByte1 mask 126) s

/-- LENIND 127, the 32-bit extended length of 4 bytes (R96, 90_conflicts.md C3). -/
def execFrameLen32 (mask : Bool) (s : State) : Host.Outcome State Fault Refusal :=
  decodeWithByte1 (frameByte1 mask 127) s

end Sys2Proof.Machine
end

