-- ==== Sys2Proof/Machine/Sha1.lean ====
section
/-! DEFINITION. The SHA-1 core and accept-token generator (43_sha1_accept.md): SHA-1, Base64, the
commands SHA1 and ACCEPT. -/

namespace Sys2Proof.Machine

/-- `rotl32(x, n)` (R200). -/
def rotl32 (x : Word) (n : Nat) : Word := (x <<< n) ||| (x >>> (32 - n))

/-- `z`, the least number of zero bytes with `(|M| + 1 + z) mod 64 = 56` (R201). -/
def padZeros (len : Nat) : Nat := (119 - len % 64) % 64

/-- The padded message `M ++ [0x80] ++ [0x00] * z ++ BE64(8·|M|)` (R201). -/
def padMessage (m : List Byte) : List Byte :=
  m ++ [0x80] ++ List.replicate (padZeros m.length) 0 ++ be64Bytes (8 * m.length)

/-- The first `n` blocks of 64 bytes of a padded message, in order (R200). -/
def blocksOf : Nat → List Byte → List (List Byte)
  | 0, _ => []
  | n + 1, m => m.take 64 :: blocksOf n (m.drop 64)

/-- The first `n` big-endian words of a block: `W[0] .. W[n-1]` (R202). -/
def blockWords : Nat → List Byte → List Word
  | 0, _ => []
  | n + 1, b => be32 b :: blockWords n (b.drop 4)

/-- `W[t]` from the words before it, `t = |w|` (R202). -/
def nextWord (w : List Word) : Word :=
  rotl32 (w.getD (w.length - 3) 0 ^^^ w.getD (w.length - 8) 0 ^^^ w.getD (w.length - 14) 0
    ^^^ w.getD (w.length - 16) 0) 1

/-- `n` more words of the schedule (R202). -/
def extendSchedule : Nat → List Word → List Word
  | 0, w => w
  | n + 1, w => extendSchedule n (w ++ [nextWord w])

/-- The message schedule `W[0 .. 80)` of a block (R202). -/
def schedule (block : List Byte) : List Word := extendSchedule 64 (blockWords 16 block)

/-- The five words of a chaining value, or of the working variables `a` to `e` (R203). -/
structure Chain where
  a : Word
  b : Word
  c : Word
  d : Word
  e : Word
  deriving DecidableEq, Repr

/-- `f` of round `t` (R203). -/
def roundF (t : Nat) (b c d : Word) : Word :=
  if t ≤ 19 then (b &&& c) ||| (~~~b &&& d)
  else if t ≤ 39 then b ^^^ c ^^^ d
  else if t ≤ 59 then (b &&& c) ||| (b &&& d) ||| (c &&& d)
  else b ^^^ c ^^^ d

/-- `k` of round `t` (R203). -/
def roundK (t : Nat) : Word :=
  if t ≤ 19 then 0x5A827999
  else if t ≤ 39 then 0x6ED9EBA1
  else if t ≤ 59 then 0x8F1BBCDC
  else 0xCA62C1D6

/-- Round `t` with schedule word `w` (R203). -/
def shaRound (t : Nat) (w : Word) (v : Chain) : Chain :=
  ⟨rotl32 v.a 5 + roundF t v.b v.c v.d + v.e + roundK t + w, v.a, rotl32 v.b 30, v.c, v.d⟩

/-- The rounds from `t` on, one per schedule word (R203). -/
def shaRounds : Nat → List Word → Chain → Chain
  | _, [], v => v
  | t, w :: ws, v => shaRounds (t + 1) ws (shaRound t w v)

/-- `+32` word by word (R203). -/
def addChain (x y : Chain) : Chain := ⟨x.a + y.a, x.b + y.b, x.c + y.c, x.d + y.d, x.e + y.e⟩

/-- The compression function on one block (R203). -/
def compress (h : Chain) (block : List Byte) : Chain := addChain h (shaRounds 0 (schedule block) h)

/-- The initial chaining value (R204). -/
def shaInit : Chain := ⟨0x67452301, 0xEFCDAB89, 0x98BADCFE, 0x10325476, 0xC3D2E1F0⟩

/-- The 20 digest bytes of the last chaining value (R204). -/
def digestBytes (h : Chain) : List Byte :=
  be32Bytes h.a ++ be32Bytes h.b ++ be32Bytes h.c ++ be32Bytes h.d ++ be32Bytes h.e

/-- `SHA1(M)` (R200). -/
def sha1 (m : List Byte) : List Byte :=
  digestBytes ((blocksOf ((padMessage m).length / 64) (padMessage m)).foldl compress shaInit)

/-- The Base64 alphabet (R205). -/
def base64Char (v : BitVec 6) : Byte :=
  if v < 26 then 0x41 + v.setWidth 8
  else if v < 52 then 0x61 + (v.setWidth 8 - 26)
  else if v < 62 then 0x30 + (v.setWidth 8 - 52)
  else if v = 62 then 0x2B
  else 0x2F

/-- The 24-bit value `n` of a 3-byte group (R206). -/
def group24 (d0 d1 d2 : Byte) : BitVec 24 := d0 ++ d1 ++ d2

/-- The four characters of a group (R206). -/
def groupChars (n : BitVec 24) : List Byte :=
  [base64Char (n.extractLsb' 18 6), base64Char (n.extractLsb' 12 6), base64Char (n.extractLsb' 6 6),
   base64Char (n.extractLsb' 0 6)]

/-- `Base64(D)`: each 3-byte group gives four characters; a last group of two bytes gives three and one
`=`, of one byte two and two `=` (R206). -/
def base64 : List Byte → List Byte
  | [] => []
  | [d0] => (groupChars (group24 d0 0 0)).take 2 ++ [0x3D, 0x3D]
  | [d0, d1] => (groupChars (group24 d0 d1 0)).take 3 ++ [0x3D]
  | d0 :: d1 :: d2 :: rest => groupChars (group24 d0 d1 d2) ++ base64 rest

/-- The GUID's 36 ASCII bytes (R207). -/
def guid : List Byte :=
  [0x32, 0x35, 0x38, 0x45, 0x41, 0x46, 0x41, 0x35, 0x2D, 0x45, 0x39, 0x31, 0x34, 0x2D,
   0x34, 0x37, 0x44, 0x41, 0x2D, 0x39, 0x35, 0x43, 0x41, 0x2D, 0x43, 0x35, 0x41, 0x42,
   0x30, 0x44, 0x43, 0x38, 0x35, 0x42, 0x31, 0x31]

/-- The message ACCEPT hashes: the key and the GUID (R208). -/
def acceptMessage (s : State) : List Byte := clientKey s ++ guid

/-- SHA1 (R210). -/
def execSha1 (s : State) : Host.Outcome State Fault Refusal :=
  .next (complete (checkIlen s) (fun _ => writeBuf .digest (sha1 (inputBytes s)) s) s)

/-- DIGEST and TOKEN of a digest (R211). -/
def writeToken (digest : List Byte) (s : State) : State :=
  writeBuf .token (base64 digest) (writeBuf .digest digest s)

/-- ACCEPT (R211). -/
def execAccept (s : State) : Host.Outcome State Fault Refusal :=
  .next (complete (checkKeylen s) (fun _ => writeToken (sha1 (acceptMessage s)) s) s)

end Sys2Proof.Machine
end

