-- ==== Sys2Proof/Machine/Validator.lean ====
section
/-! DEFINITION. The header validator (42_header_validator.md): its byte-string primitives and VALIDATE. -/

namespace Sys2Proof.Machine

/-- `fold` of one byte: `A` to `Z` become lowercase, every other byte is unchanged (R171). -/
def foldByte (b : Byte) : Byte := if 0x41 ≤ b ∧ b ≤ 0x5A then b + 0x20 else b

/-- `fold(s)`, byte by byte (R171). -/
def fold (bs : List Byte) : List Byte := bs.map foldByte

/-- The whitespace set WS (R172). -/
def isSpace (b : Byte) : Bool :=
  b = 0x09 || b = 0x0A || b = 0x0B || b = 0x0C || b = 0x0D || b = 0x20 || b = 0xA0

/-- The sequence without its longest prefix of whitespace bytes (R172). -/
def trimLeft : List Byte → List Byte
  | [] => []
  | b :: bs => if isSpace b then trimLeft bs else b :: bs

/-- `trim(s)`: without the longest whitespace prefix, then without the longest whitespace suffix (R172). -/
def trim (bs : List Byte) : List Byte := (trimLeft (trimLeft bs).reverse).reverse

/-- `s` begins with `t`. -/
def startsWith : List Byte → List Byte → Bool
  | _, [] => true
  | [], _ :: _ => false
  | b :: bs, c :: cs => b == c && startsWith bs cs

/-- `contains(s, t)`: `t` stands in `s` at some index, with no word boundary (R173). -/
def contains (bs t : List Byte) : Bool :=
  match bs with
  | [] => startsWith [] t
  | b :: rest => startsWith (b :: rest) t || contains rest t

/-- The decimal digits of `n`, most significant first, as ASCII bytes, before those in `acc`; `fuel`
bounds the number of digits after the first. -/
def decDigits : Nat → Nat → List Byte → List Byte
  | 0, n, acc => BitVec.ofNat 8 (0x30 + n % 10) :: acc
  | fuel + 1, n, acc =>
    if n < 10 then BitVec.ofNat 8 (0x30 + n) :: acc
    else decDigits fuel (n / 10) (BitVec.ofNat 8 (0x30 + n % 10) :: acc)

/-- `dec(v)`: the ASCII decimal string of a 16-bit number, at most five digits, no leading zero (R174). -/
def dec (v : BitVec 16) : List Byte := decDigits 4 v.toNat []

/-- The ASCII bytes of "upgrade". -/
def strUpgrade : List Byte :=
  [0x75, 0x70, 0x67, 0x72, 0x61, 0x64, 0x65]

/-- The ASCII bytes of "websocket". -/
def strWebsocket : List Byte :=
  [0x77, 0x65, 0x62, 0x73, 0x6F, 0x63, 0x6B, 0x65, 0x74]

/-- The ASCII bytes of "connection". -/
def strConnection : List Byte :=
  [0x63, 0x6F, 0x6E, 0x6E, 0x65, 0x63, 0x74, 0x69, 0x6F, 0x6E]

/-- The ASCII bytes of "sec-websocket-version". -/
def strVersion : List Byte :=
  [0x73, 0x65, 0x63, 0x2D, 0x77, 0x65, 0x62, 0x73, 0x6F, 0x63, 0x6B, 0x65, 0x74, 0x2D,
   0x76, 0x65, 0x72, 0x73, 0x69, 0x6F, 0x6E]

/-- The ASCII bytes of "sec-websocket-key". -/
def strKey : List Byte :=
  [0x73, 0x65, 0x63, 0x2D, 0x77, 0x65, 0x62, 0x73, 0x6F, 0x63, 0x6B, 0x65, 0x74, 0x2D,
   0x6B, 0x65, 0x79]

/-- Entry `e`'s name folds to `t` (R175). -/
def nameIs (s : State) (t : List Byte) (e : Nat) : Bool :=
  (hdrLens s e).nameLen.toNat == t.length && fold (headerName s e) == t

/-- `Lookup(t)`: the lowest entry below HDR_COUNT whose name folds to `t`, or none (R175). -/
def lookupHeader (s : State) (t : List Byte) : Option Nat :=
  (List.range s.hdrCount.toNat).find? (nameIs s t)

/-- INDEX of an error about entry `e` (R231). -/
def entryIndex (e : Nat) : Byte := BitVec.ofNat 8 e

/-- PreCheck's checks of one entry (R181). -/
def preCheckEntry (s : State) (e : Nat) : Option CmdError :=
  if s.params.hnameMax < (hdrLens s e).nameLen.toNat then some ⟨.lengthOutOfRange, 4, entryIndex e⟩
  else if s.params.hvalMax < (hdrLens s e).valueLen.toNat then
    some ⟨.lengthOutOfRange, 5, entryIndex e⟩
  else none

/-- PreCheck (R181): the count, then each entry's name length and value length, in entry order. -/
def preCheck (s : State) : Except CmdError Unit :=
  if s.params.hdrN < s.hdrCount.toNat then .error ⟨.lengthOutOfRange, 3, 0⟩
  else
    match (List.range s.hdrCount.toNat).findSome? (preCheckEntry s) with
    | some e => .error e
    | none => .ok ()

/-- A header that must be present: its entry, or the check's error with DETAIL 0 and INDEX 0xFF (R186,
R231). -/
def requireHeader (s : State) (t : List Byte) (kind : ErrKind) : Except CmdError Nat :=
  match lookupHeader s t with
  | some e => .ok e
  | none => .error ⟨kind, 0, 0xFF⟩

/-- A value that must pass: else the check's error with DETAIL 1 and INDEX the entry (R186, R231). -/
def requireValue (ok : Bool) (kind : ErrKind) (e : Nat) : Except CmdError Unit :=
  if ok then .ok () else .error ⟨kind, 1, entryIndex e⟩

/-- Check 1, upgrade (R182). -/
def checkUpgrade (s : State) : Except CmdError Unit := do
  let e ← requireHeader s strUpgrade .missingOrInvalidUpgrade
  requireValue (fold (headerValue s e) == strWebsocket) .missingOrInvalidUpgrade e

/-- Check 2, connection (R183). -/
def checkConnection (s : State) : Except CmdError Unit := do
  let e ← requireHeader s strConnection .missingOrInvalidConnection
  requireValue (contains (fold (headerValue s e)) strUpgrade) .missingOrInvalidConnection e

/-- Check 3, version (R184). -/
def checkVersion (s : State) : Except CmdError Unit := do
  let e ← requireHeader s strVersion .unsupportedVersion
  requireValue (headerValue s e == dec s.cfgVersion) .unsupportedVersion e

/-- Check 4, key (R185): on success the trimmed key. -/
def checkKey (s : State) : Except CmdError (List Byte) := do
  let e ← requireHeader s strKey .missingOrInvalidKey
  requireValue (!(trim (headerValue s e)).isEmpty) .missingOrInvalidKey e
  pure (trim (headerValue s e))

/-- VALIDATE's checks in their fixed order, stopping at the first that fails (R180, R187). -/
def validateTable (s : State) : Except CmdError (List Byte) := do
  preCheck s
  checkUpgrade s
  checkConnection s
  checkVersion s
  checkKey s

/-- VALIDATE (R180): on success the trimmed key is written to KEYBUF and its length to KEYLEN. -/
def execValidate (s : State) : Host.Outcome State Fault Refusal :=
  .next (complete (validateTable s)
    (fun k => { writeBuf .keybuf k s with keylen := BitVec.ofNat 32 k.length })
    { s with keylen := 0 })

end Sys2Proof.Machine
end

