-- ==== Sys2Proof/Machine/Dispatch.lean ====
section
/-! DEFINITION. What each instruction does: one arm per constructor, one direct call of its meaning. -/

namespace Sys2Proof.Machine

def exec (i : Instr) (s : State) : Host.Outcome State Fault Refusal :=
  match i with
  | .decode => Sys2Proof.Machine.execDecode s
  | .unmask => Sys2Proof.Machine.execUnmask s
  | .encode => Sys2Proof.Machine.execEncode s
  | .validate => Sys2Proof.Machine.execValidate s
  | .accept => Sys2Proof.Machine.execAccept s
  | .sha1 => Sys2Proof.Machine.execSha1 s
  | .frameOpContinuation fin rsv => Sys2Proof.Machine.execFrameOpContinuation fin rsv s
  | .frameOpText fin rsv => Sys2Proof.Machine.execFrameOpText fin rsv s
  | .frameOpBinary fin rsv => Sys2Proof.Machine.execFrameOpBinary fin rsv s
  | .frameOpUnnamed3 fin rsv => Sys2Proof.Machine.execFrameOpUnnamed3 fin rsv s
  | .frameOpUnnamed4 fin rsv => Sys2Proof.Machine.execFrameOpUnnamed4 fin rsv s
  | .frameOpUnnamed5 fin rsv => Sys2Proof.Machine.execFrameOpUnnamed5 fin rsv s
  | .frameOpUnnamed6 fin rsv => Sys2Proof.Machine.execFrameOpUnnamed6 fin rsv s
  | .frameOpUnnamed7 fin rsv => Sys2Proof.Machine.execFrameOpUnnamed7 fin rsv s
  | .frameOpClose fin rsv => Sys2Proof.Machine.execFrameOpClose fin rsv s
  | .frameOpPing fin rsv => Sys2Proof.Machine.execFrameOpPing fin rsv s
  | .frameOpPong fin rsv => Sys2Proof.Machine.execFrameOpPong fin rsv s
  | .frameOpUnnamedB fin rsv => Sys2Proof.Machine.execFrameOpUnnamedB fin rsv s
  | .frameOpUnnamedC fin rsv => Sys2Proof.Machine.execFrameOpUnnamedC fin rsv s
  | .frameOpUnnamedD fin rsv => Sys2Proof.Machine.execFrameOpUnnamedD fin rsv s
  | .frameOpUnnamedE fin rsv => Sys2Proof.Machine.execFrameOpUnnamedE fin rsv s
  | .frameOpUnnamedF fin rsv => Sys2Proof.Machine.execFrameOpUnnamedF fin rsv s
  | .frameLen7 mask lenInd => Sys2Proof.Machine.execFrameLen7 mask lenInd s
  | .frameLen16 mask => Sys2Proof.Machine.execFrameLen16 mask s
  | .frameLen32 mask => Sys2Proof.Machine.execFrameLen32 mask s

end Sys2Proof.Machine
end

