-- ==== Sys2Proof/Machine/Step.lean ====
section
/-! DEFINITION. One step of the machine: one transition of the block, which is one host event and, when it
writes CMD, the command it issues (00_scope.md rule R6, 20_memory.md rule R60, 60_exceptions.md rule
R237). -/

namespace Sys2Proof.Machine

/-- The command issue of R237, after CMD has been written: a legal word runs its command, any other
raises IllegalCommand. -/
def issue (w : Word) (s : State) : Host.Outcome State Fault Refusal :=
  match decodeCommand w with
  | .ok i => exec i s
  | .error _ => .next (illegalCommand w s)

/-- One step: the host's next event. With none the block is idle and keeps its state (R255, R262). -/
def step (s : State) : Host.Outcome State Fault Refusal :=
  match s.host with
  | [] => .next s
  | ev :: rest =>
    match hostEvent ev { s with host := rest } with
    | .quiet t => .next t
    | .command w t => issue w t

/-- `s` with the table word `w` of `nbits` bits placed where the very next step takes its instruction
(fixed name of the host; assumption logs 1, 4 and 5): a command word as the host's next write, to CMD; a
frame byte at its place in IBUF, in a frame of zeros, with the host's next write issuing DECODE. -/
def State.withFetchWord (s : State) (nbits w : Nat) : State :=
  if nbits = 8 then loadFrame (frameAround (BitVec.ofNat 8 w)) s
  else { s with host := commandWrite (BitVec.ofNat 32 w) :: s.host }

end Sys2Proof.Machine
end

