-- ==== Sys2Proof/Machine/Script.lean ====
section
/-! DEFINITION. The host script notation (30_encoding.md rules R106, R107): each line and each
pseudo-instruction as the host events it stands for. EXPECT and EXPECT8 are checks of a harness; their
effect on the block is the reads alone. -/

namespace Sys2Proof.Machine

/-- The host address of a register (R61). -/
def Reg.addr : Reg → Nat
  | .id => 0x000
  | .cmd => 0x004
  | .status => 0x008
  | .errcode => 0x00C
  | .cfgVersion => 0x010
  | .ilen => 0x014
  | .olen => 0x018
  | .maskkey => 0x01C
  | .frame => 0x020
  | .plen => 0x024
  | .consumed => 0x028
  | .keylen => 0x02C
  | .hdrCount => 0x030
  | .paramIbufSize => 0x034
  | .paramHdrN => 0x038
  | .paramHnameMax => 0x03C
  | .paramHvalMax => 0x040
  | .nameLen e => 0x10000 + 0x400 * e + 0x000
  | .valueLen e => 0x10000 + 0x400 * e + 0x004

/-- A line of a host script (R106, R107). `LOADS` is `load` with the text's ASCII bytes. -/
inductive ScriptLine where
  /-- `WR32 <REG>, <v>`. -/
  | wr32 (r : Reg) (v : Word)
  /-- `RD32 <REG>`. -/
  | rd32 (r : Reg)
  /-- `WR8 <WIN>[<i>], <b>`. -/
  | wr8 (w : Win) (i : Nat) (b : Byte)
  /-- `RD8 <WIN>[<i>]`. -/
  | rd8 (w : Win) (i : Nat)
  /-- `CMD <MNEMONIC>`, of one of the six commands. -/
  | cmd (i : Instr)
  /-- `CMDW <w>`. -/
  | cmdw (w : Word)
  /-- `LOAD <WIN>, <bytes>`. -/
  | load (w : Win) (bs : List Byte)
  /-- `SETHDR <e>, "name", "value"`. -/
  | setHdr (e : Nat) (name value : List Byte)
  /-- `EXPECT <REG>, <v>`: the read alone. -/
  | expect (r : Reg) (v : Word)
  /-- `EXPECT8 <WIN>[<a..b>], <bytes>`: the reads alone. -/
  | expect8 (w : Win) (a : Nat) (bs : List Byte)
  deriving DecidableEq, Repr

/-- `WR32 REG, v` (R106). -/
def scriptWr32 (r : Reg) (v : Word) : HostEvent := .access (.wr32 (BitVec.ofNat 22 r.addr) v)

/-- `WR8 WIN[a], bs[0]`, `WR8 WIN[a+1], bs[1]`, … (R106). -/
def scriptWr8s (w : Win) : Nat → List Byte → List HostEvent
  | _, [] => []
  | a, b :: bs => .access (.wr8 (BitVec.ofNat 22 (w.addr a)) b) :: scriptWr8s w (a + 1) bs

/-- `RD8 WIN[a]` and the `n - 1` bytes after it (R106). -/
def scriptRd8s (w : Win) (a n : Nat) : List HostEvent :=
  (List.range n).map fun i => .access (.rd8 (BitVec.ofNat 22 (w.addr (a + i))))

/-- The length register that `LOAD` writes after the bytes of a window, if any (R107). -/
def scriptLength (w : Win) (n : Nat) : List HostEvent :=
  match w with
  | .ibuf => [scriptWr32 .ilen (BitVec.ofNat 32 n)]
  | .keybuf => [scriptWr32 .keylen (BitVec.ofNat 32 n)]
  | .digest | .token | .hname _ | .hval _ | .obuf => []

/-- The host accesses a line expands to, in order (R106, R107). -/
def ScriptLine.expand : ScriptLine → List HostEvent
  | .wr32 r v => [scriptWr32 r v]
  | .rd32 r => [.access (.rd32 (BitVec.ofNat 22 r.addr))]
  | .wr8 w i b => scriptWr8s w i [b]
  | .rd8 w i => scriptRd8s w i 1
  | .cmd i => [scriptWr32 .cmd (encode i)]
  | .cmdw w => [scriptWr32 .cmd w]
  | .load w bs => scriptWr8s w 0 bs ++ scriptLength w bs.length
  | .setHdr e name value =>
    scriptWr8s (.hname e) 0 name ++ [scriptWr32 (.nameLen e) (BitVec.ofNat 32 name.length)] ++
      scriptWr8s (.hval e) 0 value ++ [scriptWr32 (.valueLen e) (BitVec.ofNat 32 value.length)]
  | .expect r _ => [.access (.rd32 (BitVec.ofNat 22 r.addr))]
  | .expect8 w a bs => scriptRd8s w a bs.length

/-- `s` with a host script as what the host does next. -/
def State.withScript (s : State) (lines : List ScriptLine) : State :=
  { s with host := lines.flatMap ScriptLine.expand ++ s.host }

end Sys2Proof.Machine
end

