-- ==== Sys2Proof/Safety.lean ====
section
/-! DEFINITION. The terms the claims use: the invariant of the block, how a command's outcome reads, what
is left unchanged, which accesses are admitted (written from 20_memory.md rules R61 and R63, not from the
model's `locate`), the layout of a frame (written from 30_encoding.md rules R96 and R100, not from the
model's parser), and the conditions of the handshake checks. -/

namespace Sys2Proof.Machine

/-- What holds of the block after reset and after every host event. -/
structure State.Inv (s : State) : Prop where
  /-- The parameters are in R7's ranges. -/
  legal : s.params.Legal
  /-- One pair of length registers per header-table entry (R40, R41). -/
  hdrLength : s.hdr.length = s.params.hdrN
  /-- The memory is in its canonical form. -/
  memWf : Memory.wf s.mem = true
  /-- Only window bytes of the address map are listed (R61, R62). -/
  memMapped : Memory.mapped s.params s.mem = true
  /-- STATUS[31:3] read 0 (R23). -/
  statusHigh : s.status.extractLsb' 3 29 = 0
  /-- OK and ERR are never both set (R23). -/
  notBoth : ¬ (statusOkBit s.status = true ∧ statusErrBit s.status = true)
  /-- Without ERR, ERRCODE is 0 (R24, R235). -/
  noError : statusErrBit s.status = false → s.errcode = 0
  /-- With ERR, ERRCODE.CODE is one of the codes 1 to 8 (R230). -/
  errorCodes : statusErrBit s.status = true →
    1 ≤ (errorCodeField s.errcode).toNat ∧ (errorCodeField s.errcode).toNat ≤ 8
  /-- ERRCODE[31:24] read 0 (R24). -/
  errorHigh : errorHighField s.errcode = 0
  /-- FRAME[31:16] read 0 (R27). -/
  frameHighZero : frameHigh s.frame = 0
  /-- LENFORM is never 3 (R27). -/
  lenForm : frameLenForm s.frame ≠ 3
  /-- FRAME of a decoded frame: HDRLEN is 2, 4 or 6, plus 4 if MASK = 1 (R27). -/
  hdrLen : s.frame ≠ 0 → (frameHdrLen s.frame).toNat =
    2 + 2 * (frameLenForm s.frame).toNat + (if frameMask s.frame then 4 else 0)
  /-- FRAME of a decoded frame: OPKNOWN tells whether OPCODE is one of the six named values (R27). -/
  known : s.frame ≠ 0 → frameOpKnown s.frame = opKnown (frameOpcode s.frame)
  /-- CONSUMED = HDRLEN + PLEN (R29). -/
  consumedSum : s.consumed.toNat = (frameHdrLen s.frame).toNat + s.plen.toNat
  /-- A decoded frame lies in IBUF (R11, R232). -/
  consumedFits : s.consumed.toNat ≤ s.params.ibufSize
  /-- OBUF[0 .. OLEN) lies in OBUF (R30, R36). -/
  olenFits : s.olen.toNat ≤ s.params.ibufSize

/-- The recording of a command without error (R235): OK = 1, ERR = 0, ERRCODE = 0. -/
structure Succeeded (t : State) : Prop where
  ok : statusOkBit t.status = true
  err : statusErrBit t.status = false
  errcode : t.errcode = 0

/-- The recording of a command error (R235): OK = 0, ERR = 1, and ERRCODE's fields. -/
structure Failed (t : State) (code detail index : Byte) : Prop where
  ok : statusOkBit t.status = false
  err : statusErrBit t.status = true
  code : errorCodeField t.errcode = code
  detail : errorDetailField t.errcode = detail
  index : errorIndexField t.errcode = index
  high : errorHighField t.errcode = 0

/-- What no instruction writes (R47, R78, R235): the parameters, CMD (written by the host write that
issues the command), CFG_VERSION, ILEN, HDR_COUNT, every NAME_LEN and VALUE_LEN, STATUS but for OK and
ERR, and the model's host side. -/
structure KeepsControl (s t : State) : Prop where
  params : t.params = s.params
  cmd : t.cmd = s.cmd
  statusRest : t.status.extractLsb' 2 30 = s.status.extractLsb' 2 30
  cfgVersion : t.cfgVersion = s.cfgVersion
  ilen : t.ilen = s.ilen
  hdrCount : t.hdrCount = s.hdrCount
  hdr : t.hdr = s.hdr
  resets : t.resets = s.resets
  host : t.host = s.host
  reply : t.reply = s.reply

/-- DECODE's result registers, but for OLEN, are unchanged. -/
structure KeepsFrameRegs (s t : State) : Prop where
  frame : t.frame = s.frame
  plen : t.plen = s.plen
  consumed : t.consumed = s.consumed
  maskkey : t.maskkey = s.maskkey

/-- Every byte of memory outside the `n` bytes from `lo` on reads as before. -/
def KeepsMemoryOutside (lo n : Nat) (s t : State) : Prop :=
  ∀ a, ¬ (lo ≤ a ∧ a < lo + n) → memByte t a = memByte s a

/-- Every byte of memory reads as before. -/
def KeepsMemory (s t : State) : Prop := ∀ a, memByte t a = memByte s a

/-! ### The admitted accesses (R61, R63) -/

/-- A register address of the map (R61). -/
def IsRegisterAddr (p : Params) (a : Nat) : Prop :=
  (a ≤ 0x040 ∧ a % 4 = 0) ∨
  ∃ e, e < p.hdrN ∧ (a = 0x10000 + 0x400 * e ∨ a = 0x10000 + 0x400 * e + 0x004)

/-- The address of an RW register (R61, R63). -/
def IsWritableRegisterAddr (p : Params) (a : Nat) : Prop :=
  a = 0x004 ∨ a = 0x008 ∨ a = 0x010 ∨ a = 0x014 ∨ a = 0x01C ∨ a = 0x02C ∨ a = 0x030 ∨
  ∃ e, e < p.hdrN ∧ (a = 0x10000 + 0x400 * e ∨ a = 0x10000 + 0x400 * e + 0x004)

/-- The address of a byte of an RW window: KEYBUF, HNAME[e], HVAL[e], IBUF (R61, R63). -/
def IsWritableWindowAddr (p : Params) (a : Nat) : Prop :=
  (0x200 ≤ a ∧ a < 0x200 + p.hvalMax) ∨
  (∃ e, e < p.hdrN ∧ 0x10000 + 0x400 * e + 0x100 ≤ a ∧ a < 0x10000 + 0x400 * e + 0x100 + p.hnameMax) ∨
  (∃ e, e < p.hdrN ∧ 0x10000 + 0x400 * e + 0x200 ≤ a ∧ a < 0x10000 + 0x400 * e + 0x200 + p.hvalMax) ∨
  (0x100000 ≤ a ∧ a < 0x100000 + p.ibufSize)

/-- The address of a window byte: the RW windows, and DIGEST, TOKEN, OBUF (R61, R63). -/
def IsWindowAddr (p : Params) (a : Nat) : Prop :=
  IsWritableWindowAddr p a ∨ (0x100 ≤ a ∧ a ≤ 0x113) ∨ (0x120 ≤ a ∧ a ≤ 0x13B) ∨
  (0x200000 ≤ a ∧ a < 0x200000 + p.ibufSize)

/-- The admitted accesses (R63). -/
def Admitted (p : Params) : HostAccess → Prop
  | .rd32 a => IsRegisterAddr p a.toNat
  | .wr32 a _ => IsWritableRegisterAddr p a.toNat
  | .rd8 a => IsWindowAddr p a.toNat
  | .wr8 a _ => IsWritableWindowAddr p a.toNat

/-- What an access that is not admitted returns: a read 0 of its width, a write nothing (R64). -/
def errorReply : HostAccess → Option Reply
  | .rd8 _ => some (.byte 0)
  | .rd32 _ => some (.word 0)
  | .wr8 _ _ => none
  | .wr32 _ _ => none

/-- The entry a window belongs to exists (R40, R61). -/
def Win.InTable (p : Params) : Win → Prop
  | .hname e => e < p.hdrN
  | .hval e => e < p.hdrN
  | .digest | .token | .keybuf | .ibuf | .obuf => True

/-! ### The layout of a frame (R93 to R100) -/

/-- Extension bytes of the length form (R96). -/
def extBytes (frame : Nat → Byte) : Nat :=
  if lenIndOf (frame 1) = 126 then 2 else if lenIndOf (frame 1) = 127 then 4 else 0

/-- LENFORM (R96). -/
def declaredForm (frame : Nat → Byte) : BitVec 2 :=
  if lenIndOf (frame 1) = 126 then 1 else if lenIndOf (frame 1) = 127 then 2 else 0

/-- PLEN by R96's table. -/
def declaredLen (frame : Nat → Byte) : Nat :=
  if lenIndOf (frame 1) = 126 then (frame 2).toNat * 2 ^ 8 + (frame 3).toNat
  else if lenIndOf (frame 1) = 127 then
    (frame 2).toNat * 2 ^ 24 + (frame 3).toNat * 2 ^ 16 + (frame 4).toNat * 2 ^ 8 + (frame 5).toNat
  else (lenIndOf (frame 1)).toNat

/-- Bytes of the masking key: `4·MASK` (R97). -/
def keySize (frame : Nat → Byte) : Nat := if maskOf (frame 1) then 4 else 0

/-- HDRLEN by R100's table. -/
def headerLen (frame : Nat → Byte) : Nat := 2 + extBytes frame + keySize frame

/-- `K[j]`: the key byte at offset 2 + extension bytes + j, or 0 when MASK = 0 (R97, R98). -/
def declaredKey (frame : Nat → Byte) (j : Nat) : Byte :=
  if maskOf (frame 1) then frame (2 + extBytes frame + j) else 0

/-- The instructions that run the frame parser: DECODE, and the rows of frame byte 0 and byte 1. -/
def RunsParser (i : Instr) : Prop := i = .decode ∨ spaceOf i ≠ .cmd32

/-- The frame such an instruction parses: the one in IBUF, a row's own byte at its place (assumption
log 1). -/
def frameOf (i : Instr) (s : State) : Nat → Byte :=
  match spaceOf i with
  | .cmd32 => inputFrame s
  | .frameB0 => withFrameByte (inputFrame s) 0 ((encode i).setWidth 8)
  | .frameB1 => withFrameByte (inputFrame s) 1 ((encode i).setWidth 8)

/-- DECODE's failure outputs (R47): FRAME, PLEN, CONSUMED, MASKKEY and OLEN are 0. -/
def parserCleared (s : State) : State :=
  { s with frame := 0, plen := 0, consumed := 0, maskkey := 0, olen := 0 }

/-- The failure outputs an error writes (R47's last column, R236): the result registers the instruction
writes on success, set to 0. -/
def failureOutputs (i : Instr) (s : State) : State :=
  match i with
  | .decode => parserCleared s
  | .unmask => { s with olen := 0 }
  | .encode => { s with olen := 0 }
  | .validate => { s with keylen := 0 }
  | .accept => s
  | .sha1 => s
  | .frameOpContinuation _ _ => parserCleared s
  | .frameOpText _ _ => parserCleared s
  | .frameOpBinary _ _ => parserCleared s
  | .frameOpUnnamed3 _ _ => parserCleared s
  | .frameOpUnnamed4 _ _ => parserCleared s
  | .frameOpUnnamed5 _ _ => parserCleared s
  | .frameOpUnnamed6 _ _ => parserCleared s
  | .frameOpUnnamed7 _ _ => parserCleared s
  | .frameOpClose _ _ => parserCleared s
  | .frameOpPing _ _ => parserCleared s
  | .frameOpPong _ _ => parserCleared s
  | .frameOpUnnamedB _ _ => parserCleared s
  | .frameOpUnnamedC _ _ => parserCleared s
  | .frameOpUnnamedD _ _ => parserCleared s
  | .frameOpUnnamedE _ _ => parserCleared s
  | .frameOpUnnamedF _ _ => parserCleared s
  | .frameLen7 _ _ => parserCleared s
  | .frameLen16 _ => parserCleared s
  | .frameLen32 _ => parserCleared s

/-- The buffers an instruction writes on success (R47's third column); the rows of frame byte 0 and byte 1
write what DECODE writes (assumption log 1). -/
def WritesWindow (i : Instr) (w : Win) : Prop :=
  (w = .obuf ∧ (RunsParser i ∨ i = .unmask ∨ i = .encode)) ∨ (w = .keybuf ∧ i = .validate) ∨
  (w = .digest ∧ (i = .accept ∨ i = .sha1)) ∨ (w = .token ∧ i = .accept)

/-- How many bytes of an output buffer R47 gives a command, from byte 0 on, by the state it leaves:
OBUF[0 .. OLEN), KEYBUF[0 .. KEYLEN), and DIGEST and TOKEN whole (R36 to R39). -/
def bytesWritten (t : State) : Win → Nat
  | .obuf => t.olen.toNat
  | .keybuf => t.keylen.toNat
  | .digest => 20
  | .token => 28
  | .ibuf | .hname _ | .hval _ => 0

/-- Every byte that R47 gives the instruction no write to reads as before. -/
def KeepsOtherBytes (i : Instr) (s t : State) : Prop :=
  ∀ a, (∀ w, WritesWindow i w → ¬ (w.addr 0 ≤ a ∧ a < w.addr 0 + bytesWritten t w)) →
    memByte t a = memByte s a

/-- The outputs of parsing `frame` successfully (R27 to R31, R98, R121). -/
structure Decoded (frame : Nat → Byte) (t : State) : Prop where
  succeeded : Succeeded t
  byte0 : t.frame.extractLsb' 0 8 = frame 0
  mask : frameMask t.frame = maskOf (frame 1)
  opKnown : frameOpKnown t.frame = opKnown (opcodeOf (frame 0))
  lenForm : frameLenForm t.frame = declaredForm frame
  hdrLen : (frameHdrLen t.frame).toNat = headerLen frame
  high : frameHigh t.frame = 0
  plen : t.plen.toNat = declaredLen frame
  consumed : t.consumed.toNat = headerLen frame + declaredLen frame
  maskkey : t.maskkey =
    declaredKey frame 0 ++ declaredKey frame 1 ++ declaredKey frame 2 ++ declaredKey frame 3
  olen : t.olen.toNat = declaredLen frame
  payload : ∀ i, i < declaredLen frame →
    bufByte t .obuf i = frame (headerLen frame + i) ^^^ declaredKey frame (i % 4)

/-- What parsing leaves unchanged: all but DECODE's outputs, and of memory all but OBUF[0 .. n). -/
structure DecodeFrameRule (n : Nat) (s t : State) : Prop where
  control : KeepsControl s t
  keylen : t.keylen = s.keylen
  memory : KeepsMemoryOutside (Win.addr .obuf 0) n s t

/-- The failure outputs of DECODE (R47) and what a failed parse leaves unchanged. -/
structure DecodeCleared (s t : State) : Prop where
  control : KeepsControl s t
  keylen : t.keylen = s.keylen
  memory : KeepsMemory s t
  frame : t.frame = 0
  plen : t.plen = 0
  consumed : t.consumed = 0
  maskkey : t.maskkey = 0
  olen : t.olen = 0

/-- A row of frame byte 0 runs (R140 to R146): for every FIN and RSV, on every state whose frame with that
byte 0 is complete, it answers a next state that reports FIN, RSV, OPCODE and OPKNOWN, raises no error,
and has every other output and frame of a parse. -/
def OpcodeRowRuns (mk : Bool → BitVec 3 → Instr) (op : BitVec 4) (known : Bool) : Prop :=
  ∀ (fin : Bool) (rsv : BitVec 3) (s : State) (frame : Nat → Byte),
    frame = withFrameByte (inputFrame s) 0 (BitVec.ofBool fin ++ rsv ++ op) →
    s.ilen.toNat ≤ s.params.ibufSize →
    headerLen frame + declaredLen frame ≤ s.ilen.toNat →
    ∃ t, exec (mk fin rsv) s = .next t ∧
      frameFin t.frame = fin ∧ frameRsv t.frame = rsv ∧ frameOpcode t.frame = op ∧
      frameOpKnown t.frame = known ∧ Decoded frame t ∧ DecodeFrameRule (declaredLen frame) s t

/-! ### SHA-1 (R200 to R204), as a relation over the values the rules name -/

/-- One round: `T`, and the shift of `a` to `e` (R203). -/
structure ShaStep (t : Nat) (w : Word) (v v' : Chain) : Prop where
  a : v'.a = v.a.rotateLeft 5 + roundF t v.b v.c v.d + v.e + roundK t + w
  b : v'.b = v.a
  c : v'.c = v.b.rotateLeft 30
  d : v'.d = v.c
  e : v'.e = v.d

/-- One block with schedule `w`: the 80 rounds from the chaining value `h`, and the addition modulo 2^32
that gives the next one, `h'` (R203). -/
def ShaBlock (w : List Word) (h h' : Chain) : Prop :=
  ∃ v : Nat → Chain, v 0 = h ∧ (∀ t, t < 80 → ShaStep t (w.getD t 0) (v t) (v (t + 1))) ∧
    h'.a = h.a + (v 80).a ∧ h'.b = h.b + (v 80).b ∧ h'.c = h.c + (v 80).c ∧
    h'.d = h.d + (v 80).d ∧ h'.e = h.e + (v 80).e

/-- `d` is the SHA-1 digest of `m`: from R204's initial value, over every 64-byte block of the padded
message in order, to the 20 big-endian bytes of the last chaining value. -/
def ShaDigest (m d : List Byte) : Prop :=
  ∃ h : Nat → Chain, h 0 = ⟨0x67452301, 0xEFCDAB89, 0x98BADCFE, 0x10325476, 0xC3D2E1F0⟩ ∧
    (∀ j, 64 * (j + 1) ≤ (padMessage m).length →
      ShaBlock (schedule (((padMessage m).drop (64 * j)).take 64)) (h j) (h (j + 1))) ∧
    d.length = 20 ∧
    ∀ (n j : Nat), 64 * n = (padMessage m).length → j < 4 →
      d[j]? = some ((h n).a.extractLsb' (24 - 8 * j) 8) ∧
      d[4 + j]? = some ((h n).b.extractLsb' (24 - 8 * j) 8) ∧
      d[8 + j]? = some ((h n).c.extractLsb' (24 - 8 * j) 8) ∧
      d[12 + j]? = some ((h n).d.extractLsb' (24 - 8 * j) 8) ∧
      d[16 + j]? = some ((h n).e.extractLsb' (24 - 8 * j) 8)

/-! ### The handshake checks (R175, R181 to R185) -/

/-- Every length register of the table fits its field (R181). -/
def TableFits (s : State) : Prop :=
  s.hdrCount.toNat ≤ s.params.hdrN ∧
  ∀ e, e < s.hdrCount.toNat →
    (hdrLens s e).nameLen.toNat ≤ s.params.hnameMax ∧
    (hdrLens s e).valueLen.toNat ≤ s.params.hvalMax

/-- `e` is the lowest entry below HDR_COUNT whose name folds to `t` (R175). -/
def FirstNamed (s : State) (t : List Byte) (e : Nat) : Prop :=
  e < s.hdrCount.toNat ∧ fold (headerName s e) = t ∧
  ∀ e', e' < e → fold (headerName s e') ≠ t

/-- No entry below HDR_COUNT has a name that folds to `t` (R175). -/
def NoneNamed (s : State) (t : List Byte) : Prop :=
  ∀ e, e < s.hdrCount.toNat → fold (headerName s e) ≠ t

/-- Check 1 passes (R182). -/
def UpgradePasses (s : State) : Prop :=
  ∃ e, FirstNamed s strUpgrade e ∧ fold (headerValue s e) = strWebsocket

/-- Check 2 passes (R183): "upgrade" stands somewhere in the folded value. -/
def ConnectionPasses (s : State) : Prop :=
  ∃ e, FirstNamed s strConnection e ∧ ∃ u v, fold (headerValue s e) = u ++ strUpgrade ++ v

/-- Check 3 passes (R184). -/
def VersionPasses (s : State) : Prop :=
  ∃ e, FirstNamed s strVersion e ∧ headerValue s e = dec s.cfgVersion

/-- `k` is `v` without its longest whitespace prefix and suffix, and is not empty (R172, R185). -/
def TrimsTo (v k : List Byte) : Prop :=
  k ≠ [] ∧ ∃ pre suf, v = pre ++ k ++ suf ∧
    (∀ b ∈ pre, isSpace b = true) ∧ (∀ b ∈ suf, isSpace b = true) ∧
    (∀ b ∈ k.head?, isSpace b = false) ∧ (∀ b ∈ k.getLast?, isSpace b = false)

/-- What a failed VALIDATE leaves: KEYLEN = 0, all else as before but for the error record (R180, R236). -/
structure ValidateCleared (s t : State) : Prop where
  control : KeepsControl s t
  regs : KeepsFrameRegs s t
  olen : t.olen = s.olen
  memory : KeepsMemory s t
  keylen : t.keylen = 0

/-- VALIDATE raises the error with these fields and leaves what a failed VALIDATE leaves. -/
def ValidateFails (s : State) (code detail index : Byte) : Prop :=
  ∃ t, exec .validate s = .next t ∧ Failed t code detail index ∧ ValidateCleared s t

end Sys2Proof.Machine
end

