-- ==== Sys2Proof/Certificates/Slice0/Obligations.lean ====
section
/-! DEFINITION. The statements for the provers, from the numbered rules of spec/. -/

open Sys2Proof Sys2Proof.Machine

/-! ### Reset (70_reset_and_hazards.md) -/

/-- R260, with three choices of the model beside it: the host's later events stay pending (assumption log
7), `State.reset` has R7's reference parameters (log 2), and an entry number at or above HDR_N, which no
access reaches, reads lengths 0 (log 9). Whatever the state and wherever the reset event stands between
the host's accesses, one step takes it, leaves the host's later events, and every register reads its
reset value. `State.reset` reads the same (the reference parameters there are R7's). -/
def Obligations.ResetEventSetsEveryRegister : Prop :=
  (∀ (s : State) (rest : List HostEvent), s.host = .reset :: rest →
    ∃ t, step s = .next t ∧ t.host = rest ∧ t.params = s.params ∧
      readReg t .id = 0x57530001 ∧ readReg t .cmd = 0 ∧ readReg t .status = 0 ∧
      readReg t .errcode = 0 ∧ readReg t .cfgVersion = 13 ∧
      readReg t .paramIbufSize = BitVec.ofNat 32 s.params.ibufSize ∧
      readReg t .paramHdrN = BitVec.ofNat 32 s.params.hdrN ∧
      readReg t .paramHnameMax = BitVec.ofNat 32 s.params.hnameMax ∧
      readReg t .paramHvalMax = BitVec.ofNat 32 s.params.hvalMax ∧
      readReg t .ilen = 0 ∧ readReg t .olen = 0 ∧ readReg t .plen = 0 ∧ readReg t .consumed = 0 ∧
      readReg t .keylen = 0 ∧ readReg t .hdrCount = 0 ∧ readReg t .maskkey = 0 ∧
      readReg t .frame = 0 ∧
      (∀ e, readReg t (.nameLen e) = 0 ∧ readReg t (.valueLen e) = 0)) ∧
  (∀ r : Reg, readReg State.reset r =
    match r with
    | .id => 0x57530001
    | .cfgVersion => 13
    | .paramIbufSize => 4096
    | .paramHdrN => 16
    | .paramHnameMax => 64
    | .paramHvalMax => 256
    | _ => 0)

/-- R261, with assumption log 3: after the reset event every buffer byte reads as a free value of its own
for that event, whatever stood there before. That a later reset event draws anew is the model's reading
(log 3), not the rule's words. -/
def Obligations.ResetLeavesBufferBytesFree : Prop :=
  ∀ (s : State) (rest : List HostEvent), s.host = .reset :: rest →
    ∃ t, step s = .next t ∧
      ∀ (w : Win) (i : Nat), bufByte t w i = Config.resetDraw (s.resets + 1) (w.addr i)

/-- The invariant holds after reset, for every legal parameter value and every count of resets. -/
def Obligations.InvariantHoldsAfterReset : Prop :=
  State.reset.Inv ∧ ∀ (p : Params) (n : Nat), p.Legal → (State.resetWith p n).Inv

/-- Every step keeps the invariant: canonical memory inside the windows, reserved fields of STATUS,
ERRCODE and FRAME at 0, OK and ERR exclusive, ERRCODE in step with ERR, FRAME's HDRLEN, LENFORM and
OPKNOWN consistent, CONSUMED = HDRLEN + PLEN, and OLEN and CONSUMED inside the buffers. -/
def Obligations.EveryStepKeepsTheInvariant : Prop :=
  ∀ s t : State, s.Inv → step s = .next t → t.Inv

/-- No step stops: in every state, one step answers a next state (R237: every command terminates, R239:
no error traps, R64: an access error is no fault). -/
def Obligations.EveryStepAnswersANextState : Prop :=
  ∀ s : State, ∃ t, step s = .next t

/-- R255. With no host event pending the block is idle and keeps its state. The queue of events is the
model's own (assumption log 4). -/
def Obligations.IdleBlockKeepsItsState : Prop :=
  ∀ s : State, s.host = [] → step s = .next s

/-! ### Encodings (30_encoding.md) -/

/-- For every well-formed instruction, decoding its encoding in its format gives it back, with every
operand at every value the encoding admits. -/
def Obligations.DecodeOfEncodeIsTheInstruction : Prop :=
  ∀ i : Instr, wellFormed i = true → decode (spaceOf i) (encode i) = .ok i

/-- Whatever word decodes, the instruction is well-formed, belongs to the format, and encodes to that very
word: no two words of a format decode to one instruction. -/
def Obligations.EncodeOfDecodeIsTheWord : Prop :=
  ∀ (sp : Space) (w : Word) (i : Instr), decode sp w = .ok i →
    wellFormed i = true ∧ spaceOf i = sp ∧ encode i = w

/-- R91. A command word is legal exactly when `w[31:8] = 0` and `w[7:0]` is one of the six codes, and each
code decodes to its command. -/
def Obligations.LegalCommandWords : Prop :=
  (∀ w : Word, (∃ i, decodeCommand w = .ok i) ↔
    (w.extractLsb' 8 24 = 0 ∧ 1 ≤ (w.extractLsb' 0 8).toNat ∧ (w.extractLsb' 0 8).toNat ≤ 6)) ∧
  decodeCommand 0x00000001 = .ok .decode ∧ decodeCommand 0x00000002 = .ok .unmask ∧
  decodeCommand 0x00000003 = .ok .encode ∧ decodeCommand 0x00000004 = .ok .validate ∧
  decodeCommand 0x00000005 = .ok .accept ∧ decodeCommand 0x00000006 = .ok .sha1

/-- 30_encoding.md (R99, R96): every value of frame byte 0, and of frame byte 1, matches exactly one row
of the opcode table, and no command word matches two. -/
def Obligations.EveryFrameByteMatchesOneRow : Prop :=
  (∀ b : Byte, (byte0Rows.filter (fun r => r.hits (b.setWidth 32))).length = 1 ∧
    (byte1Rows.filter (fun r => r.hits (b.setWidth 32))).length = 1) ∧
  (∀ w : Word, (commandRows.filter (fun r => r.hits w)).length ≤ 1)

/-- Words written out from the spec's encodings decode to what they stand for (R91, R94, R95, R96). -/
def Obligations.WrittenOutWordsDecode : Prop :=
  decodeCommand 0x00000004 = .ok .validate ∧
  decodeByte0 0b10000001 = .ok (.frameOpText true 0) ∧
  decodeByte0 0b01001010 = .ok (.frameOpPong false 4) ∧
  decodeByte0 0b11111111 = .ok (.frameOpUnnamedF true 7) ∧
  decodeByte1 0b11111101 = .ok (.frameLen7 true 125) ∧
  decodeByte1 0b01111110 = .ok (.frameLen16 false) ∧
  decodeByte1 0b11111111 = .ok (.frameLen32 true)

/-! ### One step of the machine -/

/-- A step runs the decoded command: when the host's next event writes a word `w` to CMD (address 0x004)
that decodes to `i`, the step is `exec i` on the state with CMD = `w`, the event taken and nothing
returned to the host. -/
def Obligations.StepRunsTheDecodedCommand : Prop :=
  ∀ (s : State) (w : Word) (i : Instr) (rest : List HostEvent),
    s.host = .access (.wr32 0x004 w) :: rest → decodeCommand w = .ok i →
    step s = exec i { s with host := rest, cmd := w, reply := none }

/-- When the host's next event issues DECODE, the step runs the instruction that byte 0 of the frame in IBUF
decodes to, and equally the one that byte 1 decodes to. That a frame-byte row's meaning is DECODE on a
frame with that byte is the model's choice (assumption log 1). -/
def Obligations.StepRunsTheDecodedFrameBytes : Prop :=
  ∀ (s : State) (i : Instr) (rest : List HostEvent),
    s.host = .access (.wr32 0x004 0x00000001) :: rest →
    (decodeByte0 (bufByte s .ibuf 0) = .ok i ∨ decodeByte1 (bufByte s .ibuf 1) = .ok i) →
    step s = exec i { s with host := rest, cmd := 0x00000001, reply := none }

/-- R92. Issuing an illegal word raises IllegalCommand with DETAIL = `w[7:0]` and INDEX = 1 if
`w[31:8] ≠ 0`, else 0; no unit runs and beyond CMD nothing but STATUS and ERRCODE changes. -/
def Obligations.IllegalWordRaisesIllegalCommand : Prop :=
  ∀ (s : State) (w : Word) (rest : List HostEvent),
    s.host = .access (.wr32 0x004 w) :: rest →
    (w.extractLsb' 8 24 ≠ 0 ∨ (w.extractLsb' 0 8).toNat = 0 ∨ 7 ≤ (w.extractLsb' 0 8).toNat) →
    ∃ t, step s = .next t ∧
      Failed t 7 (w.extractLsb' 0 8) (if w.extractLsb' 8 24 = 0 then 0 else 1) ∧
      t = { s with host := rest, cmd := w, reply := none, status := t.status, errcode := t.errcode } ∧
      t.status.extractLsb' 2 30 = s.status.extractLsb' 2 30

/-! ### Host accesses (20_memory.md) -/

/-- R61, R63: a 32-bit read at each register's address returns that register's value, the field of State
itself (CFG_VERSION zero-extended, ID the constant of R21, PARAM the parameters), and changes nothing
else. -/
def Obligations.RegisterReadsReturnTheRegister : Prop :=
  ∀ (s : State) (a : Addr) (rest : List HostEvent), s.params.Legal →
    s.host = .access (.rd32 a) :: rest →
    (∀ v : Word, (a.toNat, v) ∈ [(0x000, 0x57530001), (0x004, s.cmd), (0x008, s.status),
        (0x00C, s.errcode), (0x010, s.cfgVersion.setWidth 32), (0x014, s.ilen), (0x018, s.olen),
        (0x01C, s.maskkey), (0x020, s.frame), (0x024, s.plen), (0x028, s.consumed),
        (0x02C, s.keylen), (0x030, s.hdrCount), (0x034, BitVec.ofNat 32 s.params.ibufSize),
        (0x038, BitVec.ofNat 32 s.params.hdrN), (0x03C, BitVec.ofNat 32 s.params.hnameMax),
        (0x040, BitVec.ofNat 32 s.params.hvalMax)] →
      step s = .next { s with host := rest, reply := some (.word v) }) ∧
    (∀ (e : Nat) (x : HdrLens), e < s.params.hdrN → s.hdr[e]? = some x →
      (a.toNat = 0x10000 + 0x400 * e →
        step s = .next { s with host := rest, reply := some (.word x.nameLen) }) ∧
      (a.toNat = 0x10000 + 0x400 * e + 4 →
        step s = .next { s with host := rest, reply := some (.word x.valueLen) }))

/-- R22, R25, R26, R31 to R33, R63: a 32-bit write to an RW register other than CMD and STATUS stores the
value, of CFG_VERSION its low 16 bits, and changes nothing else. -/
def Obligations.RegisterWritesStoreTheValue : Prop :=
  ∀ (s : State) (a : Addr) (v : Word) (rest : List HostEvent),
    s.host = .access (.wr32 a v) :: rest →
    (a = 0x010 → step s = .next
      { s with host := rest, reply := none, cfgVersion := v.extractLsb' 0 16 }) ∧
    (a = 0x014 → step s = .next { s with host := rest, reply := none, ilen := v }) ∧
    (a = 0x01C → step s = .next { s with host := rest, reply := none, maskkey := v }) ∧
    (a = 0x02C → step s = .next { s with host := rest, reply := none, keylen := v }) ∧
    (a = 0x030 → step s = .next { s with host := rest, reply := none, hdrCount := v })

/-- R41, R63: a 32-bit write to NAME_LEN[e] or VALUE_LEN[e] stores any value in that register, leaves
the entry's other one and every other entry's registers as they are, and changes nothing else. -/
def Obligations.EntryLengthWritesStoreTheValue : Prop :=
  ∀ (s : State) (a : Addr) (v : Word) (e : Nat) (x : HdrLens) (rest : List HostEvent),
    s.params.Legal → e < s.params.hdrN → s.hdr[e]? = some x →
    s.host = .access (.wr32 a v) :: rest →
    (a.toNat = 0x10000 + 0x400 * e → ∃ t, step s = .next t ∧
      t = { s with host := rest, reply := none, hdr := t.hdr } ∧ t.hdr.length = s.hdr.length ∧
      t.hdr[e]? = some ⟨v, x.valueLen⟩ ∧ ∀ e', e' ≠ e → t.hdr[e']? = s.hdr[e']?) ∧
    (a.toNat = 0x10000 + 0x400 * e + 4 → ∃ t, step s = .next t ∧
      t = { s with host := rest, reply := none, hdr := t.hdr } ∧ t.hdr.length = s.hdr.length ∧
      t.hdr[e]? = some ⟨x.nameLen, v⟩ ∧ ∀ e', e' ≠ e → t.hdr[e']? = s.hdr[e']?)

/-- R62, R63: byte `i` of a window stands at `base + i`; an 8-bit read returns it and changes nothing
else; an 8-bit write to an RW window makes it read as the byte written, and every byte of memory at
another address, and all other state, as before. -/
def Obligations.WindowAccessesReadAndWriteTheByte : Prop :=
  ∀ (s : State) (w : Win) (i : Nat) (a : Addr) (rest : List HostEvent),
    s.params.Legal → w.InTable s.params → i < w.size s.params → a.toNat = w.base + i →
    (s.host = .access (.rd8 a) :: rest →
      step s = .next { s with host := rest, reply := some (.byte (bufByte s w i)) }) ∧
    (∀ b : Byte, s.host = .access (.wr8 a b) :: rest →
      (w = .keybuf ∨ (∃ e, w = .hname e) ∨ (∃ e, w = .hval e) ∨ w = .ibuf) →
      ∃ t, step s = .next t ∧ t = { s with host := rest, reply := none, mem := t.mem } ∧
        bufByte t w i = b ∧ ∀ a', a' ≠ w.base + i → memByte t a' = memByte s a')

/-- R61, R106: every register name of a host script, and every window byte, reaches its target: for legal
parameters the 22-bit address it is written with locates exactly that register or byte. -/
def Obligations.ScriptNamesReachTheirTargets : Prop :=
  ∀ p : Params, p.Legal →
    (∀ r : Reg, (∀ e, r = .nameLen e ∨ r = .valueLen e → e < p.hdrN) →
      locate p (BitVec.ofNat 22 r.addr).toNat = .reg r) ∧
    (∀ (w : Win) (i : Nat), w.InTable p → i < w.size p →
      locate p (BitVec.ofNat 22 (w.addr i)).toNat = .byte w i)

/-- R64. An access that R63's list does not admit sets STATUS.ACCERR and changes nothing else; a read
returns 0, a write stores nothing and issues no command. ACCERR stays set through every step but a reset
event and a host write that clears it. -/
def Obligations.AccessErrorsOnlySetAccerr : Prop :=
  (∀ (s : State) (x : HostAccess) (rest : List HostEvent), s.params.Legal →
    s.host = .access x :: rest → ¬ Admitted s.params x →
    ∃ t, step s = .next t ∧
      t = { s with host := rest, reply := errorReply x, status := t.status } ∧
      statusAccErrBit t.status = true ∧
      ∀ n, n ≠ 2 → t.status.getLsbD n = s.status.getLsbD n) ∧
  (∀ (s t : State), statusAccErrBit s.status = true → s.host.head? ≠ some .reset →
    (∀ v : Word, v.getLsbD 2 = true → s.host.head? ≠ some (.access (.wr32 0x008 v))) →
    step s = .next t → statusAccErrBit t.status = true)

/-- R63, R64, R234: an admitted access other than a STATUS write leaves STATUS.ACCERR as it is, the
command that an admitted CMD write issues included. -/
def Obligations.AdmittedAccessesLeaveAccerr : Prop :=
  ∀ (s t : State) (x : HostAccess) (rest : List HostEvent), s.params.Legal →
    s.host = .access x :: rest → Admitted s.params x → (∀ v, x ≠ .wr32 0x008 v) →
    step s = .next t → statusAccErrBit t.status = statusAccErrBit s.status

/-- R23: a host write of `w` to STATUS clears ACCERR when `w[2] = 1`; other bits of `w` are ignored, OK
and ERR stay, and the write never sets ACCERR. -/
def Obligations.StatusWriteClearsAccerr : Prop :=
  ∀ (s : State) (w : Word) (rest : List HostEvent), s.host = .access (.wr32 0x008 w) :: rest →
    ∃ t, step s = .next t ∧ t = { s with host := rest, reply := none, status := t.status } ∧
      statusAccErrBit t.status = (statusAccErrBit s.status && !w.getLsbD 2) ∧
      ∀ n, n ≠ 2 → t.status.getLsbD n = s.status.getLsbD n

/-- R34. The PARAM registers hold the parameter values at all times: no step, a command's and the reset
event's included, changes them, and each reads its parameter exactly. -/
def Obligations.ParametersNeverChange : Prop :=
  (∀ s t : State, step s = .next t → t.params = s.params) ∧
  (∀ s : State, s.params.Legal →
    (readReg s .paramIbufSize).toNat = s.params.ibufSize ∧
    (readReg s .paramHdrN).toNat = s.params.hdrN ∧
    (readReg s .paramHnameMax).toNat = s.params.hnameMax ∧
    (readReg s .paramHvalMax).toNat = s.params.hvalMax)

/-! ### Whole-machine rules about the instructions -/

/-- R78, R47. No command writes IBUF, any header-table field, CFG_VERSION, ILEN or HDR_COUNT, whatever its
outcome. R78 and R47 speak of the six commands: that a frame-byte row writes none of them either is the
model's choice (assumption log 1). -/
def Obligations.NoCommandWritesItsInputs : Prop :=
  ∀ (i : Instr) (s t : State), s.params.Legal → exec i s = .next t →
    (∀ j, j < s.params.ibufSize → bufByte t .ibuf j = bufByte s .ibuf j) ∧
    (∀ e j, e < s.params.hdrN → j < s.params.hnameMax →
      bufByte t (.hname e) j = bufByte s (.hname e) j) ∧
    (∀ e j, e < s.params.hdrN → j < s.params.hvalMax →
      bufByte t (.hval e) j = bufByte s (.hval e) j) ∧
    t.hdr = s.hdr ∧ t.cfgVersion = s.cfgVersion ∧ t.ilen = s.ilen ∧ t.hdrCount = s.hdrCount

/-- R235, R47: every instruction answers a next state that records success or one error of R230, and that
keeps what R47 gives it no write to: the control registers, every other bit of STATUS, the result registers
of other commands, every byte outside OBUF[0 .. OLEN), KEYBUF[0 .. KEYLEN), DIGEST or TOKEN where the
instruction writes them, and on an error every byte. That a frame-byte row records an outcome, with
DECODE's write set, is the model's choice (assumption log 1). -/
def Obligations.EveryCommandRecordsItsOutcome : Prop :=
  ∀ (i : Instr) (s : State), ∃ t, exec i s = .next t ∧ KeepsControl s t ∧
    (Succeeded t ∨ ∃ code detail index : Byte, 1 ≤ code.toNat ∧ code.toNat ≤ 8 ∧
      Failed t code detail index ∧ KeepsMemory s t) ∧
    (¬ RunsParser i → KeepsFrameRegs s t) ∧
    (i ≠ .validate → t.keylen = s.keylen) ∧
    (i = .validate ∨ i = .accept ∨ i = .sha1 → t.olen = s.olen) ∧
    KeepsOtherBytes i s t

/-- R236, R238. After an error the state is exactly the state before it, but for STATUS, ERRCODE and the
failure outputs of the instruction (`failureOutputs`, R47's last column); no byte of memory changes.
Issued by a host write of `w`, CMD holds `w` as well, and an illegal word has no failure outputs. R47 has no
row for the frame-byte rows: that they have DECODE's failure outputs is the model's choice (assumption log
1). -/
def Obligations.ErrorsArePrecise : Prop :=
  (∀ (i : Instr) (s t : State), exec i s = .next t → statusErrBit t.status = true →
    t = { failureOutputs i s with status := t.status, errcode := t.errcode }) ∧
  (∀ (s t : State) (w : Word) (rest : List HostEvent),
    s.host = .access (.wr32 0x004 w) :: rest → step s = .next t → statusErrBit t.status = true →
    t = { (match decodeCommand w with
           | .ok i => failureOutputs i s
           | .error _ => s) with
          host := rest, cmd := w, reply := none, status := t.status, errcode := t.errcode })

/-- R46: no command reads a flag or an earlier command's record. Changing CMD, STATUS, ERRCODE, FRAME, PLEN,
CONSUMED and OLEN beforehand changes no error, no buffer byte and no register a command writes. R46 and
R47 speak of the six commands: that a frame-byte row records an outcome and has DECODE's outputs (FRAME,
PLEN, CONSUMED, OLEN) is the model's choice (assumption log 1). -/
def Obligations.CommandsReadNoFlagsOrResults : Prop :=
  ∀ (i : Instr) (s t : State) (c st er fr pl co ol : Word), exec i s = .next t →
    ∃ u, exec i { s with cmd := c, status := st, errcode := er, frame := fr, plen := pl,
                         consumed := co, olen := ol } = .next u ∧
      statusOkBit u.status = statusOkBit t.status ∧ statusErrBit u.status = statusErrBit t.status ∧
      u.errcode = t.errcode ∧ u.mem = t.mem ∧ u.keylen = t.keylen ∧ u.maskkey = t.maskkey ∧
      (RunsParser i → u.frame = t.frame ∧ u.plen = t.plen ∧ u.consumed = t.consumed) ∧
      (RunsParser i ∨ i = .unmask ∨ i = .encode → u.olen = t.olen)

/-- R70: every command is idempotent: issued again on the state it left, it leaves that very
state. R70 speaks of the six commands: that a frame-byte row has a meaning, and so is idempotent, is the
model's choice (assumption log 1). -/
def Obligations.EveryCommandIsIdempotent : Prop :=
  ∀ (i : Instr) (s t : State), s.Inv → exec i s = .next t → exec i t = .next t

/-! ### The frame parser (40_frame_parser.md) -/

/-- R121, R98, R100: DECODE, and every row of frame byte 0 and byte 1 (sixteen opcode values, three length
forms), on a frame whose header and declared payload lie within ILEN, answers a next state with the
decoded header in FRAME, PLEN, CONSUMED, MASKKEY and OLEN, the unmasked payload in OBUF, and nothing
else changed. That a frame-byte row's meaning is DECODE on a frame with that byte is the model's choice
(assumption log 1). -/
def Obligations.ParserDecodesACompleteFrame : Prop :=
  ∀ (i : Instr) (s : State), RunsParser i → s.ilen.toNat ≤ s.params.ibufSize →
    headerLen (frameOf i s) + declaredLen (frameOf i s) ≤ s.ilen.toNat →
    ∃ t, exec i s = .next t ∧ Decoded (frameOf i s) t ∧
      DecodeFrameRule (declaredLen (frameOf i s)) s t

/-- R122. BufferUnderrun, by the first read step that would pass ILEN; the failure outputs are 0 and nothing
else changes. `x` is the extension bytes, `k` the key bytes. And IBUF bytes beyond ILEN never affect a
result: two states that agree on ILEN and on IBUF[0 .. ILEN) end alike. That a frame-byte row's meaning
is DECODE on a frame with that byte is the model's choice (assumption log 1). -/
def Obligations.ParserUnderrunsAtTheFirstShortStep : Prop :=
  (∀ (i : Instr) (s : State) (n x k len step : Nat), RunsParser i →
    n = s.ilen.toNat → n ≤ s.params.ibufSize →
    x = extBytes (frameOf i s) → k = keySize (frameOf i s) → len = declaredLen (frameOf i s) →
    ((step = 1 ∧ n < 1) ∨
     (step = 2 ∧ 1 ≤ n ∧ n < 2) ∨
     (step = 3 ∧ 2 ≤ n ∧ x ≠ 0 ∧ n < 2 + x) ∨
     (step = 4 ∧ 2 ≤ n ∧ 2 + x ≤ n ∧ k ≠ 0 ∧ n < 2 + x + 4) ∨
     (step = 5 ∧ 2 ≤ n ∧ 2 + x + k ≤ n ∧ n < 2 + x + k + len)) →
    ∃ t, exec i s = .next t ∧ Failed t 5 (BitVec.ofNat 8 step) 0 ∧ DecodeCleared s t) ∧
  (∀ (i : Instr) (s s' t : State), RunsParser i → s'.params = s.params → s'.ilen = s.ilen →
    (∀ j, j < s.ilen.toNat → inputFrame s' j = inputFrame s j) → exec i s = .next t →
    ∃ t', exec i s' = .next t' ∧ statusOkBit t'.status = statusOkBit t.status ∧
      t'.errcode = t.errcode ∧ t'.frame = t.frame ∧ t'.plen = t.plen ∧ t'.consumed = t.consumed ∧
      t'.maskkey = t.maskkey ∧ t'.olen = t.olen ∧
      ∀ j, j < t.olen.toNat → bufByte t' .obuf j = bufByte t .obuf j)

/-- R232, R121: with ILEN above IBUF_SIZE the parser raises LengthOutOfRange with DETAIL 1 before it reads
anything. That a frame-byte row's meaning is DECODE on a frame with that byte is the model's choice
(assumption log 1). -/
def Obligations.ParserRejectsIlenAboveTheBuffer : Prop :=
  ∀ (i : Instr) (s : State), RunsParser i → s.params.ibufSize < s.ilen.toNat →
    ∃ t, exec i s = .next t ∧ Failed t 8 1 0 ∧ DecodeCleared s t

/-- R126: only the bytes of the frame itself matter. Two states whose ILEN may differ but which agree on
IBUF[0 .. HDRLEN + PLEN), a frame that lies within both ILENs, decode alike without error: trailing bytes
affect no output. -/
def Obligations.DecodeReadsOnlyItsFrame : Prop :=
  ∀ (s s' t : State), s.ilen.toNat ≤ s.params.ibufSize → s'.params = s.params →
    headerLen (inputFrame s) + declaredLen (inputFrame s) ≤ s.ilen.toNat →
    headerLen (inputFrame s) + declaredLen (inputFrame s) ≤ s'.ilen.toNat →
    s'.ilen.toNat ≤ s'.params.ibufSize →
    (∀ j, j < headerLen (inputFrame s) + declaredLen (inputFrame s) →
      inputFrame s' j = inputFrame s j) →
    exec .decode s = .next t →
    ∃ t', exec .decode s' = .next t' ∧ t'.frame = t.frame ∧ t'.plen = t.plen ∧
      t'.consumed = t.consumed ∧ t'.maskkey = t.maskkey ∧ t'.olen = t.olen ∧
      Succeeded t' ∧ Succeeded t ∧
      ∀ j, j < t.olen.toNat → bufByte t' .obuf j = bufByte t .obuf j

/-- R140 to R145: the six named opcode values: `frameOpContinuation`, `frameOpText`, `frameOpBinary`,
`frameOpClose`, `frameOpPing`, `frameOpPong` each run, report their OPCODE with OPKNOWN = 1 for every
FIN and RSV, and raise no error. That a frame-byte row's meaning is DECODE on a frame with that byte is
the model's choice (assumption log 1). -/
def Obligations.NamedOpcodesAreReported : Prop :=
  OpcodeRowRuns .frameOpContinuation 0x0 true ∧ OpcodeRowRuns .frameOpText 0x1 true ∧
  OpcodeRowRuns .frameOpBinary 0x2 true ∧ OpcodeRowRuns .frameOpClose 0x8 true ∧
  OpcodeRowRuns .frameOpPing 0x9 true ∧ OpcodeRowRuns .frameOpPong 0xA true

/-- R146, R102: the ten values TWS does not name run and raise no error, reported raw with OPKNOWN = 0:
`frameOpUnnamed3` to `frameOpUnnamed7` and `frameOpUnnamedB` to `frameOpUnnamedF`. That a frame-byte
row's meaning is DECODE on a frame with that byte is the model's choice (assumption log 1). -/
def Obligations.UnnamedOpcodesAreReported : Prop :=
  OpcodeRowRuns .frameOpUnnamed3 0x3 false ∧ OpcodeRowRuns .frameOpUnnamed4 0x4 false ∧
  OpcodeRowRuns .frameOpUnnamed5 0x5 false ∧ OpcodeRowRuns .frameOpUnnamed6 0x6 false ∧
  OpcodeRowRuns .frameOpUnnamed7 0x7 false ∧ OpcodeRowRuns .frameOpUnnamedB 0xB false ∧
  OpcodeRowRuns .frameOpUnnamedC 0xC false ∧ OpcodeRowRuns .frameOpUnnamedD 0xD false ∧
  OpcodeRowRuns .frameOpUnnamedE 0xE false ∧ OpcodeRowRuns .frameOpUnnamedF 0xF false

/-- R96: the length forms `frameLen7` (0 to 125), `frameLen16` and `frameLen32` run on a frame whose bytes
lie within ILEN, and PLEN is the table's value: the indicator, `e0·2^8 + e1`, or `e0·2^24 + e1·2^16 +
e2·2^8 + e3`, with LENFORM 0, 1, 2. That a frame-byte row's meaning is DECODE on a frame with that byte
is the model's choice (assumption log 1). -/
def Obligations.LengthFormsGiveTheTableLength : Prop :=
  ∀ (s : State) (mask : Bool) (k : Nat), s.ilen.toNat ≤ s.params.ibufSize →
    k = (if mask then 4 else 0) →
    (∀ ind : BitVec 7, ind.toNat ≤ 125 → 2 + k + ind.toNat ≤ s.ilen.toNat →
      ∃ t, exec (.frameLen7 mask ind) s = .next t ∧ Succeeded t ∧ t.plen.toNat = ind.toNat ∧
        frameLenForm t.frame = 0 ∧ frameMask t.frame = mask) ∧
    (∀ n, n = (inputFrame s 2).toNat * 2 ^ 8 + (inputFrame s 3).toNat →
      4 + k + n ≤ s.ilen.toNat →
      ∃ t, exec (.frameLen16 mask) s = .next t ∧ Succeeded t ∧ t.plen.toNat = n ∧
        frameLenForm t.frame = 1 ∧ frameMask t.frame = mask) ∧
    (∀ n, n = (inputFrame s 2).toNat * 2 ^ 24 + (inputFrame s 3).toNat * 2 ^ 16 +
        (inputFrame s 4).toNat * 2 ^ 8 + (inputFrame s 5).toNat →
      6 + k + n ≤ s.ilen.toNat →
      ∃ t, exec (.frameLen32 mask) s = .next t ∧ Succeeded t ∧ t.plen.toNat = n ∧
        frameLenForm t.frame = 2 ∧ frameMask t.frame = mask)

/-- R120. The unmask datapath keeps the length, XORs byte `i` with `K[i mod 4]`, depends on `i` alone, and
with the zero key is the identity. -/
def Obligations.UnmaskXorsByLane : Prop :=
  (∀ (p k : List Byte), k.length = 4 →
    (unmaskBytes p k).length = p.length ∧
    ∀ (i : Nat) (hi : i < p.length), (unmaskBytes p k)[i]? = some (p[i] ^^^ k.getD (i % 4) 0)) ∧
  (∀ p : List Byte, unmaskBytes p [0, 0, 0, 0] = p)

/-- R123: the word 0x00000002 is UNMASK; with ILEN within IBUF_SIZE it writes OBUF[i] = IBUF[i] ^ K[i mod 4]
for i < ILEN, OLEN = ILEN, and nothing else; with ILEN above it raises LengthOutOfRange (detail 1), OLEN
← 0, OBUF unchanged. -/
def Obligations.UnmaskWritesTheXorOfTheInput : Prop :=
  decodeCommand 0x00000002 = .ok .unmask ∧ ∀ s : State,
    (s.ilen.toNat ≤ s.params.ibufSize → ∃ t, exec .unmask s = .next t ∧ Succeeded t ∧
      KeepsControl s t ∧ KeepsFrameRegs s t ∧ t.keylen = s.keylen ∧ t.olen = s.ilen ∧
      (∀ i, i < s.ilen.toNat → bufByte t .obuf i = bufByte s .ibuf i ^^^
        s.maskkey.extractLsb' (24 - 8 * (i % 4)) 8) ∧
      KeepsMemoryOutside (Win.addr .obuf 0) s.ilen.toNat s t) ∧
    (s.params.ibufSize < s.ilen.toNat → ∃ t, exec .unmask s = .next t ∧ Failed t 8 1 0 ∧
      KeepsControl s t ∧ KeepsFrameRegs s t ∧ t.keylen = s.keylen ∧ t.olen = 0 ∧ KeepsMemory s t)

/-- R124. Unmasking twice with one key gives the bytes back; and on the machine, UNMASK, the host's copy of
OBUF[0 .. OLEN) to IBUF with ILEN = OLEN, and UNMASK again with the same MASKKEY restore the input. -/
def Obligations.UnmaskIsSelfInverse : Prop :=
  (∀ (b k : List Byte), k.length = 4 → unmaskBytes (unmaskBytes b k) k = b) ∧
  (∀ s t u v : State, s.params.Legal → s.ilen.toNat ≤ s.params.ibufSize →
    exec .unmask s = .next t →
    u = { writeBuf .ibuf (bufBytes t .obuf t.olen.toNat) t with ilen := t.olen } →
    exec .unmask u = .next v →
    v.olen = s.ilen ∧ ∀ i, i < s.ilen.toNat → bufByte v .obuf i = bufByte s .ibuf i)

/-! ### The frame encoder (41_frame_encoder.md) -/

/-- R160: the word 0x00000003 is ENCODE; with L = ILEN ≤ 125 it writes `81`, L and the payload to OBUF[0 ..
L+2), OLEN = L + 2, and nothing else; with ILEN ≥ 126, beyond IBUF_SIZE too, it raises PayloadTooLarge,
OLEN ← 0, OBUF unchanged. -/
def Obligations.EncodePacksATextFrame : Prop :=
  decodeCommand 0x00000003 = .ok .encode ∧ ∀ s : State, s.params.Legal →
    (s.ilen.toNat ≤ 125 → ∃ t, exec .encode s = .next t ∧ Succeeded t ∧
      KeepsControl s t ∧ KeepsFrameRegs s t ∧ t.keylen = s.keylen ∧
      t.olen.toNat = s.ilen.toNat + 2 ∧ bufByte t .obuf 0 = 0x81 ∧
      bufByte t .obuf 1 = s.ilen.extractLsb' 0 8 ∧
      (∀ i, i < s.ilen.toNat → bufByte t .obuf (2 + i) = bufByte s .ibuf i) ∧
      KeepsMemoryOutside (Win.addr .obuf 0) (s.ilen.toNat + 2) s t) ∧
    (126 ≤ s.ilen.toNat → ∃ t, exec .encode s = .next t ∧ Failed t 6 0 0 ∧
      KeepsControl s t ∧ KeepsFrameRegs s t ∧ t.keylen = s.keylen ∧ t.olen = 0 ∧ KeepsMemory s t)

/-- R163. For every payload of at most 125 bytes: ENCODE, the host's copy of OBUF[0 .. OLEN) to IBUF with
ILEN = OLEN, and DECODE give the payload back in OBUF, with FIN = 1, OPCODE = 1, RSV = 0, MASK = 0,
PLEN = |P| and CONSUMED = |P| + 2. -/
def Obligations.EncodeThenDecodeGivesThePayloadBack : Prop :=
  ∀ s t u : State, s.params.Legal → s.ilen.toNat ≤ 125 → exec .encode s = .next t →
    u = { writeBuf .ibuf (bufBytes t .obuf t.olen.toNat) t with ilen := t.olen } →
    ∃ v, exec .decode u = .next v ∧ Succeeded v ∧
      (∀ i, i < s.ilen.toNat → bufByte v .obuf i = bufByte s .ibuf i) ∧
      frameFin v.frame = true ∧ frameOpcode v.frame = 0x1 ∧ frameRsv v.frame = 0 ∧
      frameMask v.frame = false ∧ v.plen = s.ilen ∧ v.olen = s.ilen ∧
      v.consumed.toNat = s.ilen.toNat + 2

/-! ### The header validator (42_header_validator.md) -/

/-- R171. Folding adds 0x20 to the bytes 0x41 to 0x5A and leaves every other byte, position by position. -/
def Obligations.FoldingLowersAsciiCapitalsOnly : Prop :=
  ∀ bs : List Byte, (fold bs).length = bs.length ∧
    ∀ (i : Nat) (hi : i < bs.length), (fold bs)[i]? = some
      (if 0x41 ≤ bs[i].toNat ∧ bs[i].toNat ≤ 0x5A then BitVec.ofNat 8 (bs[i].toNat + 0x20) else bs[i])

/-- R172. `trim` removes a prefix and a suffix made only of the seven whitespace bytes, and what is left is
empty or begins and ends with a byte that is none of them. The spec marks this rule as general
knowledge, not in its source (assumption log 14). -/
def Obligations.TrimRemovesTheLongestEnds : Prop :=
  (∀ b : Byte, isSpace b = true ↔
    b.toNat ∈ [0x09, 0x0A, 0x0B, 0x0C, 0x0D, 0x20, 0xA0]) ∧
  ∀ s : List Byte,
    (trim s = [] ∧ ∀ b ∈ s, isSpace b = true) ∨ TrimsTo s (trim s)

/-- R173. `contains(s, t)` exactly when `t` stands in `s` at some index `i ≤ |s| − |t|`. -/
def Obligations.ContainsIsSubstring : Prop :=
  ∀ s t : List Byte, contains s t = true ↔
    ∃ i, i + t.length ≤ s.length ∧ (s.drop i).take t.length = t

/-- R174. `dec(v)` is one to five ASCII digits whose decimal value is `v`, with no leading zero. -/
def Obligations.DecimalStringIsExact : Prop :=
  (∀ v : BitVec 16,
    (∀ b ∈ dec v, 0x30 ≤ b.toNat ∧ b.toNat ≤ 0x39) ∧
    (dec v).foldl (fun n b => 10 * n + (b.toNat - 0x30)) 0 = v.toNat ∧
    (2 ≤ (dec v).length → (dec v).head? ≠ some 0x30) ∧ 1 ≤ (dec v).length ∧ (dec v).length ≤ 5) ∧
  dec 0 = [0x30] ∧ dec 13 = [0x31, 0x33] ∧ dec 8 = [0x38] ∧
  dec 65535 = [0x36, 0x35, 0x35, 0x33, 0x35]

/-- R175. `Lookup(t)` is the lowest entry below HDR_COUNT whose whole name folds to `t`, or none. -/
def Obligations.LookupFindsTheLowestEntry : Prop :=
  ∀ (s : State) (t : List Byte),
    (∀ e, lookupHeader s t = some e ↔ FirstNamed s t e) ∧
    (lookupHeader s t = none ↔ NoneNamed s t)

/-- R180, R182 to R185: on a table whose lengths fit, when all four checks pass, VALIDATE writes the
trimmed key `k` to KEYBUF[0 .. |k|) and KEYLEN = |k|, and changes nothing else. The target strings of the
checks are the ASCII bytes of "upgrade", "websocket", "connection", "sec-websocket-version" and
"sec-websocket-key". -/
def Obligations.ValidateAcceptsAndWritesTheKey : Prop :=
  strUpgrade = [0x75, 0x70, 0x67, 0x72, 0x61, 0x64, 0x65] ∧
  strWebsocket = [0x77, 0x65, 0x62, 0x73, 0x6F, 0x63, 0x6B, 0x65, 0x74] ∧
  strConnection = [0x63, 0x6F, 0x6E, 0x6E, 0x65, 0x63, 0x74, 0x69, 0x6F, 0x6E] ∧
  strVersion = [0x73, 0x65, 0x63, 0x2D, 0x77, 0x65, 0x62, 0x73, 0x6F, 0x63, 0x6B, 0x65, 0x74, 0x2D,
    0x76, 0x65, 0x72, 0x73, 0x69, 0x6F, 0x6E] ∧
  strKey = [0x73, 0x65, 0x63, 0x2D, 0x77, 0x65, 0x62, 0x73, 0x6F, 0x63, 0x6B, 0x65, 0x74, 0x2D,
    0x6B, 0x65, 0x79] ∧
  ∀ (s : State) (e : Nat) (k : List Byte), s.params.Legal → TableFits s → UpgradePasses s →
    ConnectionPasses s → VersionPasses s → FirstNamed s strKey e → TrimsTo (headerValue s e) k →
    ∃ t, exec .validate s = .next t ∧ Succeeded t ∧ KeepsControl s t ∧ KeepsFrameRegs s t ∧
      t.olen = s.olen ∧ t.keylen.toNat = k.length ∧ bufBytes t .keybuf t.keylen.toNat = k ∧
      KeepsMemoryOutside (Win.addr .keybuf 0) k.length s t

/-- R180, R182 to R187: on a table whose lengths fit, the first check that fails, in the order upgrade,
connection, version, key, is the one raised, with DETAIL 0 and INDEX 0xFF for an absent header and
DETAIL 1 and INDEX the entry for an invalid value. The bytes of the target strings are stated by
ValidateAcceptsAndWritesTheKey. -/
def Obligations.ValidateRaisesTheFirstFailedCheck : Prop :=
  ∀ s : State, TableFits s →
    (NoneNamed s strUpgrade → ValidateFails s 1 0 0xFF) ∧
    (∀ e, FirstNamed s strUpgrade e → fold (headerValue s e) ≠ strWebsocket →
      ValidateFails s 1 1 (BitVec.ofNat 8 e)) ∧
    (UpgradePasses s → NoneNamed s strConnection → ValidateFails s 2 0 0xFF) ∧
    (∀ e, UpgradePasses s → FirstNamed s strConnection e →
      (¬ ∃ u v, fold (headerValue s e) = u ++ strUpgrade ++ v) →
      ValidateFails s 2 1 (BitVec.ofNat 8 e)) ∧
    (UpgradePasses s → ConnectionPasses s → NoneNamed s strVersion → ValidateFails s 3 0 0xFF) ∧
    (∀ e, UpgradePasses s → ConnectionPasses s → FirstNamed s strVersion e →
      headerValue s e ≠ dec s.cfgVersion → ValidateFails s 3 1 (BitVec.ofNat 8 e)) ∧
    (UpgradePasses s → ConnectionPasses s → VersionPasses s → NoneNamed s strKey →
      ValidateFails s 4 0 0xFF) ∧
    (∀ e, UpgradePasses s → ConnectionPasses s → VersionPasses s → FirstNamed s strKey e →
      (∀ b ∈ headerValue s e, isSpace b = true) → ValidateFails s 4 1 (BitVec.ofNat 8 e))

/-- R181. Before check 1: HDR_COUNT above HDR_N raises LengthOutOfRange (detail 3); then, at the first
entry below HDR_COUNT with a length out of range, NAME_LEN (detail 4) before VALUE_LEN (detail 5). -/
def Obligations.PreCheckRaisesTheFirstBadLength : Prop :=
  ∀ s : State,
    (s.params.hdrN < s.hdrCount.toNat → ValidateFails s 8 3 0) ∧
    (∀ e, s.hdrCount.toNat ≤ s.params.hdrN → e < s.hdrCount.toNat →
      (∀ e', e' < e → (hdrLens s e').nameLen.toNat ≤ s.params.hnameMax ∧
        (hdrLens s e').valueLen.toNat ≤ s.params.hvalMax) →
      (s.params.hnameMax < (hdrLens s e).nameLen.toNat →
        ValidateFails s 8 4 (BitVec.ofNat 8 e)) ∧
      ((hdrLens s e).nameLen.toNat ≤ s.params.hnameMax →
        s.params.hvalMax < (hdrLens s e).valueLen.toNat →
        ValidateFails s 8 5 (BitVec.ofNat 8 e)))

/-! ### SHA-1 and the accept token (43_sha1_accept.md) -/

/-- R201. The padded message is `M ++ [0x80] ++ [0x00]*z ++ BE64(8·|M|)` with the least `z` such that `(|M|
+ 1 + z) mod 64 = 56`, BE64 the 8-byte big-endian encoding, and its length is a multiple of 64. The spec
marks this rule as general knowledge, not in its source (assumption log 14). -/
def Obligations.PaddingFillsTheLastBlock : Prop :=
  ∀ m : List Byte, ∃ z, (m.length + 1 + z) % 64 = 56 ∧
    (∀ z', (m.length + 1 + z') % 64 = 56 → z ≤ z') ∧ (padMessage m).length % 64 = 0 ∧
    (8 * m.length < 2 ^ 64 → ∃ len8 : List Byte, len8.length = 8 ∧
      len8.foldl (fun n b => 256 * n + b.toNat) 0 = 8 * m.length ∧
      padMessage m = m ++ [0x80] ++ List.replicate z 0x00 ++ len8)

/-- R202. The schedule of a block has 80 words: the first 16 are its big-endian words, each later one is
`rotl32(W[t-3] ^ W[t-8] ^ W[t-14] ^ W[t-16], 1)`. The spec marks this rule as general
knowledge, not in its source (assumption log 14). -/
def Obligations.ScheduleFollowsTheRecurrence : Prop :=
  ∀ b : List Byte, b.length = 64 → (schedule b).length = 80 ∧
    (∀ t, t < 16 → (schedule b).getD t 0 =
      b.getD (4 * t) 0 ++ b.getD (4 * t + 1) 0 ++ b.getD (4 * t + 2) 0 ++ b.getD (4 * t + 3) 0) ∧
    (∀ t, 16 ≤ t → t < 80 → (schedule b).getD t 0 =
      ((schedule b).getD (t - 3) 0 ^^^ (schedule b).getD (t - 8) 0 ^^^
        (schedule b).getD (t - 14) 0 ^^^ (schedule b).getD (t - 16) 0).rotateLeft 1)

/-- R200, R201: the blocks are 64 bytes each and are the padded message, in order. The spec marks this rule
as general knowledge, not in its source (assumption log 14). -/
def Obligations.BlocksAreThePaddedMessage : Prop :=
  ∀ m : List Byte,
    (blocksOf ((padMessage m).length / 64) (padMessage m)).flatten = padMessage m ∧
    ∀ b ∈ blocksOf ((padMessage m).length / 64) (padMessage m), b.length = 64

/-- R203, bit by bit: the round function chooses between `c` and `d` by `b` in rounds 0 to 19, is the
majority in rounds 40 to 59, and the parity in the others; `rotl32` rotates left; the round constants.
The spec marks this rule as general knowledge, not in its source (assumption log 14). -/
def Obligations.RoundFunctionsBitByBit : Prop :=
  (∀ (t n : Nat) (b c d : Word), n < 32 → (roundF t b c d).getLsbD n =
    if t ≤ 19 then (if b.getLsbD n then c.getLsbD n else d.getLsbD n)
    else if 40 ≤ t ∧ t ≤ 59 then
      decide (2 ≤ (b.getLsbD n).toNat + (c.getLsbD n).toNat + (d.getLsbD n).toNat)
    else (b.getLsbD n ^^ c.getLsbD n ^^ d.getLsbD n)) ∧
  (∀ (x : Word) (r : Nat), 1 ≤ r → r ≤ 31 → rotl32 x r = x.rotateLeft r) ∧
  (∀ t, t ≤ 19 → roundK t = 0x5A827999) ∧ (∀ t, 20 ≤ t → t ≤ 39 → roundK t = 0x6ED9EBA1) ∧
  (∀ t, 40 ≤ t → t ≤ 59 → roundK t = 0x8F1BBCDC) ∧ (∀ t, 60 ≤ t → t ≤ 79 → roundK t = 0xCA62C1D6)

/-- R200, R203, R204, for every message: the digest is reached from the initial value by the 80 rounds of
each 64-byte block of the padded message in turn, each round the five-variable update, each block ending in
the addition modulo 2^32 to the chaining value, and is the 20 big-endian bytes of the last one
(`ShaDigest`). The padding, the schedule, and the round functions and constants it names are stated by
PaddingFillsTheLastBlock, ScheduleFollowsTheRecurrence and RoundFunctionsBitByBit. The spec marks these
rules as general knowledge, not in its source (assumption log 14). -/
def Obligations.Sha1FollowsTheRounds : Prop :=
  ∀ m : List Byte, ShaDigest m (sha1 m)

/-- R210: the word 0x00000006 is SHA1; with ILEN within IBUF_SIZE it writes the SHA-1 digest of IBUF[0 ..
ILEN) to DIGEST and nothing else (TOKEN too stays); above it raises LengthOutOfRange (detail 1) and
writes nothing. -/
def Obligations.Sha1WritesTheDigest : Prop :=
  decodeCommand 0x00000006 = .ok .sha1 ∧ ∀ s : State,
    (s.ilen.toNat ≤ s.params.ibufSize → ∃ t, exec .sha1 s = .next t ∧ Succeeded t ∧
      KeepsControl s t ∧ KeepsFrameRegs s t ∧ t.keylen = s.keylen ∧ t.olen = s.olen ∧
      bufBytes t .digest 20 = sha1 ((List.range s.ilen.toNat).map (bufByte s .ibuf)) ∧
      KeepsMemoryOutside (Win.addr .digest 0) 20 s t) ∧
    (s.params.ibufSize < s.ilen.toNat → ∃ t, exec .sha1 s = .next t ∧ Failed t 8 1 0 ∧
      KeepsControl s t ∧ KeepsFrameRegs s t ∧ t.keylen = s.keylen ∧ t.olen = s.olen ∧
      KeepsMemory s t)

/-- R211, R208: the word 0x00000005 is ACCEPT; with KEYLEN within HVAL_MAX it writes the digest of KEYBUF[0
.. KEYLEN) ++ GUID to DIGEST and its Base64 text to TOKEN and nothing else; above it raises
LengthOutOfRange (detail 2) and writes nothing. -/
def Obligations.AcceptWritesDigestAndToken : Prop :=
  decodeCommand 0x00000005 = .ok .accept ∧ ∀ s : State,
    (s.keylen.toNat ≤ s.params.hvalMax → ∃ t d, exec .accept s = .next t ∧ Succeeded t ∧
      d = sha1 ((List.range s.keylen.toNat).map (bufByte s .keybuf) ++ guid) ∧
      KeepsControl s t ∧ KeepsFrameRegs s t ∧ t.keylen = s.keylen ∧ t.olen = s.olen ∧
      bufBytes t .digest 20 = d ∧ bufBytes t .token 28 = base64 d ∧
      ∀ a, ¬ (Win.addr .digest 0 ≤ a ∧ a < Win.addr .digest 0 + 20) →
        ¬ (Win.addr .token 0 ≤ a ∧ a < Win.addr .token 0 + 28) → memByte t a = memByte s a) ∧
    (s.params.hvalMax < s.keylen.toNat → ∃ t, exec .accept s = .next t ∧ Failed t 8 2 0 ∧
      KeepsControl s t ∧ KeepsFrameRegs s t ∧ t.keylen = s.keylen ∧ t.olen = s.olen ∧
      KeepsMemory s t)

/-- R205, R206: the alphabet, value by value; each full 3-byte group `g` gives characters `4g` to `4g+3`
from its 24-bit value, most significant six bits first; a last group of two bytes gives three and `=`, of
one byte two and `==`; and there are no other characters. The spec marks these rules as general knowledge,
not in its source (assumption log 14). -/
def Obligations.Base64TextByGroups : Prop :=
  (∀ v : BitVec 6,
    (v.toNat ≤ 25 → (base64Char v).toNat = 0x41 + v.toNat) ∧
    (26 ≤ v.toNat → v.toNat ≤ 51 → (base64Char v).toNat = 0x61 + (v.toNat - 26)) ∧
    (52 ≤ v.toNat → v.toNat ≤ 61 → (base64Char v).toNat = 0x30 + (v.toNat - 52)) ∧
    (v.toNat = 62 → base64Char v = 0x2B) ∧ (v.toNat = 63 → base64Char v = 0x2F)) ∧
  ∀ (d : List Byte) (g n : Nat),
    (base64 d).length = 4 * ((d.length + 2) / 3) ∧
    (3 * g + 3 ≤ d.length →
      n = (d.getD (3 * g) 0).toNat * 2 ^ 16 + (d.getD (3 * g + 1) 0).toNat * 2 ^ 8 +
        (d.getD (3 * g + 2) 0).toNat →
      ∀ k, k < 4 →
        (base64 d)[4 * g + k]? = some (base64Char (BitVec.ofNat 6 (n / 2 ^ (18 - 6 * k))))) ∧
    (d.length = 3 * g + 2 →
      n = (d.getD (3 * g) 0).toNat * 2 ^ 16 + (d.getD (3 * g + 1) 0).toNat * 2 ^ 8 →
      (∀ k, k < 3 →
        (base64 d)[4 * g + k]? = some (base64Char (BitVec.ofNat 6 (n / 2 ^ (18 - 6 * k))))) ∧
      (base64 d)[4 * g + 3]? = some 0x3D) ∧
    (d.length = 3 * g + 1 → n = (d.getD (3 * g) 0).toNat * 2 ^ 16 →
      (∀ k, k < 2 →
        (base64 d)[4 * g + k]? = some (base64Char (BitVec.ofNat 6 (n / 2 ^ (18 - 6 * k))))) ∧
      (base64 d)[4 * g + 2]? = some 0x3D ∧ (base64 d)[4 * g + 3]? = some 0x3D)

/-- R206, R204: the Base64 text of a SHA-1 digest is 28 characters, 27 of the alphabet and one final `=`.
The spec marks this rule as general knowledge, not in its source (assumption log 14). -/
def Obligations.TokenTextEndsInOnePad : Prop :=
  ∀ m : List Byte, ∃ cs : List Byte, cs.length = 27 ∧ (∀ c ∈ cs, ∃ v : BitVec 6, c = base64Char v) ∧
    (∀ c ∈ cs, c ≠ 0x3D) ∧ base64 (sha1 m) = cs ++ [0x3D]

/-- R205, R206: Base64 loses nothing: two byte sequences with one text are equal. The spec marks this rule
as general knowledge, not in its source (assumption log 14). -/
def Obligations.Base64LosesNothing : Prop :=
  ∀ d d' : List Byte, base64 d = base64 d' → d = d'

/-- R213. For the key `dGhlIHNhbXBsZSBub25jZQ==` in KEYBUF, ACCEPT's TOKEN is
`s3pPLMBiTxaQ9kYGzzhZRbK+xOo=` and DIGEST the digest the rule gives. -/
def Obligations.AcceptGivesTheTwsVector : Prop :=
  ∀ s : State, s.keylen = 24 →
    bufBytes s .keybuf 24 =
      [0x64, 0x47, 0x68, 0x6C, 0x49, 0x48, 0x4E, 0x68, 0x62, 0x58, 0x42, 0x73, 0x5A, 0x53, 0x42, 0x75,
       0x62, 0x32, 0x35, 0x6A, 0x5A, 0x51, 0x3D, 0x3D] →
    24 ≤ s.params.hvalMax →
    ∃ t, exec .accept s = .next t ∧ Succeeded t ∧
      bufBytes t .digest 20 =
        [0xB3, 0x7A, 0x4F, 0x2C, 0xC0, 0x62, 0x4F, 0x16, 0x90, 0xF6, 0x46, 0x06, 0xCF, 0x38, 0x59,
         0x45, 0xB2, 0xBE, 0xC4, 0xEA] ∧
      bufBytes t .token 28 =
        [0x73, 0x33, 0x70, 0x50, 0x4C, 0x4D, 0x42, 0x69, 0x54, 0x78, 0x61, 0x51, 0x39, 0x6B, 0x59,
         0x47, 0x7A, 0x7A, 0x68, 0x5A, 0x52, 0x62, 0x4B, 0x2B, 0x78, 0x4F, 0x6F, 0x3D]

/-- R274. After a failed VALIDATE, ACCEPT hashes the empty key: it succeeds with the GUID's own token
`Kfh9QIsMVZcl6xEPYxPHzW8SZ8w=`. -/
def Obligations.AcceptAfterAFailedValidate : Prop :=
  ∀ s t : State, exec .validate s = .next t → statusErrBit t.status = true →
    t.keylen = 0 ∧ ∃ u, exec .accept t = .next u ∧ Succeeded u ∧
      bufBytes u .token 28 =
        [0x4B, 0x66, 0x68, 0x39, 0x51, 0x49, 0x73, 0x4D, 0x56, 0x5A, 0x63, 0x6C, 0x36, 0x78, 0x45,
         0x50, 0x59, 0x78, 0x50, 0x48, 0x7A, 0x57, 0x38, 0x53, 0x5A, 0x38, 0x77, 0x3D]
end

