-- ==== Sys2Proof/Laws/Decode.lean ====
section
/-! SUPPORT. The decoder row by row: a word is decoded by the row it hits. -/

namespace Sys2Proof

/-- The fields of frame byte 0 (R94). -/
@[simp] theorem finOf_frameByte0 (fin : Bool) (rsv : BitVec 3) (op : BitVec 4) :
    finOf (frameByte0 fin rsv op) = fin := by
  simp only [finOf, frameByte0, BitVec.getLsbD_append]; simp

@[simp] theorem rsvOf_frameByte0 (fin : Bool) (rsv : BitVec 3) (op : BitVec 4) :
    rsvOf (frameByte0 fin rsv op) = rsv := by
  apply BitVec.eq_of_getLsbD_eq
  intro i hi
  simp only [rsvOf, frameByte0, BitVec.getLsbD_extractLsb', BitVec.getLsbD_append]
  interval_cases i <;> simp

@[simp] theorem opcodeOf_frameByte0 (fin : Bool) (rsv : BitVec 3) (op : BitVec 4) :
    opcodeOf (frameByte0 fin rsv op) = op := by
  apply BitVec.eq_of_getLsbD_eq
  intro i hi
  simp only [opcodeOf, frameByte0, BitVec.getLsbD_extractLsb', BitVec.getLsbD_append]
  interval_cases i <;> simp

/-- The fields of frame byte 1 (R95). -/
@[simp] theorem maskOf_frameByte1 (mask : Bool) (ind : BitVec 7) :
    maskOf (frameByte1 mask ind) = mask := by
  simp only [maskOf, frameByte1, BitVec.getLsbD_append]; simp

@[simp] theorem lenIndOf_frameByte1 (mask : Bool) (ind : BitVec 7) :
    lenIndOf (frameByte1 mask ind) = ind := by
  apply BitVec.eq_of_getLsbD_eq
  intro i hi
  simp only [lenIndOf, frameByte1, BitVec.getLsbD_extractLsb', BitVec.getLsbD_append]
  interval_cases i <;> simp

/-- A frame byte is its fields (R93). -/
theorem frameByte0_fields (b : Byte) : frameByte0 (finOf b) (rsvOf b) (opcodeOf b) = b := by
  apply BitVec.eq_of_getLsbD_eq
  intro i hi
  simp only [frameByte0, finOf, rsvOf, opcodeOf, BitVec.getLsbD_extractLsb', BitVec.getLsbD_append]
  interval_cases i <;> simp

theorem frameByte1_fields (b : Byte) : frameByte1 (maskOf b) (lenIndOf b) = b := by
  apply BitVec.eq_of_getLsbD_eq
  intro i hi
  simp only [frameByte1, maskOf, lenIndOf, BitVec.getLsbD_extractLsb', BitVec.getLsbD_append]
  interval_cases i <;> simp

end Sys2Proof
end

