-- ==== Sys2Proof/Laws/Flags.lean ====
section
/-! SUPPORT. The fields of the packed registers, bit by bit. -/

namespace Sys2Proof.Machine

theorem getLsbD_three (n : Nat) : (3 : Word).getLsbD n = decide (n < 2) := by
  by_cases h : n < 32
  · interval_cases n <;> rfl
  · rw [BitVec.getLsbD_of_ge _ _ (by omega)]; simp; omega

theorem statusSucceed_bit (w : Word) (n : Nat) :
    (statusSucceed w).getLsbD n = if n = 0 then true else if n = 1 then false else w.getLsbD n := by
  by_cases h : n < 32
  · simp only [statusSucceed, BitVec.getLsbD_or, BitVec.getLsbD_and, BitVec.getLsbD_not, h,
      getLsbD_three]
    interval_cases n <;> simp
  · rw [BitVec.getLsbD_of_ge _ _ (by omega), BitVec.getLsbD_of_ge _ _ (by omega),
      if_neg (by omega), if_neg (by omega)]

theorem statusRaise_bit (w : Word) (n : Nat) :
    (statusRaise w).getLsbD n = if n = 0 then false else if n = 1 then true else w.getLsbD n := by
  by_cases h : n < 32
  · simp only [statusRaise, BitVec.getLsbD_or, BitVec.getLsbD_and, BitVec.getLsbD_not, h,
      getLsbD_three]
    interval_cases n <;> simp
  · rw [BitVec.getLsbD_of_ge _ _ (by omega), BitVec.getLsbD_of_ge _ _ (by omega),
      if_neg (by omega), if_neg (by omega)]

theorem statusAccessError_bit (w : Word) (n : Nat) :
    (statusAccessError w).getLsbD n = if n = 2 then true else w.getLsbD n := by
  by_cases h : n < 32
  · simp only [statusAccessError, BitVec.getLsbD_or]
    interval_cases n <;> simp
  · rw [BitVec.getLsbD_of_ge _ _ (by omega), if_neg (by omega), BitVec.getLsbD_of_ge _ _ (by omega)]

theorem statusHostWrite_bit (w v : Word) (n : Nat) :
    (statusHostWrite w v).getLsbD n =
      if n = 2 then w.getLsbD 2 && !v.getLsbD 2 else w.getLsbD n := by
  by_cases h : n < 32
  · simp only [statusHostWrite]
    split <;> rename_i hv
    · simp only [BitVec.getLsbD_and, BitVec.getLsbD_not, h, hv]
      interval_cases n <;> simp
    · simp only [hv]
      split <;> simp_all
  · rw [BitVec.getLsbD_of_ge _ _ (by omega), if_neg (by omega), BitVec.getLsbD_of_ge _ _ (by omega)]

/-- Two words agree on the bits from `k` on when they agree on each of them. -/
theorem high_bits_eq {k l : Nat} {v w : Word} (h : ∀ n, k ≤ n → v.getLsbD n = w.getLsbD n) :
    v.extractLsb' k l = w.extractLsb' k l := by
  apply BitVec.eq_of_getLsbD_eq
  intro i hi
  simp only [BitVec.getLsbD_extractLsb', hi]
  rw [h _ (by omega)]

@[simp] theorem statusOkBit_succeed (w : Word) : statusOkBit (statusSucceed w) = true := by
  rw [statusOkBit, statusSucceed_bit]; rfl
@[simp] theorem statusErrBit_succeed (w : Word) : statusErrBit (statusSucceed w) = false := by
  rw [statusErrBit, statusSucceed_bit]; rfl
@[simp] theorem statusAccErrBit_succeed (w : Word) :
    statusAccErrBit (statusSucceed w) = statusAccErrBit w := by
  rw [statusAccErrBit, statusSucceed_bit]; rfl
@[simp] theorem statusOkBit_raise (w : Word) : statusOkBit (statusRaise w) = false := by
  rw [statusOkBit, statusRaise_bit]; rfl
@[simp] theorem statusErrBit_raise (w : Word) : statusErrBit (statusRaise w) = true := by
  rw [statusErrBit, statusRaise_bit]; rfl
@[simp] theorem statusAccErrBit_raise (w : Word) :
    statusAccErrBit (statusRaise w) = statusAccErrBit w := by
  rw [statusAccErrBit, statusRaise_bit]; rfl

theorem statusSucceed_rest (w : Word) {k l : Nat} (hk : 2 ≤ k) :
    (statusSucceed w).extractLsb' k l = w.extractLsb' k l :=
  high_bits_eq fun n hn => by rw [statusSucceed_bit, if_neg (by omega), if_neg (by omega)]

theorem statusRaise_rest (w : Word) {k l : Nat} (hk : 2 ≤ k) :
    (statusRaise w).extractLsb' k l = w.extractLsb' k l :=
  high_bits_eq fun n hn => by rw [statusRaise_bit, if_neg (by omega), if_neg (by omega)]

theorem statusAccessError_rest (w : Word) {k l : Nat} (hk : 3 ≤ k) :
    (statusAccessError w).extractLsb' k l = w.extractLsb' k l :=
  high_bits_eq fun n hn => by rw [statusAccessError_bit, if_neg (by omega)]

theorem statusHostWrite_rest (w v : Word) {k l : Nat} (hk : 3 ≤ k) :
    (statusHostWrite w v).extractLsb' k l = w.extractLsb' k l :=
  high_bits_eq fun n hn => by rw [statusHostWrite_bit, if_neg (by omega)]

@[simp] theorem statusSucceed_idem (w : Word) : statusSucceed (statusSucceed w) = statusSucceed w :=
  BitVec.eq_of_getLsbD_eq fun n _ => by simp only [statusSucceed_bit]; split <;> simp_all

@[simp] theorem statusRaise_idem (w : Word) : statusRaise (statusRaise w) = statusRaise w :=
  BitVec.eq_of_getLsbD_eq fun n _ => by simp only [statusRaise_bit]; split <;> simp_all

/-- ERRCODE's fields as a raised error packs them (R24, R235). -/
@[simp] theorem errorCodeField_pack (e : CmdError) :
    errorCodeField (packError e) = errorCode e.kind := by
  apply BitVec.eq_of_getLsbD_eq
  intro i hi
  simp only [errorCodeField, packError, BitVec.getLsbD_extractLsb', BitVec.getLsbD_append]
  interval_cases i <;> simp

@[simp] theorem errorDetailField_pack (e : CmdError) : errorDetailField (packError e) = e.detail := by
  apply BitVec.eq_of_getLsbD_eq
  intro i hi
  simp only [errorDetailField, packError, BitVec.getLsbD_extractLsb', BitVec.getLsbD_append]
  interval_cases i <;> simp

@[simp] theorem errorIndexField_pack (e : CmdError) : errorIndexField (packError e) = e.index := by
  apply BitVec.eq_of_getLsbD_eq
  intro i hi
  simp only [errorIndexField, packError, BitVec.getLsbD_extractLsb', BitVec.getLsbD_append]
  interval_cases i <;> simp

@[simp] theorem errorHighField_pack (e : CmdError) : errorHighField (packError e) = 0 := by
  apply BitVec.eq_of_getLsbD_eq
  intro i hi
  simp only [errorHighField, packError, BitVec.getLsbD_extractLsb', BitVec.getLsbD_append]
  interval_cases i <;> simp

section PackFrame
variable (hdr : BitVec 4) (form : BitVec 2) (known m : Bool) (b0 : Byte)

@[simp] theorem packFrame_byte0 : (packFrame hdr form known m b0).extractLsb' 0 8 = b0 := by
  apply BitVec.eq_of_getLsbD_eq
  intro i hi
  simp only [packFrame, BitVec.getLsbD_extractLsb', BitVec.getLsbD_append]
  interval_cases i <;> simp

@[simp] theorem frameMask_pack : frameMask (packFrame hdr form known m b0) = m := by
  simp only [frameMask, packFrame, BitVec.getLsbD_append]; simp

@[simp] theorem frameOpKnown_pack : frameOpKnown (packFrame hdr form known m b0) = known := by
  simp only [frameOpKnown, packFrame, BitVec.getLsbD_append]; simp

@[simp] theorem frameLenForm_pack : frameLenForm (packFrame hdr form known m b0) = form := by
  apply BitVec.eq_of_getLsbD_eq
  intro i hi
  simp only [frameLenForm, packFrame, BitVec.getLsbD_extractLsb', BitVec.getLsbD_append]
  interval_cases i <;> simp

@[simp] theorem frameHdrLen_pack : frameHdrLen (packFrame hdr form known m b0) = hdr := by
  apply BitVec.eq_of_getLsbD_eq
  intro i hi
  simp only [frameHdrLen, packFrame, BitVec.getLsbD_extractLsb', BitVec.getLsbD_append]
  interval_cases i <;> simp

@[simp] theorem frameHigh_pack : frameHigh (packFrame hdr form known m b0) = 0 := by
  apply BitVec.eq_of_getLsbD_eq
  intro i hi
  simp only [frameHigh, packFrame, BitVec.getLsbD_extractLsb', BitVec.getLsbD_append]
  interval_cases i <;> simp

end PackFrame

/-- FRAME's OPCODE, RSV and FIN are fields of FRAME[7:0] (R27). -/
theorem frameOpcode_eq (w : Word) : frameOpcode w = (w.extractLsb' 0 8).extractLsb' 0 4 := by
  apply BitVec.eq_of_getLsbD_eq
  intro i hi
  simp only [frameOpcode, BitVec.getLsbD_extractLsb', hi]
  simp; omega

theorem frameRsv_eq (w : Word) : frameRsv w = (w.extractLsb' 0 8).extractLsb' 4 3 := by
  apply BitVec.eq_of_getLsbD_eq
  intro i hi
  simp only [frameRsv, BitVec.getLsbD_extractLsb', hi]
  simp; omega

theorem frameFin_eq (w : Word) : frameFin w = (w.extractLsb' 0 8).getLsbD 7 := by
  simp [frameFin]

end Sys2Proof.Machine
end

