-- ==== Sys2Proof/Laws/Map.lean ====
section
/-! SUPPORT. The address map: every window byte is located at its address, so windows never overlap. -/

namespace Sys2Proof.Machine

theorem locateEntry_nameLen (p : Params) (e : Nat) : locateEntry p e 0 = .reg (.nameLen e) := rfl

theorem locateEntry_valueLen (p : Params) (e : Nat) : locateEntry p e 4 = .reg (.valueLen e) := rfl

theorem locateEntry_hname {p : Params} (e : Nat) {i : Nat} (h : i < p.hnameMax) :
    locateEntry p e (0x100 + i) = .byte (.hname e) i := by
  simp only [locateEntry]
  repeat rw [if_neg (by omega)]
  rw [if_pos (by omega), Nat.add_sub_cancel_left]

theorem locateEntry_hval {p : Params} (hp : p.Legal) (e : Nat) {i : Nat} (h : i < p.hvalMax) :
    locateEntry p e (0x200 + i) = .byte (.hval e) i := by
  simp only [locateEntry]
  repeat rw [if_neg (by omega)]
  rw [if_pos (by omega), Nat.add_sub_cancel_left]

/-- The header table occupies 0x400 addresses per entry (R61). -/
theorem locate_entry {p : Params} {e off : Nat} (he : e < p.hdrN) (ho : off < 0x400)
    (hp : p.Legal) : locate p (0x10000 + 0x400 * e + off) = locateEntry p e off := by
  simp only [locate]
  repeat rw [if_neg (by omega)]
  rw [if_pos (by omega)]
  rw [show (0x10000 + 0x400 * e + off - 0x10000) / 0x400 = e by omega,
    show (0x10000 + 0x400 * e + off - 0x10000) % 0x400 = off by omega]

/-- Window byte `i` stands at `base + i` (R62). -/
theorem locate_addr {p : Params} {w : Win} {i : Nat} (hp : p.Legal) (hw : w.InTable p)
    (hi : i < w.size p) : locate p (w.addr i) = .byte w i := by
  cases w with
  | hname e =>
    rw [show Win.addr (.hname e) i = 0x10000 + 0x400 * e + (0x100 + i) from Nat.add_assoc _ _ _]
    simp only [Win.size] at hi
    rw [locate_entry hw (by omega) hp, locateEntry_hname e hi]
  | hval e =>
    rw [show Win.addr (.hval e) i = 0x10000 + 0x400 * e + (0x200 + i) from Nat.add_assoc _ _ _]
    simp only [Win.size] at hi
    rw [locate_entry hw (by omega) hp, locateEntry_hval hp e hi]
  | digest =>
    rw [show Win.addr .digest i = 0x100 + i from rfl]
    simp only [Win.size] at hi
    simp only [locate]
    repeat rw [if_neg (by omega)]
    rw [if_pos (by omega), Nat.add_sub_cancel_left]
  | token =>
    rw [show Win.addr .token i = 0x120 + i from rfl]
    simp only [Win.size] at hi
    simp only [locate]
    repeat rw [if_neg (by omega)]
    rw [if_pos (by omega), Nat.add_sub_cancel_left]
  | keybuf =>
    rw [show Win.addr .keybuf i = 0x200 + i from rfl]
    simp only [Win.size] at hi
    simp only [locate]
    repeat rw [if_neg (by omega)]
    rw [if_pos (by omega), Nat.add_sub_cancel_left]
  | ibuf =>
    rw [show Win.addr .ibuf i = 0x100000 + i from rfl]
    simp only [Win.size] at hi
    simp only [locate]
    repeat rw [if_neg (by omega)]
    rw [if_pos (by omega), Nat.add_sub_cancel_left]
  | obuf =>
    rw [show Win.addr .obuf i = 0x200000 + i from rfl]
    simp only [Win.size] at hi
    simp only [locate]
    repeat rw [if_neg (by omega)]
    rw [if_pos (by omega), Nat.add_sub_cancel_left]

/-- Two window bytes at one address are one byte of one window. -/
theorem addr_inj {p : Params} {w w' : Win} {i i' : Nat} (hp : p.Legal) (hw : w.InTable p)
    (hw' : w'.InTable p) (hi : i < w.size p) (hi' : i' < w'.size p)
    (h : w.addr i = w'.addr i') : w = w' ∧ i = i' := by
  have h1 := locate_addr hp hw hi
  rw [h, locate_addr hp hw' hi'] at h1
  injection h1 with a b
  exact ⟨a.symm, b.symm⟩

/-- What stands at an offset of an entry (R61). -/
theorem locateEntry_cases (p : Params) (e off : Nat) :
    (off = 0 ∧ locateEntry p e off = .reg (.nameLen e)) ∨
    (off = 4 ∧ locateEntry p e off = .reg (.valueLen e)) ∨
    (∃ i, i < p.hnameMax ∧ off = 0x100 + i ∧ locateEntry p e off = .byte (.hname e) i) ∨
    (∃ i, i < p.hvalMax ∧ off = 0x200 + i ∧ locateEntry p e off = .byte (.hval e) i) ∨
    locateEntry p e off = .reserved := by
  unfold locateEntry
  split
  · exact .inl ⟨‹_›, rfl⟩
  · split
    · exact .inr (.inl ⟨‹_›, rfl⟩)
    · split
      · exact .inr (.inr (.inl ⟨off - 0x100, by omega, by omega, rfl⟩))
      · split
        · exact .inr (.inr (.inr (.inl ⟨off - 0x200, by omega, by omega, rfl⟩)))
        · exact .inr (.inr (.inr (.inr rfl)))

/-- What stands at an address above the control registers (R61). -/
theorem locate_cases (p : Params) {a : Nat} (ha : 0x100 ≤ a) :
    (∃ w i, w.InTable p ∧ i < w.size p ∧ a = w.addr i ∧ locate p a = .byte w i) ∨
    (∃ e, e < p.hdrN ∧ a = 0x10000 + 0x400 * e ∧ locate p a = .reg (.nameLen e)) ∨
    (∃ e, e < p.hdrN ∧ a = 0x10000 + 0x400 * e + 4 ∧ locate p a = .reg (.valueLen e)) ∨
    locate p a = .reserved := by
  have win : ∀ (w : Win) (i : Nat), w.InTable p → i < w.size p → a = w.addr i →
      locate p a = .byte w i → (∃ w i, w.InTable p ∧ i < w.size p ∧ a = w.addr i ∧ locate p a = .byte w i) :=
    fun w i h1 h2 h3 h4 => ⟨w, i, h1, h2, h3, h4⟩
  generalize hL : locate p a = L at win ⊢
  simp only [locate] at hL
  rw [if_neg (by omega)] at hL
  rcases Nat.lt_or_ge a (0x100 + 20) with h1 | h1
  · rw [if_pos h1] at hL
    exact .inl (win .digest (a - 0x100) trivial (by simp only [Win.size]; omega)
      (by simp only [Win.addr, Win.base]; omega) hL.symm)
  rw [if_neg (by omega)] at hL
  rcases Nat.lt_or_ge a 0x120 with h2 | h2
  · rw [if_pos h2] at hL; exact .inr (.inr (.inr hL.symm))
  rw [if_neg (by omega)] at hL
  rcases Nat.lt_or_ge a (0x120 + 28) with h3 | h3
  · rw [if_pos h3] at hL
    exact .inl (win .token (a - 0x120) trivial (by simp only [Win.size]; omega)
      (by simp only [Win.addr, Win.base]; omega) hL.symm)
  rw [if_neg (by omega)] at hL
  rcases Nat.lt_or_ge a 0x200 with h4 | h4
  · rw [if_pos h4] at hL; exact .inr (.inr (.inr hL.symm))
  rw [if_neg (by omega)] at hL
  rcases Nat.lt_or_ge a (0x200 + p.hvalMax) with h5 | h5
  · rw [if_pos h5] at hL
    exact .inl (win .keybuf (a - 0x200) trivial (by simp only [Win.size]; omega)
      (by simp only [Win.addr, Win.base]; omega) hL.symm)
  rw [if_neg (by omega)] at hL
  rcases Nat.lt_or_ge a 0x10000 with h6 | h6
  · rw [if_pos h6] at hL; exact .inr (.inr (.inr hL.symm))
  rw [if_neg (by omega)] at hL
  rcases Nat.lt_or_ge a (0x10000 + 0x400 * p.hdrN) with h7 | h7
  · rw [if_pos h7] at hL
    have he : (a - 0x10000) / 0x400 < p.hdrN := by omega
    have hd : a = 0x10000 + 0x400 * ((a - 0x10000) / 0x400) + (a - 0x10000) % 0x400 := by omega
    rcases locateEntry_cases p ((a - 0x10000) / 0x400) ((a - 0x10000) % 0x400) with
      ⟨ho, hE⟩ | ⟨ho, hE⟩ | ⟨i, hi, ho, hE⟩ | ⟨i, hi, ho, hE⟩ | hE
    · exact .inr (.inl ⟨_, he, by omega, by rw [← hL, hE]⟩)
    · exact .inr (.inr (.inl ⟨_, he, by omega, by rw [← hL, hE]⟩))
    · exact .inl (win (.hname _) i he hi (by simp only [Win.addr, Win.base]; omega) (by rw [← hL, hE]))
    · exact .inl (win (.hval _) i he hi (by simp only [Win.addr, Win.base]; omega) (by rw [← hL, hE]))
    · exact .inr (.inr (.inr (by rw [← hL, hE])))
  rw [if_neg (by omega)] at hL
  rcases Nat.lt_or_ge a 0x100000 with h8 | h8
  · rw [if_pos h8] at hL; exact .inr (.inr (.inr hL.symm))
  rw [if_neg (by omega)] at hL
  rcases Nat.lt_or_ge a (0x100000 + p.ibufSize) with h9 | h9
  · rw [if_pos h9] at hL
    exact .inl (win .ibuf (a - 0x100000) trivial (by simp only [Win.size]; omega)
      (by simp only [Win.addr, Win.base]; omega) hL.symm)
  rw [if_neg (by omega)] at hL
  rcases Nat.lt_or_ge a 0x200000 with h10 | h10
  · rw [if_pos h10] at hL; exact .inr (.inr (.inr hL.symm))
  rw [if_neg (by omega)] at hL
  rcases Nat.lt_or_ge a (0x200000 + p.ibufSize) with h11 | h11
  · rw [if_pos h11] at hL
    exact .inl (win .obuf (a - 0x200000) trivial (by simp only [Win.size]; omega)
      (by simp only [Win.addr, Win.base]; omega) hL.symm)
  rw [if_neg (by omega)] at hL
  exact .inr (.inr (.inr hL.symm))

/-- What stands below 0x100: the control registers (R61). -/
theorem locate_control (p : Params) {a : Nat} (ha : a < 0x100) :
    locate p a = match controlMap.lookup a with | some r => .reg r | none => .reserved :=
  if_pos ha

/-- A window byte is located at its own address only. -/
theorem byte_of_locate {p : Params} {a : Nat} {w : Win} {i : Nat} (h : locate p a = .byte w i) :
    w.InTable p ∧ i < w.size p ∧ a = w.addr i := by
  rcases Nat.lt_or_ge a 0x100 with ha | ha
  · rw [locate_control p ha] at h
    split at h <;> cases h
  · rcases locate_cases p ha with ⟨w', i', h1, h2, h3, h4⟩ | ⟨e, -, -, h4⟩ | ⟨e, -, -, h4⟩ | h4
    · rw [h4] at h; cases h; exact ⟨h1, h2, h3⟩
    · rw [h4] at h; cases h
    · rw [h4] at h; cases h
    · rw [h4] at h; cases h

end Sys2Proof.Machine
end

