-- ==== Sys2Proof/Laws/Memory.lean ====
section
/-! SUPPORT. What the memory operations do: read after write, the canonical form, and that equal reads
mean equal memories. -/

namespace Sys2Proof.Machine

theorem memGet_memSet (m : Memory) (a : Nat) (b : Byte) (c : Nat) :
    memGet (memSet m a b) c = if c = a then some b else memGet m c := by
  induction m with
  | nil => simp only [memSet, memGet, eq_comm]
  | cons d m ih =>
    simp only [memSet]
    split
    · simp only [memGet, eq_comm]
    · split
      · next h => subst h; simp only [memGet, eq_comm]; split <;> rfl
      · simp only [memGet, ih]
        split
        · split
          · omega
          · rfl
        · rfl

theorem memGet_memWrite (bs : List Byte) (m : Memory) (a c : Nat) :
    memGet (memWrite m a bs) c =
      if a ≤ c ∧ c < a + bs.length then bs[c - a]? else memGet m c := by
  induction bs generalizing m a with
  | nil => simp only [memWrite, List.length_nil]; rw [if_neg (by omega)]
  | cons b bs ih =>
    simp only [memWrite, ih, memGet_memSet, List.length_cons]
    by_cases hc : c = a
    · subst hc; rw [if_neg (by omega), if_pos rfl, if_pos (by omega)]; simp
    · by_cases h : a + 1 ≤ c ∧ c < a + 1 + bs.length
      · rw [if_pos h, if_pos (by omega)]
        obtain ⟨k, rfl⟩ := Nat.exists_eq_add_of_le h.1
        rw [show a + 1 + k - (a + 1) = k by omega, show a + 1 + k - a = k + 1 by omega]
        simp
      · rw [if_neg h, if_neg hc, if_neg (by omega)]

theorem wf_iff_pairwise (m : Memory) :
    Memory.wf m = true ↔ m.Pairwise (fun c d => c.1 < d.1) := by
  induction m with
  | nil => simp [Memory.wf]
  | cons c m ih =>
    cases m with
    | nil => simp [Memory.wf]
    | cons d m =>
      simp only [Memory.wf, Bool.and_eq_true, decide_eq_true_eq, ih, List.pairwise_cons]
      constructor
      · rintro ⟨h, h1, h2⟩
        refine ⟨fun x hx => ?_, h1, h2⟩
        rcases List.mem_cons.1 hx with rfl | hx
        · exact h
        · exact Nat.lt_trans h (h1 x hx)
      · rintro ⟨h, h1, h2⟩
        exact ⟨h d (by simp), h1, h2⟩

theorem memSet_mem {m : Memory} {a : Nat} {b : Byte} {x : Host.Cell} (h : x ∈ memSet m a b) :
    x = (a, b) ∨ x ∈ m := by
  induction m with
  | nil => exact .inl (by simpa [memSet] using h)
  | cons d m ih =>
    simp only [memSet] at h
    split at h
    · simpa using h
    · split at h
      · rcases List.mem_cons.1 h with h | h
        · exact .inl h
        · exact .inr (List.mem_cons_of_mem _ h)
      · rcases List.mem_cons.1 h with h | h
        · exact .inr (by simp [h])
        · exact (ih h).imp_right (List.mem_cons_of_mem _)

/-- A write keeps the canonical form. -/
theorem memSet_wf {m : Memory} (a : Nat) (b : Byte) (h : Memory.wf m = true) :
    Memory.wf (memSet m a b) = true := by
  rw [wf_iff_pairwise] at h ⊢
  induction m with
  | nil => simp [memSet]
  | cons d m ih =>
    rw [List.pairwise_cons] at h
    simp only [memSet]
    split
    · next hlt =>
      refine List.pairwise_cons.2 ⟨fun x hx => ?_, List.pairwise_cons.2 h⟩
      rcases List.mem_cons.1 hx with rfl | hx
      · exact hlt
      · exact Nat.lt_trans hlt (h.1 x hx)
    · split
      · next heq => subst heq; exact List.pairwise_cons.2 h
      · refine List.pairwise_cons.2 ⟨fun x hx => ?_, ih h.2⟩
        rcases memSet_mem hx with rfl | hx
        · show d.1 < a; omega
        · exact h.1 x hx

theorem memWrite_wf {m : Memory} (a : Nat) (bs : List Byte) (h : Memory.wf m = true) :
    Memory.wf (memWrite m a bs) = true := by
  induction bs generalizing m a with
  | nil => exact h
  | cons b bs ih => exact ih _ (memSet_wf a b h)

theorem memWrite_mem {m : Memory} {a : Nat} {bs : List Byte} {x : Host.Cell}
    (h : x ∈ memWrite m a bs) : (a ≤ x.1 ∧ x.1 < a + bs.length) ∨ x ∈ m := by
  induction bs generalizing m a with
  | nil => exact .inr h
  | cons b bs ih =>
    rw [List.length_cons]
    rcases ih h with h | h
    · exact .inl (by omega)
    · rcases memSet_mem h with rfl | h
      · exact .inl (by constructor <;> simp)
      · exact .inr h

theorem memGet_none_of_lt {m : Memory} {a : Nat} (h : ∀ x ∈ m, a < x.1) : memGet m a = none := by
  induction m with
  | nil => rfl
  | cons d m ih =>
    have := h d (by simp)
    rw [memGet, if_neg (by omega)]
    exact ih fun x hx => h x (List.mem_cons_of_mem _ hx)

/-- Two canonical memories that read alike are equal. -/
theorem memory_ext {m n : Memory} (hm : Memory.wf m = true) (hn : Memory.wf n = true)
    (h : ∀ a, memGet m a = memGet n a) : m = n := by
  rw [wf_iff_pairwise] at hm hn
  induction m generalizing n with
  | nil =>
    cases n with
    | nil => rfl
    | cons d n => have := h d.1; simp [memGet] at this
  | cons c m ih =>
    cases n with
    | nil => have := h c.1; simp [memGet] at this
    | cons d n =>
      rw [List.pairwise_cons] at hm hn
      have hcd : c.1 = d.1 := by
        rcases Nat.lt_trichotomy c.1 d.1 with hlt | heq | hgt
        · have := h c.1
          rw [memGet, if_pos rfl, memGet_none_of_lt] at this
          · cases this
          · intro x hx
            rcases List.mem_cons.1 hx with rfl | hx
            · exact hlt
            · exact Nat.lt_trans hlt (hn.1 x hx)
        · exact heq
        · have := h d.1
          rw [memGet_none_of_lt, memGet, if_pos rfl] at this
          · cases this
          · intro x hx
            rcases List.mem_cons.1 hx with rfl | hx
            · exact hgt
            · exact Nat.lt_trans hgt (hm.1 x hx)
      have hcd2 : c.2 = d.2 := by
        have := h c.1
        rw [memGet, if_pos rfl, memGet, if_pos hcd.symm] at this
        exact Option.some.inj this
      have : c = d := Prod.ext hcd hcd2
      subst this
      congr 1
      refine ih hm.2 hn.2 fun a => ?_
      by_cases ha : c.1 = a
      · subst ha
        rw [memGet_none_of_lt hm.1, memGet_none_of_lt hn.1]
      · have := h a
        rwa [memGet, if_neg ha, memGet, if_neg ha] at this

/-- Writing the same bytes again changes nothing. -/
theorem memWrite_idem {m : Memory} (a : Nat) (bs : List Byte) (h : Memory.wf m = true) :
    memWrite (memWrite m a bs) a bs = memWrite m a bs := by
  refine memory_ext (memWrite_wf _ _ (memWrite_wf _ _ h)) (memWrite_wf _ _ h) fun c => ?_
  simp only [memGet_memWrite]
  split <;> rfl

theorem memWrite_mapped {p : Params} {m : Memory} {a : Nat} {bs : List Byte}
    (h : Memory.mapped p m = true)
    (ha : ∀ c, a ≤ c → c < a + bs.length → ∃ w i, locate p c = .byte w i) :
    Memory.mapped p (memWrite m a bs) = true := by
  rw [Memory.mapped, List.all_eq_true] at h ⊢
  intro x hx
  rcases memWrite_mem hx with hx | hx
  · obtain ⟨w, i, hw⟩ := ha x.1 hx.1 hx.2
    simp [hw]
  · exact h x hx

theorem memSet_mapped {p : Params} {m : Memory} {a : Nat} {b : Byte} {w : Win} {i : Nat}
    (h : Memory.mapped p m = true) (ha : locate p a = .byte w i) :
    Memory.mapped p (memSet m a b) = true := by
  rw [Memory.mapped, List.all_eq_true] at h ⊢
  intro x hx
  rcases memSet_mem hx with rfl | hx
  · simp [ha]
  · exact h x hx

/-- The memory after reset is in the canonical form. -/
theorem reset_mem_wf (p : Params) (n : Nat) : Memory.wf (State.resetWith p n).mem = true := rfl

end Sys2Proof.Machine
end

