-- ==== Sys2Proof/Laws/State.lean ====
section
/-! SUPPORT. One lemma per field per update of the state, true by rfl, so that no proof unfolds a record
update. -/

namespace Sys2Proof.Machine

@[simp] theorem succeed_params (s : State) : (succeed s).params = s.params := rfl
@[simp] theorem succeed_cmd (s : State) : (succeed s).cmd = s.cmd := rfl
@[simp] theorem succeed_status (s : State) : (succeed s).status = statusSucceed s.status := rfl
@[simp] theorem succeed_errcode (s : State) : (succeed s).errcode = 0 := rfl
@[simp] theorem succeed_cfgVersion (s : State) : (succeed s).cfgVersion = s.cfgVersion := rfl
@[simp] theorem succeed_ilen (s : State) : (succeed s).ilen = s.ilen := rfl
@[simp] theorem succeed_olen (s : State) : (succeed s).olen = s.olen := rfl
@[simp] theorem succeed_maskkey (s : State) : (succeed s).maskkey = s.maskkey := rfl
@[simp] theorem succeed_frame (s : State) : (succeed s).frame = s.frame := rfl
@[simp] theorem succeed_plen (s : State) : (succeed s).plen = s.plen := rfl
@[simp] theorem succeed_consumed (s : State) : (succeed s).consumed = s.consumed := rfl
@[simp] theorem succeed_keylen (s : State) : (succeed s).keylen = s.keylen := rfl
@[simp] theorem succeed_hdrCount (s : State) : (succeed s).hdrCount = s.hdrCount := rfl
@[simp] theorem succeed_hdr (s : State) : (succeed s).hdr = s.hdr := rfl
@[simp] theorem succeed_mem (s : State) : (succeed s).mem = s.mem := rfl
@[simp] theorem succeed_resets (s : State) : (succeed s).resets = s.resets := rfl
@[simp] theorem succeed_host (s : State) : (succeed s).host = s.host := rfl
@[simp] theorem succeed_reply (s : State) : (succeed s).reply = s.reply := rfl

@[simp] theorem raise_params (e : CmdError) (s : State) : (raise e s).params = s.params := rfl
@[simp] theorem raise_cmd (e : CmdError) (s : State) : (raise e s).cmd = s.cmd := rfl
@[simp] theorem raise_status (e : CmdError) (s : State) :
    (raise e s).status =
      statusRaise s.status := rfl
@[simp] theorem raise_errcode (e : CmdError) (s : State) : (raise e s).errcode = packError e := rfl
@[simp] theorem raise_cfgVersion (e : CmdError) (s : State) :
    (raise e s).cfgVersion =
      s.cfgVersion := rfl
@[simp] theorem raise_ilen (e : CmdError) (s : State) : (raise e s).ilen = s.ilen := rfl
@[simp] theorem raise_olen (e : CmdError) (s : State) : (raise e s).olen = s.olen := rfl
@[simp] theorem raise_maskkey (e : CmdError) (s : State) : (raise e s).maskkey = s.maskkey := rfl
@[simp] theorem raise_frame (e : CmdError) (s : State) : (raise e s).frame = s.frame := rfl
@[simp] theorem raise_plen (e : CmdError) (s : State) : (raise e s).plen = s.plen := rfl
@[simp] theorem raise_consumed (e : CmdError) (s : State) : (raise e s).consumed = s.consumed := rfl
@[simp] theorem raise_keylen (e : CmdError) (s : State) : (raise e s).keylen = s.keylen := rfl
@[simp] theorem raise_hdrCount (e : CmdError) (s : State) : (raise e s).hdrCount = s.hdrCount := rfl
@[simp] theorem raise_hdr (e : CmdError) (s : State) : (raise e s).hdr = s.hdr := rfl
@[simp] theorem raise_mem (e : CmdError) (s : State) : (raise e s).mem = s.mem := rfl
@[simp] theorem raise_resets (e : CmdError) (s : State) : (raise e s).resets = s.resets := rfl
@[simp] theorem raise_host (e : CmdError) (s : State) : (raise e s).host = s.host := rfl
@[simp] theorem raise_reply (e : CmdError) (s : State) : (raise e s).reply = s.reply := rfl

@[simp] theorem writeBuf_params (w : Win) (bs : List Byte) (s : State) :
    (writeBuf w bs s).params =
      s.params := rfl
@[simp] theorem writeBuf_cmd (w : Win) (bs : List Byte) (s : State) :
    (writeBuf w bs s).cmd =
      s.cmd := rfl
@[simp] theorem writeBuf_status (w : Win) (bs : List Byte) (s : State) :
    (writeBuf w bs s).status =
      s.status := rfl
@[simp] theorem writeBuf_errcode (w : Win) (bs : List Byte) (s : State) :
    (writeBuf w bs s).errcode =
      s.errcode := rfl
@[simp] theorem writeBuf_cfgVersion (w : Win) (bs : List Byte) (s : State) :
    (writeBuf w bs s).cfgVersion =
      s.cfgVersion := rfl
@[simp] theorem writeBuf_ilen (w : Win) (bs : List Byte) (s : State) :
    (writeBuf w bs s).ilen =
      s.ilen := rfl
@[simp] theorem writeBuf_olen (w : Win) (bs : List Byte) (s : State) :
    (writeBuf w bs s).olen =
      s.olen := rfl
@[simp] theorem writeBuf_maskkey (w : Win) (bs : List Byte) (s : State) :
    (writeBuf w bs s).maskkey =
      s.maskkey := rfl
@[simp] theorem writeBuf_frame (w : Win) (bs : List Byte) (s : State) :
    (writeBuf w bs s).frame =
      s.frame := rfl
@[simp] theorem writeBuf_plen (w : Win) (bs : List Byte) (s : State) :
    (writeBuf w bs s).plen =
      s.plen := rfl
@[simp] theorem writeBuf_consumed (w : Win) (bs : List Byte) (s : State) :
    (writeBuf w bs s).consumed =
      s.consumed := rfl
@[simp] theorem writeBuf_keylen (w : Win) (bs : List Byte) (s : State) :
    (writeBuf w bs s).keylen =
      s.keylen := rfl
@[simp] theorem writeBuf_hdrCount (w : Win) (bs : List Byte) (s : State) :
    (writeBuf w bs s).hdrCount =
      s.hdrCount := rfl
@[simp] theorem writeBuf_hdr (w : Win) (bs : List Byte) (s : State) :
    (writeBuf w bs s).hdr =
      s.hdr := rfl
@[simp] theorem writeBuf_mem (w : Win) (bs : List Byte) (s : State) :
    (writeBuf w bs s).mem =
      memWrite s.mem (w.addr 0) bs := rfl
@[simp] theorem writeBuf_resets (w : Win) (bs : List Byte) (s : State) :
    (writeBuf w bs s).resets =
      s.resets := rfl
@[simp] theorem writeBuf_host (w : Win) (bs : List Byte) (s : State) :
    (writeBuf w bs s).host =
      s.host := rfl
@[simp] theorem writeBuf_reply (w : Win) (bs : List Byte) (s : State) :
    (writeBuf w bs s).reply =
      s.reply := rfl

@[simp] theorem writeByte_params (w : Win) (i : Nat) (b : Byte) (s : State) :
    (writeByte w i b s).params =
      s.params := rfl
@[simp] theorem writeByte_cmd (w : Win) (i : Nat) (b : Byte) (s : State) :
    (writeByte w i b s).cmd =
      s.cmd := rfl
@[simp] theorem writeByte_status (w : Win) (i : Nat) (b : Byte) (s : State) :
    (writeByte w i b s).status =
      s.status := rfl
@[simp] theorem writeByte_errcode (w : Win) (i : Nat) (b : Byte) (s : State) :
    (writeByte w i b s).errcode =
      s.errcode := rfl
@[simp] theorem writeByte_cfgVersion (w : Win) (i : Nat) (b : Byte) (s : State) :
    (writeByte w i b s).cfgVersion =
      s.cfgVersion := rfl
@[simp] theorem writeByte_ilen (w : Win) (i : Nat) (b : Byte) (s : State) :
    (writeByte w i b s).ilen =
      s.ilen := rfl
@[simp] theorem writeByte_olen (w : Win) (i : Nat) (b : Byte) (s : State) :
    (writeByte w i b s).olen =
      s.olen := rfl
@[simp] theorem writeByte_maskkey (w : Win) (i : Nat) (b : Byte) (s : State) :
    (writeByte w i b s).maskkey =
      s.maskkey := rfl
@[simp] theorem writeByte_frame (w : Win) (i : Nat) (b : Byte) (s : State) :
    (writeByte w i b s).frame =
      s.frame := rfl
@[simp] theorem writeByte_plen (w : Win) (i : Nat) (b : Byte) (s : State) :
    (writeByte w i b s).plen =
      s.plen := rfl
@[simp] theorem writeByte_consumed (w : Win) (i : Nat) (b : Byte) (s : State) :
    (writeByte w i b s).consumed =
      s.consumed := rfl
@[simp] theorem writeByte_keylen (w : Win) (i : Nat) (b : Byte) (s : State) :
    (writeByte w i b s).keylen =
      s.keylen := rfl
@[simp] theorem writeByte_hdrCount (w : Win) (i : Nat) (b : Byte) (s : State) :
    (writeByte w i b s).hdrCount =
      s.hdrCount := rfl
@[simp] theorem writeByte_hdr (w : Win) (i : Nat) (b : Byte) (s : State) :
    (writeByte w i b s).hdr =
      s.hdr := rfl
@[simp] theorem writeByte_mem (w : Win) (i : Nat) (b : Byte) (s : State) :
    (writeByte w i b s).mem =
      memSet s.mem (w.addr i) b := rfl
@[simp] theorem writeByte_resets (w : Win) (i : Nat) (b : Byte) (s : State) :
    (writeByte w i b s).resets =
      s.resets := rfl
@[simp] theorem writeByte_host (w : Win) (i : Nat) (b : Byte) (s : State) :
    (writeByte w i b s).host =
      s.host := rfl
@[simp] theorem writeByte_reply (w : Win) (i : Nat) (b : Byte) (s : State) :
    (writeByte w i b s).reply =
      s.reply := rfl

@[simp] theorem accessError_params (s : State) : (accessError s).params = s.params := rfl
@[simp] theorem accessError_cmd (s : State) : (accessError s).cmd = s.cmd := rfl
@[simp] theorem accessError_status (s : State) :
    (accessError s).status =
      statusAccessError s.status := rfl
@[simp] theorem accessError_errcode (s : State) : (accessError s).errcode = s.errcode := rfl
@[simp] theorem accessError_cfgVersion (s : State) :
    (accessError s).cfgVersion =
      s.cfgVersion := rfl
@[simp] theorem accessError_ilen (s : State) : (accessError s).ilen = s.ilen := rfl
@[simp] theorem accessError_olen (s : State) : (accessError s).olen = s.olen := rfl
@[simp] theorem accessError_maskkey (s : State) : (accessError s).maskkey = s.maskkey := rfl
@[simp] theorem accessError_frame (s : State) : (accessError s).frame = s.frame := rfl
@[simp] theorem accessError_plen (s : State) : (accessError s).plen = s.plen := rfl
@[simp] theorem accessError_consumed (s : State) : (accessError s).consumed = s.consumed := rfl
@[simp] theorem accessError_keylen (s : State) : (accessError s).keylen = s.keylen := rfl
@[simp] theorem accessError_hdrCount (s : State) : (accessError s).hdrCount = s.hdrCount := rfl
@[simp] theorem accessError_hdr (s : State) : (accessError s).hdr = s.hdr := rfl
@[simp] theorem accessError_mem (s : State) : (accessError s).mem = s.mem := rfl
@[simp] theorem accessError_resets (s : State) : (accessError s).resets = s.resets := rfl
@[simp] theorem accessError_host (s : State) : (accessError s).host = s.host := rfl
@[simp] theorem accessError_reply (s : State) : (accessError s).reply = s.reply := rfl

@[simp] theorem replyWith_params (r : Option Reply) (s : State) :
    (replyWith r s).params =
      s.params := rfl
@[simp] theorem replyWith_cmd (r : Option Reply) (s : State) : (replyWith r s).cmd = s.cmd := rfl
@[simp] theorem replyWith_status (r : Option Reply) (s : State) :
    (replyWith r s).status =
      s.status := rfl
@[simp] theorem replyWith_errcode (r : Option Reply) (s : State) :
    (replyWith r s).errcode =
      s.errcode := rfl
@[simp] theorem replyWith_cfgVersion (r : Option Reply) (s : State) :
    (replyWith r s).cfgVersion =
      s.cfgVersion := rfl
@[simp] theorem replyWith_ilen (r : Option Reply) (s : State) : (replyWith r s).ilen = s.ilen := rfl
@[simp] theorem replyWith_olen (r : Option Reply) (s : State) : (replyWith r s).olen = s.olen := rfl
@[simp] theorem replyWith_maskkey (r : Option Reply) (s : State) :
    (replyWith r s).maskkey =
      s.maskkey := rfl
@[simp] theorem replyWith_frame (r : Option Reply) (s : State) :
    (replyWith r s).frame =
      s.frame := rfl
@[simp] theorem replyWith_plen (r : Option Reply) (s : State) : (replyWith r s).plen = s.plen := rfl
@[simp] theorem replyWith_consumed (r : Option Reply) (s : State) :
    (replyWith r s).consumed =
      s.consumed := rfl
@[simp] theorem replyWith_keylen (r : Option Reply) (s : State) :
    (replyWith r s).keylen =
      s.keylen := rfl
@[simp] theorem replyWith_hdrCount (r : Option Reply) (s : State) :
    (replyWith r s).hdrCount =
      s.hdrCount := rfl
@[simp] theorem replyWith_hdr (r : Option Reply) (s : State) : (replyWith r s).hdr = s.hdr := rfl
@[simp] theorem replyWith_mem (r : Option Reply) (s : State) : (replyWith r s).mem = s.mem := rfl
@[simp] theorem replyWith_resets (r : Option Reply) (s : State) :
    (replyWith r s).resets =
      s.resets := rfl
@[simp] theorem replyWith_host (r : Option Reply) (s : State) : (replyWith r s).host = s.host := rfl
@[simp] theorem replyWith_reply (r : Option Reply) (s : State) : (replyWith r s).reply = r := rfl

@[simp] theorem clearParsed_params (s : State) : (clearParsed s).params = s.params := rfl
@[simp] theorem clearParsed_cmd (s : State) : (clearParsed s).cmd = s.cmd := rfl
@[simp] theorem clearParsed_status (s : State) : (clearParsed s).status = s.status := rfl
@[simp] theorem clearParsed_errcode (s : State) : (clearParsed s).errcode = s.errcode := rfl
@[simp] theorem clearParsed_cfgVersion (s : State) :
    (clearParsed s).cfgVersion =
      s.cfgVersion := rfl
@[simp] theorem clearParsed_ilen (s : State) : (clearParsed s).ilen = s.ilen := rfl
@[simp] theorem clearParsed_olen (s : State) : (clearParsed s).olen = 0 := rfl
@[simp] theorem clearParsed_maskkey (s : State) : (clearParsed s).maskkey = 0 := rfl
@[simp] theorem clearParsed_frame (s : State) : (clearParsed s).frame = 0 := rfl
@[simp] theorem clearParsed_plen (s : State) : (clearParsed s).plen = 0 := rfl
@[simp] theorem clearParsed_consumed (s : State) : (clearParsed s).consumed = 0 := rfl
@[simp] theorem clearParsed_keylen (s : State) : (clearParsed s).keylen = s.keylen := rfl
@[simp] theorem clearParsed_hdrCount (s : State) : (clearParsed s).hdrCount = s.hdrCount := rfl
@[simp] theorem clearParsed_hdr (s : State) : (clearParsed s).hdr = s.hdr := rfl
@[simp] theorem clearParsed_mem (s : State) : (clearParsed s).mem = s.mem := rfl
@[simp] theorem clearParsed_resets (s : State) : (clearParsed s).resets = s.resets := rfl
@[simp] theorem clearParsed_host (s : State) : (clearParsed s).host = s.host := rfl
@[simp] theorem clearParsed_reply (s : State) : (clearParsed s).reply = s.reply := rfl

@[simp] theorem writeParsed_params (p : Parsed) (s : State) :
    (writeParsed s p).params =
      s.params := rfl
@[simp] theorem writeParsed_cmd (p : Parsed) (s : State) : (writeParsed s p).cmd = s.cmd := rfl
@[simp] theorem writeParsed_status (p : Parsed) (s : State) :
    (writeParsed s p).status =
      s.status := rfl
@[simp] theorem writeParsed_errcode (p : Parsed) (s : State) :
    (writeParsed s p).errcode =
      s.errcode := rfl
@[simp] theorem writeParsed_cfgVersion (p : Parsed) (s : State) :
    (writeParsed s p).cfgVersion =
      s.cfgVersion := rfl
@[simp] theorem writeParsed_ilen (p : Parsed) (s : State) : (writeParsed s p).ilen = s.ilen := rfl
@[simp] theorem writeParsed_olen (p : Parsed) (s : State) :
    (writeParsed s p).olen =
      BitVec.ofNat 32 p.len := rfl
@[simp] theorem writeParsed_maskkey (p : Parsed) (s : State) :
    (writeParsed s p).maskkey =
      be32 p.key := rfl
@[simp] theorem writeParsed_frame (p : Parsed) (s : State) :
    (writeParsed s p).frame =
      packFrame (BitVec.ofNat 4 p.hdrLen) p.form (opKnown (opcodeOf p.b0)) p.mask p.b0 := rfl
@[simp] theorem writeParsed_plen (p : Parsed) (s : State) :
    (writeParsed s p).plen =
      BitVec.ofNat 32 p.len := rfl
@[simp] theorem writeParsed_consumed (p : Parsed) (s : State) :
    (writeParsed s p).consumed =
      BitVec.ofNat 32 (p.hdrLen + p.len) := rfl
@[simp] theorem writeParsed_keylen (p : Parsed) (s : State) :
    (writeParsed s p).keylen =
      s.keylen := rfl
@[simp] theorem writeParsed_hdrCount (p : Parsed) (s : State) :
    (writeParsed s p).hdrCount =
      s.hdrCount := rfl
@[simp] theorem writeParsed_hdr (p : Parsed) (s : State) : (writeParsed s p).hdr = s.hdr := rfl
@[simp] theorem writeParsed_mem (p : Parsed) (s : State) :
    (writeParsed s p).mem =
      memWrite s.mem (Win.obuf.addr 0) p.payload := rfl
@[simp] theorem writeParsed_resets (p : Parsed) (s : State) :
    (writeParsed s p).resets =
      s.resets := rfl
@[simp] theorem writeParsed_host (p : Parsed) (s : State) : (writeParsed s p).host = s.host := rfl
@[simp] theorem writeParsed_reply (p : Parsed) (s : State) :
    (writeParsed s p).reply =
      s.reply := rfl

end Sys2Proof.Machine
end

