-- ==== Sys2Proof/Laws/Ops.lean ====
section
/-! SUPPORT. What the shared operations do: a buffer read through a buffer write, and every way a command
can end. -/

namespace Sys2Proof.Machine

theorem memByte_congr {s t : State} (hm : t.mem = s.mem) (hr : t.resets = s.resets) (a : Nat) :
    memByte t a = memByte s a := by rw [memByte, memByte, hm, hr]

/-- Inside the written range a byte reads as written. -/
theorem memByte_write_inside {s t : State} {a : Nat} {bs : List Byte} {i : Nat}
    (hm : t.mem = memWrite s.mem a bs) (hi : i < bs.length) : memByte t (a + i) = bs[i] := by
  rw [memByte, hm, memGet_memWrite, if_pos (by omega), Nat.add_sub_cancel_left,
    List.getElem?_eq_getElem hi]
  rfl

/-- Outside the written range a byte reads as before. -/
theorem memByte_write_outside {s t : State} {a : Nat} {bs : List Byte} {c : Nat}
    (hm : t.mem = memWrite s.mem a bs) (hr : t.resets = s.resets)
    (hc : ¬ (a ≤ c ∧ c < a + bs.length)) : memByte t c = memByte s c := by
  rw [memByte, hm, memGet_memWrite, if_neg hc, hr, memByte]

theorem memByte_set_same {s t : State} {a : Nat} {b : Byte} (hm : t.mem = memSet s.mem a b) :
    memByte t a = b := by rw [memByte, hm, memGet_memSet, if_pos rfl]; rfl

theorem memByte_set_other {s t : State} {a c : Nat} {b : Byte} (hm : t.mem = memSet s.mem a b)
    (hr : t.resets = s.resets) (hc : c ≠ a) : memByte t c = memByte s c := by
  rw [memByte, hm, memGet_memSet, if_neg hc, hr, memByte]

theorem addr_eq (w : Win) (i : Nat) : w.addr i = w.addr 0 + i := by simp [Win.addr]

theorem bufByte_write_inside {s t : State} {w : Win} {bs : List Byte} {i : Nat}
    (hm : t.mem = memWrite s.mem (w.addr 0) bs) (hi : i < bs.length) : bufByte t w i = bs[i] := by
  rw [bufByte, addr_eq, memByte_write_inside hm hi]

/-- A write to one window leaves every other window's bytes as they are (R61, R62). -/
theorem bufByte_write_other {s t : State} {w v : Win} {bs : List Byte} {i : Nat}
    (hp : s.params.Legal) (hw : w.InTable s.params) (hv : v.InTable s.params)
    (hlen : bs.length ≤ w.size s.params) (hi : i < v.size s.params) (hne : v ≠ w)
    (hm : t.mem = memWrite s.mem (w.addr 0) bs) (hr : t.resets = s.resets) :
    bufByte t v i = bufByte s v i := by
  refine memByte_write_outside hm hr fun h => hne ?_
  obtain ⟨k, hk⟩ := Nat.exists_eq_add_of_le h.1
  rw [hk] at h
  rw [← addr_eq w k] at hk
  exact (addr_inj hp hv hw hi (by omega) hk).1

@[simp] theorem bufBytes_length (s : State) (w : Win) (n : Nat) : (bufBytes s w n).length = n := by
  simp [bufBytes]

theorem bufBytes_getElem {s : State} {w : Win} {n i : Nat} (hi : i < (bufBytes s w n).length) :
    (bufBytes s w n)[i] = bufByte s w i := by simp [bufBytes]

theorem bufBytes_congr {s t : State} {w : Win} {n : Nat}
    (h : ∀ i, i < n → bufByte t w i = bufByte s w i) : bufBytes t w n = bufBytes s w n := by
  refine List.map_congr_left fun i hi => h i (List.mem_range.1 hi)

/-- A buffer that has just been written holds what was written. -/
theorem bufBytes_written {s t : State} {w : Win} {bs : List Byte}
    (hm : t.mem = memWrite s.mem (w.addr 0) bs) : bufBytes t w bs.length = bs := by
  refine List.ext_getElem (by simp) fun i h1 h2 => ?_
  rw [bufBytes_getElem, bufByte_write_inside hm h2]

/-- Every way a command can end (R235, R236). -/
theorem complete_cases {α : Type} (r : Except CmdError α) (good : α → State) (bad : State) :
    (∃ a, r = .ok a ∧ complete r good bad = succeed (good a)) ∨
    (∃ e, r = .error e ∧ complete r good bad = raise e bad) := by
  cases r with
  | ok a => exact .inl ⟨a, rfl, rfl⟩
  | error e => exact .inr ⟨e, rfl, rfl⟩

@[simp] theorem complete_ok {α : Type} (a : α) (good : α → State) (bad : State) :
    complete (.ok a) good bad = succeed (good a) := rfl

@[simp] theorem complete_error {α : Type} (e : CmdError) (good : α → State) (bad : State) :
    complete (.error e) good bad = raise e bad := rfl

theorem succeeded_succeed (s : State) : Succeeded (succeed s) := ⟨by simp, by simp, rfl⟩

theorem failed_raise (e : CmdError) (s : State) :
    Failed (raise e s) (errorCode e.kind) e.detail e.index :=
  ⟨by simp, by simp, by simp, by simp, by simp, by simp⟩

theorem errorCode_range (k : ErrKind) : 1 ≤ (errorCode k).toNat ∧ (errorCode k).toNat ≤ 8 := by
  cases k <;> decide

/-- `succeed` keeps what its argument keeps of the control state. -/
theorem keepsControl_succeed {s t : State} (h : KeepsControl s t) : KeepsControl s (succeed t) :=
  ⟨h.params, h.cmd, (statusSucceed_rest _ (Nat.le_refl 2)).trans h.statusRest, h.cfgVersion, h.ilen,
    h.hdrCount, h.hdr, h.resets, h.host, h.reply⟩

/-- `raise` keeps what its argument keeps of the control state. -/
theorem keepsControl_raise {s t : State} (e : CmdError) (h : KeepsControl s t) :
    KeepsControl s (raise e t) :=
  ⟨h.params, h.cmd, (statusRaise_rest _ (Nat.le_refl 2)).trans h.statusRest, h.cfgVersion, h.ilen,
    h.hdrCount, h.hdr, h.resets, h.host, h.reply⟩

/-- A written entry of the header table reads as written (R41). -/
theorem hdrLens_set_same {s t : State} {e : Nat} {x : HdrLens} (h : t.hdr = s.hdr.set e x)
    (he : e < s.hdr.length) : hdrLens t e = x := by
  rw [hdrLens, h, List.getD_eq_getElem?_getD, List.getElem?_set_self he]
  rfl

/-- Every other entry reads as before (R41). -/
theorem hdrLens_set_other {s t : State} {e e' : Nat} {x : HdrLens} (h : t.hdr = s.hdr.set e x)
    (hne : e' ≠ e) : hdrLens t e' = hdrLens s e' := by
  rw [hdrLens, h, List.getD_eq_getElem?_getD, List.getElem?_set_ne hne.symm, hdrLens,
    List.getD_eq_getElem?_getD]

end Sys2Proof.Machine
end

