-- ==== Sys2Proof/Laws/Parser.lean ====
section
/-! SUPPORT. The frame parser as one equation over the layout of a frame, and the unmask datapath byte by
byte. -/

namespace Sys2Proof.Machine

theorem unmaskFrom_length (k : List Byte) (i : Nat) (bs : List Byte) :
    (unmaskFrom k i bs).length = bs.length := by
  induction bs generalizing i with
  | nil => rfl
  | cons b bs ih => simp [unmaskFrom, ih]

@[simp] theorem unmaskBytes_length (bs k : List Byte) : (unmaskBytes bs k).length = bs.length :=
  unmaskFrom_length k 0 bs

theorem unmaskFrom_getElem? (k bs : List Byte) (i j : Nat) :
    (unmaskFrom k i bs)[j]? = bs[j]?.map (fun b => b ^^^ k.getD ((i + j) % 4) 0) := by
  induction bs generalizing i j with
  | nil => simp [unmaskFrom]
  | cons b bs ih =>
    cases j with
    | zero => simp [unmaskFrom]
    | succ j => simp only [unmaskFrom, List.getElem?_cons_succ, ih, Nat.add_right_comm, ← Nat.add_assoc]

theorem unmaskBytes_getElem? (bs k : List Byte) (j : Nat) :
    (unmaskBytes bs k)[j]? = bs[j]?.map (fun b => b ^^^ k.getD (j % 4) 0) := by
  rw [unmaskBytes, unmaskFrom_getElem?, Nat.zero_add]

theorem unmaskBytes_getElem {bs k : List Byte} {j : Nat} (hj : j < (unmaskBytes bs k).length) :
    (unmaskBytes bs k)[j] = bs[j]'(by simpa using hj) ^^^ k.getD (j % 4) 0 := by
  have hb : j < bs.length := by simpa using hj
  have h := unmaskBytes_getElem? bs k j
  rw [List.getElem?_eq_getElem hj, List.getElem?_eq_getElem hb] at h
  exact Option.some.inj h

theorem takeBytes_ok {frame : Nat → Byte} {ilen pos n step : Nat} (h : pos + n ≤ ilen) :
    takeBytes frame ilen pos n step =
      .ok ((List.range n).map (fun k => frame (pos + k)), pos + n) := if_neg (by omega)

theorem takeBytes_error {frame : Nat → Byte} {ilen pos n step : Nat} (h : ilen < pos + n) :
    takeBytes frame ilen pos n step = .error ⟨.bufferUnderrun, BitVec.ofNat 8 step, 0⟩ := if_pos h

/-- The masking key as a list (R97). -/
def keyOf (frame : Nat → Byte) : List Byte :=
  [declaredKey frame 0, declaredKey frame 1, declaredKey frame 2, declaredKey frame 3]

theorem keyOf_getD (frame : Nat → Byte) (i : Nat) :
    (keyOf frame).getD (i % 4) 0 = declaredKey frame (i % 4) := by
  have h : i % 4 < 4 := Nat.mod_lt _ (by decide)
  generalize i % 4 = j at h ⊢
  interval_cases j <;> rfl

/-- The raw payload bytes (R98). -/
def rawPayload (frame : Nat → Byte) : List Byte :=
  (List.range (declaredLen frame)).map fun i => frame (headerLen frame + i)

@[simp] theorem rawPayload_length (frame : Nat → Byte) :
    (rawPayload frame).length = declaredLen frame := by simp [rawPayload]

/-- What a complete frame parses to, from its layout alone. -/
def parsedOf (frame : Nat → Byte) : Parsed :=
  ⟨frame 0, maskOf (frame 1), declaredForm frame, headerLen frame, declaredLen frame, keyOf frame,
    unmaskBytes (rawPayload frame) (keyOf frame)⟩

/-- BufferUnderrun at a step (R122). -/
def underrun (step : Nat) : CmdError := ⟨.bufferUnderrun, BitVec.ofNat 8 step, 0⟩

theorem readLength_eq (frame : Nat → Byte) (ilen : Nat) :
    readLength frame ilen 2 (lenIndOf (frame 1)) =
      if ilen < 2 + extBytes frame ∧ extBytes frame ≠ 0 then .error (underrun 3)
      else .ok ⟨declaredLen frame, declaredForm frame, 2 + extBytes frame⟩ := by
  unfold readLength extBytes declaredLen declaredForm
  split
  · split
    · next h => rw [takeBytes_error h.1]; rfl
    · next h => rw [takeBytes_ok (by omega)]; simp [List.range_succ, beNat]
  · split
    · split
      · next h => rw [takeBytes_error h.1]; rfl
      · next h =>
        rw [takeBytes_ok (by omega)]
        have : ∀ a b c d : Nat, (((0 * 256 + a) * 256 + b) * 256 + c) * 256 + d =
          a * 2 ^ 24 + b * 2 ^ 16 + c * 2 ^ 8 + d := by intros; ring
        exact congrArg (fun n => Except.ok (LengthField.mk n 2 6)) (this _ _ _ _)
    · rw [if_neg (by simp)]; rfl

theorem readKey_eq (frame : Nat → Byte) (ilen : Nat) :
    readKey frame ilen (2 + extBytes frame) (maskOf (frame 1)) =
      if ilen < headerLen frame ∧ keySize frame ≠ 0 then .error (underrun 4)
      else .ok (keyOf frame, headerLen frame) := by
  unfold readKey headerLen keySize keyOf declaredKey
  split
  · split
    · next h => rw [takeBytes_error h.1]; rfl
    · next h => rw [takeBytes_ok (by omega)]; simp [List.range_succ]
  · rw [if_neg (by simp)]; rfl

/-- The parser, by the first read step that passes the end (R121, R122). -/
theorem parseFrame_eq (frame : Nat → Byte) (ilen : Nat) :
    parseFrame frame ilen =
      if ilen < 1 then .error (underrun 1)
      else if ilen < 2 then .error (underrun 2)
      else if ilen < 2 + extBytes frame then .error (underrun 3)
      else if ilen < headerLen frame then .error (underrun 4)
      else if ilen < headerLen frame + declaredLen frame then .error (underrun 5)
      else .ok (parsedOf frame) := by
  unfold parseFrame
  split
  · next h => rw [takeBytes_error (by omega)]; rfl
  rw [takeBytes_ok (by omega)]
  split
  · next h =>
    show (takeBytes _ _ _ _ _ >>= _) = _
    rw [takeBytes_error (by simpa using h)]; rfl
  show (takeBytes _ _ _ _ _ >>= _) = _
  rw [takeBytes_ok (show 0 + 1 + 1 ≤ ilen by omega)]
  show (readLength frame ilen 2 (lenIndOf (frame 1)) >>= _) = _
  rw [readLength_eq]
  split
  · next h => rw [if_pos h.1]; rfl
  next h3 =>
  rw [if_neg (by omega)]
  show (readKey frame ilen (2 + extBytes frame) (maskOf (frame 1)) >>= _) = _
  rw [readKey_eq]
  split
  · next h => rw [if_pos h.1]; rfl
  next h4 =>
  rw [if_neg (by simp only [headerLen] at h4 ⊢; omega)]
  show (takeBytes frame ilen (headerLen frame) (declaredLen frame) 5 >>= _) = _
  split
  · next h => rw [takeBytes_error h]; rfl
  · next h => rw [takeBytes_ok (by omega)]; rfl

/-- DECODE on a frame, by its outcome (R121). -/
theorem decodeFrame_cases (frame : Nat → Byte) (s : State) :
    (s.params.ibufSize < s.ilen.toNat ∧
      decodeFrame frame s = raise ⟨.lengthOutOfRange, 1, 0⟩ (clearParsed s)) ∨
    (s.ilen.toNat ≤ s.params.ibufSize ∧
      decodeFrame frame s =
        complete (parseFrame frame s.ilen.toNat) (writeParsed s) (clearParsed s)) := by
  unfold decodeFrame checkIlen
  by_cases h : s.params.ibufSize < s.ilen.toNat
  · exact .inl ⟨h, by rw [if_pos h]; rfl⟩
  · exact .inr ⟨by omega, by rw [if_neg h]; rfl⟩

theorem decodeFrame_complete {frame : Nat → Byte} {s : State}
    (h1 : s.ilen.toNat ≤ s.params.ibufSize)
    (h2 : headerLen frame + declaredLen frame ≤ s.ilen.toNat) :
    decodeFrame frame s = succeed (writeParsed s (parsedOf frame)) := by
  rcases decodeFrame_cases frame s with ⟨h, -⟩ | ⟨-, h⟩
  · omega
  · have h3 : 2 ≤ headerLen frame := by simp only [headerLen]; omega
    have h4 : 2 + extBytes frame ≤ headerLen frame := by simp only [headerLen]; omega
    rw [h, parseFrame_eq]
    repeat rw [if_neg (by omega)]
    rfl

/-- The instructions that run the parser, as one equation. -/
theorem exec_parser {i : Instr} (hi : RunsParser i) (s : State) :
    exec i s = .next (decodeFrame (frameOf i s) s) := by
  cases i with
  | decode => rfl
  | unmask => rcases hi with h | h <;> simp [spaceOf] at h
  | encode => rcases hi with h | h <;> simp [spaceOf] at h
  | validate => rcases hi with h | h <;> simp [spaceOf] at h
  | accept => rcases hi with h | h <;> simp [spaceOf] at h
  | sha1 => rcases hi with h | h <;> simp [spaceOf] at h
  | _ =>
    simp only [exec, frameOf, spaceOf, encode, BitVec.setWidth_setWidth_of_le _ (show 8 ≤ 32 by decide),
      BitVec.setWidth_eq]
    rfl

theorem headerLen_le (frame : Nat → Byte) : headerLen frame ≤ 10 := by
  simp only [headerLen, extBytes, keySize]
  split <;> split <;> (try split) <;> omega

theorem declaredLen_lt (frame : Nat → Byte) : declaredLen frame < 2 ^ 32 := by
  unfold declaredLen
  have h2 := (frame 2).isLt
  have h3 := (frame 3).isLt
  have h4 := (frame 4).isLt
  have h5 := (frame 5).isLt
  have := (lenIndOf (frame 1)).isLt
  split
  · omega
  · split <;> omega

/-- The layout depends on the header's own bytes only. -/
theorem layout_congr {f g : Nat → Byte} {n : Nat} (h : ∀ j, j < n → g j = f j) :
    (2 ≤ n → extBytes g = extBytes f ∧ declaredForm g = declaredForm f ∧ keySize g = keySize f ∧
      headerLen g = headerLen f) ∧
    (2 ≤ n → 2 + extBytes f ≤ n → declaredLen g = declaredLen f) := by
  refine ⟨fun h2 => ?_, fun h2 hx => ?_⟩
  · have h1 := h 1 (by omega)
    simp only [headerLen, extBytes, declaredForm, keySize, h1, and_self]
  · have h1 := h 1 (by omega)
    unfold declaredLen
    simp only [extBytes] at hx
    rw [h1]
    split
    · next hi =>
      rw [if_pos hi] at hx
      rw [h 2 (by omega), h 3 (by omega)]
    · next hi =>
      rw [if_neg hi] at hx
      split
      · next hj =>
        rw [if_pos hj] at hx
        rw [h 2 (by omega), h 3 (by omega), h 4 (by omega), h 5 (by omega)]
      · rfl

end Sys2Proof.Machine
end

