-- ==== Sys2Proof/Laws/Sha1.lean ====
section
/-! SUPPORT. The lengths of digests and Base64 texts. -/

namespace Sys2Proof.Machine

@[simp] theorem digestBytes_length (h : Chain) : (digestBytes h).length = 20 := rfl

@[simp] theorem sha1_length (m : List Byte) : (sha1 m).length = 20 := digestBytes_length _

@[simp] theorem groupChars_length (n : BitVec 24) : (groupChars n).length = 4 := rfl

theorem base64_length : ∀ d : List Byte, (base64 d).length = 4 * ((d.length + 2) / 3)
  | [] => rfl
  | [_] => by simp [base64]
  | [_, _] => by simp [base64]
  | d0 :: d1 :: d2 :: rest => by
    rw [base64, List.length_append, groupChars_length, base64_length rest]
    simp only [List.length_cons]
    omega

theorem padMessage_length (m : List Byte) :
    (padMessage m).length = m.length + 1 + padZeros m.length + 8 := by
  simp [padMessage, be64Bytes]; omega

end Sys2Proof.Machine
end

