-- ==== Sys2Proof/Laws/Validator.lean ====
section
/-! SUPPORT. The validator's checks as equations, and the length of a trimmed key. -/

namespace Sys2Proof.Machine

theorem trimLeft_length_le (bs : List Byte) : (trimLeft bs).length ≤ bs.length := by
  induction bs with
  | nil => exact Nat.le_refl _
  | cons b bs ih =>
    rw [trimLeft]
    split
    · exact Nat.le_succ_of_le ih
    · exact Nat.le_refl _

theorem trim_length_le (bs : List Byte) : (trim bs).length ≤ bs.length := by
  rw [trim, List.length_reverse]
  refine (trimLeft_length_le _).trans ?_
  rw [List.length_reverse]
  exact trimLeft_length_le bs

/-- `trimLeft` removes a whitespace prefix and stops at a byte that is no whitespace (R172). -/
theorem trimLeft_spec (bs : List Byte) :
    ∃ pre, bs = pre ++ trimLeft bs ∧ (∀ b ∈ pre, isSpace b = true) ∧
      ∀ b ∈ (trimLeft bs).head?, isSpace b = false := by
  induction bs with
  | nil => exact ⟨[], rfl, by simp, by simp [trimLeft]⟩
  | cons b bs ih =>
    obtain ⟨pre, h1, h2, h3⟩ := ih
    rw [trimLeft]
    split
    · next hb => exact ⟨b :: pre, by rw [List.cons_append, ← h1], by simpa [hb] using h2, h3⟩
    · next hb => exact ⟨[], rfl, by simp, by simpa using hb⟩

theorem startsWith_iff (bs t : List Byte) : startsWith bs t = true ↔ ∃ v, bs = t ++ v := by
  induction t generalizing bs with
  | nil => cases bs <;> simp [startsWith]
  | cons c t ih =>
    cases bs with
    | nil => simp [startsWith]
    | cons b bs =>
      simp only [startsWith, Bool.and_eq_true, beq_iff_eq, ih, List.cons_append, List.cons.injEq]
      constructor
      · rintro ⟨rfl, v, rfl⟩; exact ⟨v, rfl, rfl⟩
      · rintro ⟨v, rfl, rfl⟩; exact ⟨rfl, v, rfl⟩

/-- What VALIDATE has passed when it succeeds: PreCheck, and the key's entry (R180, R181). -/
theorem validateTable_ok {s : State} {k : List Byte} (h : validateTable s = .ok k) :
    preCheck s = .ok () ∧ ∃ e, lookupHeader s strKey = some e ∧ k = trim (headerValue s e) := by
  unfold validateTable at h
  cases h0 : preCheck s with
  | error e => rw [h0] at h; cases h
  | ok u =>
    rw [h0] at h
    cases h1 : checkUpgrade s with
    | error e => rw [h1] at h; cases h
    | ok _ =>
      rw [h1] at h
      cases h2 : checkConnection s with
      | error e => rw [h2] at h; cases h
      | ok _ =>
        rw [h2] at h
        cases h3 : checkVersion s with
        | error e => rw [h3] at h; cases h
        | ok _ =>
          rw [h3] at h
          change checkKey s = .ok k at h
          refine ⟨rfl, ?_⟩
          unfold checkKey requireHeader at h
          cases h4 : lookupHeader s strKey with
          | none => rw [h4] at h; cases h
          | some e =>
            rw [h4] at h
            refine ⟨e, rfl, ?_⟩
            change (requireValue _ _ e >>= fun _ => _) = _ at h
            unfold requireValue at h
            split at h
            · cases h; rfl
            · cases h

/-- A found entry is below HDR_COUNT and its name matches (R175). -/
theorem lookupHeader_some {s : State} {t : List Byte} {e : Nat} (h : lookupHeader s t = some e) :
    e < s.hdrCount.toNat ∧ nameIs s t e = true := by
  unfold lookupHeader at h
  exact ⟨List.mem_range.1 (List.mem_of_find?_eq_some h), List.find?_some h⟩

/-- PreCheck passes exactly when every length fits (R181). -/
theorem preCheck_ok_iff (s : State) : preCheck s = .ok () ↔ TableFits s := by
  unfold preCheck TableFits
  split
  · next h => simp; omega
  · next h =>
    refine Iff.trans (b := List.findSome? (preCheckEntry s) (List.range s.hdrCount.toNat) = none)
      (by cases List.findSome? (preCheckEntry s) (List.range s.hdrCount.toNat) <;> simp) ?_
    rw [List.findSome?_eq_none_iff]
    simp only [List.mem_range]
    constructor
    · intro hall
      refine ⟨by omega, fun e he => ?_⟩
      have := hall e he
      unfold preCheckEntry at this
      split at this
      · cases this
      · split at this
        · cases this
        · omega
    · rintro ⟨-, hall⟩ e he
      have := hall e he
      unfold preCheckEntry
      rw [if_neg (by omega), if_neg (by omega)]

end Sys2Proof.Machine
end

