-- ==== Sys2Proof/Laws/Exec.lean ====
section
/-! SUPPORT. Said once: every way an instruction can end, and what one step of the machine can do. The
provers cite these instead of unfolding the meanings. -/

namespace Sys2Proof.Machine

/-- The registers that R47 gives an instruction no write to. -/
structure KeepsRegs (i : Instr) (s u : State) : Prop where
  control : KeepsControl s u
  frameRegs : ¬ RunsParser i → KeepsFrameRegs s u
  keylen : i ≠ .validate → u.keylen = s.keylen
  olen : i = .validate ∨ i = .accept ∨ i = .sha1 → u.olen = s.olen

/-- What a successful instruction has done before its outcome is recorded: it kept those registers, and of
memory wrote one of its output windows from byte 0 on, or two in turn, each by the bytes R47 gives it and,
for legal parameters, within the window. -/
structure Wrote (i : Instr) (s u : State) : Prop where
  regs : KeepsRegs i s u
  memory : ∃ (w w' : Win) (bs bs' : List Byte), WritesWindow i w ∧ WritesWindow i w' ∧
    bs.length ≤ bytesWritten u w ∧ bs'.length ≤ bytesWritten u w' ∧
    (s.params.Legal → bs.length ≤ w.size s.params ∧ bs'.length ≤ w'.size s.params) ∧
    u.mem = memWrite (memWrite s.mem (w.addr 0) bs) (w'.addr 0) bs'

theorem keepsControl_refl (s : State) : KeepsControl s s :=
  ⟨rfl, rfl, rfl, rfl, rfl, rfl, rfl, rfl, rfl, rfl⟩

theorem writesWindow_inTable {i : Instr} {w : Win} (p : Params) (h : WritesWindow i w) :
    w.InTable p := by
  rcases h with ⟨rfl, -⟩ | ⟨rfl, -⟩ | ⟨rfl, -⟩ | ⟨rfl, -⟩ <;> trivial

theorem runsParser_of_space {i : Instr} (h : spaceOf i ≠ .cmd32) : RunsParser i := .inr h

theorem failureOutputs_parser {i : Instr} (h : RunsParser i) (s : State) :
    failureOutputs i s = clearParsed s := by
  cases i with
  | unmask => rcases h with h | h <;> simp [spaceOf] at h
  | encode => rcases h with h | h <;> simp [spaceOf] at h
  | validate => rcases h with h | h <;> simp [spaceOf] at h
  | accept => rcases h with h | h <;> simp [spaceOf] at h
  | sha1 => rcases h with h | h <;> simp [spaceOf] at h
  | _ => rfl

/-- The parser's outcomes (R121, R122). -/
theorem decodeFrame_outcome (frame : Nat → Byte) (s : State) :
    (∃ e, decodeFrame frame s = raise e (clearParsed s)) ∨
    (s.ilen.toNat ≤ s.params.ibufSize ∧ headerLen frame + declaredLen frame ≤ s.ilen.toNat ∧
      decodeFrame frame s = succeed (writeParsed s (parsedOf frame))) := by
  rcases decodeFrame_cases frame s with ⟨-, h⟩ | ⟨h0, h⟩
  · exact .inl ⟨_, h⟩
  · by_cases hc : headerLen frame + declaredLen frame ≤ s.ilen.toNat
    · exact .inr ⟨h0, hc, decodeFrame_complete h0 hc⟩
    · left
      rw [h, parseFrame_eq, if_pos (show s.ilen.toNat < headerLen frame + declaredLen frame by omega)]
      repeat first | exact ⟨_, rfl⟩ | split

theorem parser_or_command (i : Instr) :
    RunsParser i ∨ i = .unmask ∨ i = .encode ∨ i = .validate ∨ i = .accept ∨ i = .sha1 := by
  cases i <;> simp [RunsParser, spaceOf]

/-- What a command wrote, from the registers it kept and its one window. -/
theorem wrote_one {i : Instr} {s u : State} {w : Win} {bs : List Byte} (hw : WritesWindow i w)
    (hout : bs.length ≤ bytesWritten u w) (hlen : s.params.Legal → bs.length ≤ w.size s.params)
    (hk : KeepsRegs i s u)
    (hm : u.mem = memWrite s.mem (w.addr 0) bs) : Wrote i s u :=
  ⟨hk, w, w, bs, [], hw, hw, hout, Nat.zero_le _, fun hp => ⟨hlen hp, Nat.zero_le _⟩, hm⟩

/-- DECODE's outputs keep the control state. -/
theorem keepsControl_writeParsed (s : State) (p : Parsed) : KeepsControl s (writeParsed s p) :=
  ⟨rfl, rfl, rfl, rfl, rfl, rfl, rfl, rfl, rfl, rfl⟩

theorem keepsRegs_parser {i : Instr} {s u : State} (h : RunsParser i) (hc : KeepsControl s u)
    (hk : u.keylen = s.keylen) : KeepsRegs i s u := by
  refine ⟨hc, fun hn => absurd h hn, fun _ => hk, ?_⟩
  rintro (rfl | rfl | rfl) <;> rcases h with h | h <;> simp [spaceOf] at h

theorem wrote_parser {i : Instr} {s : State} {frame : Nat → Byte} (h : RunsParser i)
    (h1 : s.ilen.toNat ≤ s.params.ibufSize)
    (h2 : headerLen frame + declaredLen frame ≤ s.ilen.toNat) :
    Wrote i s (writeParsed s (parsedOf frame)) := by
  refine wrote_one (w := .obuf) (.inl ⟨rfl, .inl h⟩) ?_ ?_
    (keepsRegs_parser h (keepsControl_writeParsed s _) rfl) rfl
  · simp only [parsedOf, unmaskBytes_length, rawPayload_length, bytesWritten, writeParsed,
      BitVec.toNat_ofNat]
    omega
  · intro _
    simp only [parsedOf, unmaskBytes_length, rawPayload_length, Win.size]
    omega

/-- UNMASK's output state. -/
def unmasked (s : State) : State :=
  { writeBuf .obuf (unmaskBytes (inputBytes s) (keyBytes s.maskkey)) s with olen := s.ilen }

/-- UNMASK, by its outcome (R123). -/
theorem exec_unmask (s : State) :
    exec .unmask s = .next
      (if s.params.ibufSize < s.ilen.toNat then raise ⟨.lengthOutOfRange, 1, 0⟩ { s with olen := 0 }
       else succeed (unmasked s)) := by
  show execUnmask s = _
  unfold execUnmask checkIlen
  split <;> rfl

theorem wrote_unmasked {s : State} (h : ¬ s.params.ibufSize < s.ilen.toNat) :
    Wrote .unmask s (unmasked s) := by
  refine wrote_one (w := .obuf) (bs := unmaskBytes (inputBytes s) (keyBytes s.maskkey))
    (.inl ⟨rfl, .inr (.inl rfl)⟩) ?_ ?_
    ⟨⟨rfl, rfl, rfl, rfl, rfl, rfl, rfl, rfl, rfl, rfl⟩, fun _ => ⟨rfl, rfl, rfl, rfl⟩,
      fun _ => rfl, by simp⟩ rfl
  · simp [inputBytes, unmasked, bytesWritten]
  · intro _
    simp only [unmaskBytes_length, inputBytes, bufBytes_length, Win.size]
    omega

/-- ENCODE's output state. -/
def encoded (s : State) : State :=
  { writeBuf .obuf (textFrame (inputBytes s)) s with olen := s.ilen + 2 }

/-- ENCODE, by its outcome (R160). -/
theorem exec_encode (s : State) :
    exec .encode s = .next
      (if 126 ≤ s.ilen.toNat then raise ⟨.payloadTooLarge, 0, 0⟩ { s with olen := 0 }
       else succeed (encoded s)) := by
  show execEncode s = _
  unfold execEncode checkPayload
  split <;> rfl

theorem wrote_encoded {s : State} (h : ¬ 126 ≤ s.ilen.toNat) :
    Wrote .encode s (encoded s) := by
  refine wrote_one (w := .obuf) (bs := textFrame (inputBytes s)) (.inl ⟨rfl, .inr (.inr rfl)⟩) ?_ ?_
    ⟨⟨rfl, rfl, rfl, rfl, rfl, rfl, rfl, rfl, rfl, rfl⟩, fun _ => ⟨rfl, rfl, rfl, rfl⟩,
      fun _ => rfl, by simp⟩ rfl
  · simp only [textFrame, List.length_cons, inputBytes, bufBytes_length, encoded, bytesWritten,
      BitVec.toNat_add, show (2 : Word).toNat = 2 from rfl]
    omega
  · intro hp
    simp only [textFrame, List.length_cons, inputBytes, bufBytes_length, Win.size]
    omega

/-- VALIDATE's output state for the trimmed key `k`. -/
def validated (s : State) (k : List Byte) : State :=
  { writeBuf .keybuf k s with keylen := BitVec.ofNat 32 k.length }

/-- VALIDATE, by its checks (R180). -/
theorem exec_validate (s : State) :
    exec .validate s = .next (complete (validateTable s) (validated s) { s with keylen := 0 }) := rfl

/-- The key of a successful VALIDATE fits KEYBUF (R181). -/
theorem validated_key_length {s : State} {k : List Byte} (h : validateTable s = .ok k) :
    k.length ≤ s.params.hvalMax := by
  obtain ⟨h1, e, h2, rfl⟩ := validateTable_ok h
  have h3 := ((preCheck_ok_iff s).1 h1).2 e (lookupHeader_some h2).1
  refine (trim_length_le _).trans ?_
  rw [headerValue, bufBytes_length]
  exact h3.2

/-- KEYLEN holds the key's length whole (log 11). -/
theorem validated_keylen {s : State} {k : List Byte} (h : validateTable s = .ok k) :
    (validated s k).keylen.toNat = k.length := by
  obtain ⟨-, e, -, rfl⟩ := validateTable_ok h
  refine (BitVec.toNat_ofNat _ _).trans (Nat.mod_eq_of_lt ?_)
  refine Nat.lt_of_le_of_lt (trim_length_le _) ?_
  rw [headerValue, bufBytes_length]
  exact BitVec.isLt _

theorem wrote_validated {s : State} {k : List Byte} (h : validateTable s = .ok k) :
    Wrote .validate s (validated s k) :=
  wrote_one (w := .keybuf) (bs := k) (.inr (.inl ⟨rfl, rfl⟩))
    (Nat.le_of_eq (validated_keylen h).symm) (fun _ => validated_key_length h)
    ⟨⟨rfl, rfl, rfl, rfl, rfl, rfl, rfl, rfl, rfl, rfl⟩, fun _ => ⟨rfl, rfl, rfl, rfl⟩,
      fun h => absurd rfl h, fun _ => rfl⟩
    rfl

/-- SHA1, by its outcome (R210). -/
theorem exec_sha1 (s : State) :
    exec .sha1 s = .next
      (if s.params.ibufSize < s.ilen.toNat then raise ⟨.lengthOutOfRange, 1, 0⟩ s
       else succeed (writeBuf .digest (sha1 (inputBytes s)) s)) := by
  show execSha1 s = _
  unfold execSha1 checkIlen
  split <;> rfl

theorem wrote_digest (s : State) (d : List Byte) (hd : d.length = 20) :
    Wrote .sha1 s (writeBuf .digest d s) :=
  wrote_one (w := .digest) (bs := d) (.inr (.inr (.inl ⟨rfl, .inr rfl⟩))) (Nat.le_of_eq hd)
    (fun _ => Nat.le_of_eq hd)
    ⟨⟨rfl, rfl, rfl, rfl, rfl, rfl, rfl, rfl, rfl, rfl⟩, fun _ => ⟨rfl, rfl, rfl, rfl⟩,
      fun _ => rfl, fun _ => rfl⟩ rfl

/-- ACCEPT, by its outcome (R211). -/
theorem exec_accept (s : State) :
    exec .accept s = .next
      (if s.params.hvalMax < s.keylen.toNat then raise ⟨.lengthOutOfRange, 2, 0⟩ s
       else succeed (writeToken (sha1 (acceptMessage s)) s)) := by
  show execAccept s = _
  unfold execAccept checkKeylen
  split <;> rfl

theorem wrote_token (s : State) (d : List Byte) (hd : d.length = 20) :
    Wrote .accept s (writeToken d s) := by
  have ht : (base64 d).length ≤ 28 := by rw [base64_length, hd]
  exact ⟨⟨⟨rfl, rfl, rfl, rfl, rfl, rfl, rfl, rfl, rfl, rfl⟩, fun _ => ⟨rfl, rfl, rfl, rfl⟩,
      fun _ => rfl, fun _ => rfl⟩,
    .digest, .token, d, base64 d, .inr (.inr (.inl ⟨rfl, .inl rfl⟩)), .inr (.inr (.inr ⟨rfl, rfl⟩)),
    Nat.le_of_eq hd, ht, fun _ => ⟨Nat.le_of_eq hd, ht⟩, rfl⟩

/-- Every way an instruction can end (R235, R236): an error with the instruction's failure outputs, or
success after writing its output window. -/
theorem exec_outcome (i : Instr) (s : State) :
    (∃ e, exec i s = .next (raise e (failureOutputs i s))) ∨
    (∃ u, exec i s = .next (succeed u) ∧ Wrote i s u) := by
  rcases parser_or_command i with h | rfl | rfl | rfl | rfl | rfl
  · rw [exec_parser h, failureOutputs_parser h]
    rcases decodeFrame_outcome (frameOf i s) s with ⟨e, he⟩ | ⟨h1, h2, he⟩
    · exact .inl ⟨e, congrArg _ he⟩
    · exact .inr ⟨_, congrArg _ he, wrote_parser h h1 h2⟩
  · rw [exec_unmask]
    split
    · exact .inl ⟨_, rfl⟩
    · next h => exact .inr ⟨_, rfl, wrote_unmasked h⟩
  · rw [exec_encode]
    split
    · exact .inl ⟨_, rfl⟩
    · next h => exact .inr ⟨_, rfl, wrote_encoded h⟩
  · rw [exec_validate]
    rcases complete_cases (validateTable s) (validated s) { s with keylen := 0 } with
      ⟨k, hk, he⟩ | ⟨e, _, he⟩
    · exact .inr ⟨_, congrArg _ he, wrote_validated hk⟩
    · exact .inl ⟨e, congrArg _ he⟩
  · rw [exec_accept]
    split
    · exact .inl ⟨_, rfl⟩
    · exact .inr ⟨_, rfl, wrote_token s _ (sha1_length _)⟩
  · rw [exec_sha1]
    split
    · exact .inl ⟨_, rfl⟩
    · exact .inr ⟨_, rfl, wrote_digest s _ (sha1_length _)⟩

/-- The failure outputs keep the registers R47 gives the instruction no write to, and every byte (R236). -/
theorem failureOutputs_keeps (i : Instr) (s : State) :
    KeepsRegs i s (failureOutputs i s) ∧ (failureOutputs i s).mem = s.mem := by
  have hc := keepsControl_refl s
  rcases parser_or_command i with h | rfl | rfl | rfl | rfl | rfl
  · rw [failureOutputs_parser h]
    exact ⟨keepsRegs_parser h ⟨rfl, rfl, rfl, rfl, rfl, rfl, rfl, rfl, rfl, rfl⟩ rfl, rfl⟩
  all_goals
    exact ⟨⟨⟨hc.1, hc.2, hc.3, hc.4, hc.5, hc.6, hc.7, hc.8, hc.9, hc.10⟩,
      fun _ => ⟨rfl, rfl, rfl, rfl⟩, by simp [failureOutputs], by simp [failureOutputs]⟩, rfl⟩

/-- One step, by the host's next event (R6, R60). -/
theorem step_cases (s : State) :
    (s.host = [] ∧ step s = .next s) ∨
    (∃ ev rest, s.host = ev :: rest ∧
      ((∃ t, hostEvent ev { s with host := rest } = .quiet t ∧ step s = .next t) ∨
       (∃ w t, hostEvent ev { s with host := rest } = .command w t ∧ step s = issue w t))) := by
  unfold step
  cases h : s.host with
  | nil => exact .inl ⟨rfl, rfl⟩
  | cons ev rest =>
    refine .inr ⟨ev, rest, rfl, ?_⟩
    cases h2 : hostEvent ev { s with host := rest } with
    | quiet t => exact .inl ⟨t, rfl, by simp only [h2]⟩
    | command w t => exact .inr ⟨w, t, rfl, by simp only [h2]⟩

/-- A command is issued by an admitted write to CMD alone (R22, R63). -/
theorem write32_cases (a : Addr) (v : Word) (s : State) :
    (locate s.params a.toNat = .reg .cmd ∧
      write32 a v s = .command v { s with cmd := v, reply := none }) ∨
    (∃ r, locate s.params a.toNat = .reg r ∧ r.writable = true ∧ r ≠ .cmd ∧
      write32 a v s = .quiet (replyWith none (writeReg r v s))) ∨
    ((∀ r, locate s.params a.toNat = .reg r → r.writable = false) ∧
      write32 a v s = .quiet (replyWith none (accessError s))) := by
  unfold write32
  cases h : locate s.params a.toNat with
  | byte w i => exact .inr (.inr ⟨by simp, rfl⟩)
  | reserved => exact .inr (.inr ⟨by simp, rfl⟩)
  | reg r =>
    by_cases hw : r.writable = true
    · by_cases hc : r = .cmd
      · subst hc; exact .inl ⟨rfl, rfl⟩
      · exact .inr (.inl ⟨r, rfl, hw, hc, by simp [hw, hc]⟩)
    · refine .inr (.inr ⟨by simpa using hw, by simp [hw]⟩)

/-- CMD stands at address 0x004 whatever the parameters (R61). -/
theorem hostEvent_command (w : Word) (s : State) :
    hostEvent (.access (.wr32 0x004 w)) s = .command w { s with cmd := w, reply := none } := rfl

/-- A host write to CMD issues its word in the same step (R22, R237). -/
theorem step_command {s : State} {w : Word} {rest : List HostEvent}
    (h : s.host = .access (.wr32 0x004 w) :: rest) :
    step s = issue w { s with host := rest, cmd := w, reply := none } := by
  unfold step
  rw [h]
  rfl

end Sys2Proof.Machine
end

