-- ==== Sys2Proof/Laws/PerInstr.lean ====
section
/-! SUPPORT. Statements about each instruction as syntax, one lemma per constructor. -/

namespace Sys2Proof.Laws

/-- A frame row's encoding is one byte, a command's is its code (R90, R93). -/
def EncodingFits.Statement (i : Instr) : Prop :=
  (encode i).toNat < if spaceOf i = .cmd32 then 7 else 256

theorem EncodingFits.decode : EncodingFits.Statement .decode := by
  unfold EncodingFits.Statement; decide
theorem EncodingFits.unmask : EncodingFits.Statement .unmask := by
  unfold EncodingFits.Statement; decide
theorem EncodingFits.encode : EncodingFits.Statement .encode := by
  unfold EncodingFits.Statement; decide
theorem EncodingFits.validate : EncodingFits.Statement .validate := by
  unfold EncodingFits.Statement; decide
theorem EncodingFits.accept : EncodingFits.Statement .accept := by
  unfold EncodingFits.Statement; decide
theorem EncodingFits.sha1 : EncodingFits.Statement .sha1 := by
  unfold EncodingFits.Statement; decide
theorem EncodingFits.frameOpContinuation (fin : Bool) (rsv : BitVec 3) :
    EncodingFits.Statement (.frameOpContinuation fin rsv) := by
  revert fin rsv; unfold EncodingFits.Statement; decide
theorem EncodingFits.frameOpText (fin : Bool) (rsv : BitVec 3) :
    EncodingFits.Statement (.frameOpText fin rsv) := by
  revert fin rsv; unfold EncodingFits.Statement; decide
theorem EncodingFits.frameOpBinary (fin : Bool) (rsv : BitVec 3) :
    EncodingFits.Statement (.frameOpBinary fin rsv) := by
  revert fin rsv; unfold EncodingFits.Statement; decide
theorem EncodingFits.frameOpUnnamed3 (fin : Bool) (rsv : BitVec 3) :
    EncodingFits.Statement (.frameOpUnnamed3 fin rsv) := by
  revert fin rsv; unfold EncodingFits.Statement; decide
theorem EncodingFits.frameOpUnnamed4 (fin : Bool) (rsv : BitVec 3) :
    EncodingFits.Statement (.frameOpUnnamed4 fin rsv) := by
  revert fin rsv; unfold EncodingFits.Statement; decide
theorem EncodingFits.frameOpUnnamed5 (fin : Bool) (rsv : BitVec 3) :
    EncodingFits.Statement (.frameOpUnnamed5 fin rsv) := by
  revert fin rsv; unfold EncodingFits.Statement; decide
theorem EncodingFits.frameOpUnnamed6 (fin : Bool) (rsv : BitVec 3) :
    EncodingFits.Statement (.frameOpUnnamed6 fin rsv) := by
  revert fin rsv; unfold EncodingFits.Statement; decide
theorem EncodingFits.frameOpUnnamed7 (fin : Bool) (rsv : BitVec 3) :
    EncodingFits.Statement (.frameOpUnnamed7 fin rsv) := by
  revert fin rsv; unfold EncodingFits.Statement; decide
theorem EncodingFits.frameOpClose (fin : Bool) (rsv : BitVec 3) :
    EncodingFits.Statement (.frameOpClose fin rsv) := by
  revert fin rsv; unfold EncodingFits.Statement; decide
theorem EncodingFits.frameOpPing (fin : Bool) (rsv : BitVec 3) :
    EncodingFits.Statement (.frameOpPing fin rsv) := by
  revert fin rsv; unfold EncodingFits.Statement; decide
theorem EncodingFits.frameOpPong (fin : Bool) (rsv : BitVec 3) :
    EncodingFits.Statement (.frameOpPong fin rsv) := by
  revert fin rsv; unfold EncodingFits.Statement; decide
theorem EncodingFits.frameOpUnnamedB (fin : Bool) (rsv : BitVec 3) :
    EncodingFits.Statement (.frameOpUnnamedB fin rsv) := by
  revert fin rsv; unfold EncodingFits.Statement; decide
theorem EncodingFits.frameOpUnnamedC (fin : Bool) (rsv : BitVec 3) :
    EncodingFits.Statement (.frameOpUnnamedC fin rsv) := by
  revert fin rsv; unfold EncodingFits.Statement; decide
theorem EncodingFits.frameOpUnnamedD (fin : Bool) (rsv : BitVec 3) :
    EncodingFits.Statement (.frameOpUnnamedD fin rsv) := by
  revert fin rsv; unfold EncodingFits.Statement; decide
theorem EncodingFits.frameOpUnnamedE (fin : Bool) (rsv : BitVec 3) :
    EncodingFits.Statement (.frameOpUnnamedE fin rsv) := by
  revert fin rsv; unfold EncodingFits.Statement; decide
theorem EncodingFits.frameOpUnnamedF (fin : Bool) (rsv : BitVec 3) :
    EncodingFits.Statement (.frameOpUnnamedF fin rsv) := by
  revert fin rsv; unfold EncodingFits.Statement; decide
theorem EncodingFits.frameLen7 (mask : Bool) (lenInd : BitVec 7) :
    EncodingFits.Statement (.frameLen7 mask lenInd) := by
  show BitVec.toNat (BitVec.setWidth 32 (frameByte1 mask lenInd)) < 256
  rw [BitVec.toNat_setWidth_of_le (by decide)]
  exact (frameByte1 mask lenInd).isLt
theorem EncodingFits.frameLen16 (mask : Bool) : EncodingFits.Statement (.frameLen16 mask) := by
  revert mask; unfold EncodingFits.Statement; decide
theorem EncodingFits.frameLen32 (mask : Bool) : EncodingFits.Statement (.frameLen32 mask) := by
  revert mask; unfold EncodingFits.Statement; decide

end Sys2Proof.Laws
end

