-- ==== Sys2Proof/Tests/Slice0.lean ====
section
/-! SUPPORT. Tests: the WellFormed smoke, words written out from the spec's encodings, the worked vectors of
95_test_vectors.md on one step each, and for every obligation with hypotheses a state that meets them all.
Every expected value is the spec's (the vector is named) or is worked out by hand from the rule named. -/

-- One thread: each thread of the compile takes a large stack of its own.
set_option Elab.async false

namespace Sys2Proof.Tests

open Sys2Proof Sys2Proof.Machine

/-! ### Helpers -/

/-- The state an outcome answers, if it is one. -/
def after : Host.Outcome State Fault Refusal → Option State
  | .next t => some t
  | .fault _ => none
  | .refused _ => none

/-- `f` of the state an outcome answers. -/
def look {α : Type} (o : Host.Outcome State Fault Refusal) (f : State → α) : Option α :=
  (after o).map f

theorem next_of_look {o : Host.Outcome State Fault Refusal} {t : State} (h : after o = some t) :
    o = .next t := by
  cases o with
  | next s => exact congrArg _ (Option.some.inj h)
  | fault r => cases h
  | refused r => cases h

/-- The reset state with the bytes in IBUF and their count in ILEN. -/
def withInput (bs : List Byte) : State :=
  { writeBuf .ibuf bs State.reset with ilen := BitVec.ofNat 32 bs.length }

/-- The reset state with the bytes in KEYBUF and their count in KEYLEN. -/
def withKey (bs : List Byte) : State :=
  { writeBuf .keybuf bs State.reset with keylen := BitVec.ofNat 32 bs.length }

/-- The header table's entries from `e` on, as the SETHDR macro writes them (R107). -/
def loadHeaders : Nat → List (List Byte × List Byte) → State → State
  | _, [], s => s
  | e, (n, v) :: rest, s =>
    loadHeaders (e + 1) rest
      { writeBuf (.hval e) v (writeBuf (.hname e) n s) with
        hdr := s.hdr.set e ⟨BitVec.ofNat 32 n.length, BitVec.ofNat 32 v.length⟩ }

/-- The reset state with a header table. -/
def withHeaders (hs : List (List Byte × List Byte)) : State :=
  { loadHeaders 0 hs State.reset with hdrCount := BitVec.ofNat 32 hs.length }

/-- The reset state with one host event pending. -/
def pending (ev : HostEvent) : State := { State.reset with host := [ev] }

/-- `Upgrade: websocket`. -/
def hUpgrade : List Byte × List Byte :=
  ([0x55, 0x70, 0x67, 0x72, 0x61, 0x64, 0x65],
   [0x77, 0x65, 0x62, 0x73, 0x6F, 0x63, 0x6B, 0x65, 0x74])

/-- `Connection: Upgrade`. -/
def hConnection : List Byte × List Byte :=
  ([0x43, 0x6F, 0x6E, 0x6E, 0x65, 0x63, 0x74, 0x69, 0x6F, 0x6E],
   [0x55, 0x70, 0x67, 0x72, 0x61, 0x64, 0x65])

/-- `connection: keep-alive, Upgrade`. -/
def hKeepAliveUpgrade : List Byte × List Byte :=
  ([0x63, 0x6F, 0x6E, 0x6E, 0x65, 0x63, 0x74, 0x69, 0x6F, 0x6E],
   [0x6B, 0x65, 0x65, 0x70, 0x2D, 0x61, 0x6C, 0x69, 0x76, 0x65, 0x2C, 0x20, 0x55, 0x70, 0x67, 0x72, 0x61, 0x64, 0x65])

/-- `connection: keep-alive`. -/
def hKeepAlive : List Byte × List Byte :=
  ([0x63, 0x6F, 0x6E, 0x6E, 0x65, 0x63, 0x74, 0x69, 0x6F, 0x6E],
   [0x6B, 0x65, 0x65, 0x70, 0x2D, 0x61, 0x6C, 0x69, 0x76, 0x65])

/-- `Sec-WebSocket-Version: 13`. -/
def hVersion : List Byte × List Byte :=
  ([0x53, 0x65, 0x63, 0x2D, 0x57, 0x65, 0x62, 0x53, 0x6F, 0x63, 0x6B, 0x65, 0x74, 0x2D, 0x56, 0x65, 0x72, 0x73, 0x69, 0x6F, 0x6E],
   [0x31, 0x33])

/-- `Sec-WebSocket-Version: 013`. -/
def hVersion013 : List Byte × List Byte :=
  ([0x53, 0x65, 0x63, 0x2D, 0x57, 0x65, 0x62, 0x53, 0x6F, 0x63, 0x6B, 0x65, 0x74, 0x2D, 0x56, 0x65, 0x72, 0x73, 0x69, 0x6F, 0x6E],
   [0x30, 0x31, 0x33])

/-- `Sec-WebSocket-Key: dGhlIHNhbXBsZSBub25jZQ==`. -/
def hKey : List Byte × List Byte :=
  ([0x53, 0x65, 0x63, 0x2D, 0x57, 0x65, 0x62, 0x53, 0x6F, 0x63, 0x6B, 0x65, 0x74, 0x2D, 0x4B, 0x65, 0x79],
   [0x64, 0x47, 0x68, 0x6C, 0x49, 0x48, 0x4E, 0x68, 0x62, 0x58, 0x42, 0x73, 0x5A, 0x53, 0x42, 0x75, 0x62, 0x32, 0x35, 0x6A, 0x5A, 0x51, 0x3D, 0x3D])

/-- `Sec-WebSocket-Key:   `. -/
def hKeyBlank : List Byte × List Byte :=
  ([0x53, 0x65, 0x63, 0x2D, 0x57, 0x65, 0x62, 0x53, 0x6F, 0x63, 0x6B, 0x65, 0x74, 0x2D, 0x4B, 0x65, 0x79],
   [0x20, 0x20])

/-- `UPGRADE:  websocket`. -/
def hUpgradeSpace : List Byte × List Byte :=
  ([0x55, 0x50, 0x47, 0x52, 0x41, 0x44, 0x45],
   [0x20, 0x77, 0x65, 0x62, 0x73, 0x6F, 0x63, 0x6B, 0x65, 0x74])

/-- The 24 key bytes `dGhlIHNhbXBsZSBub25jZQ==` (W1). -/
def sampleKey : List Byte :=
  [0x64, 0x47, 0x68, 0x6C, 0x49, 0x48, 0x4E, 0x68, 0x62, 0x58, 0x42, 0x73, 0x5A, 0x53, 0x42, 0x75, 0x62, 0x32, 0x35, 0x6A, 0x5A, 0x51, 0x3D, 0x3D]

/-- The standard table S of 95_test_vectors.md. -/
def tableS : State := withHeaders [hUpgrade, hConnection, hVersion, hKey]

/-! ### WellFormed: the one check refuses the ill-formed terms -/

theorem test_wellFormed_refuses_126 : wellFormed (.frameLen7 false 126) = false := by decide

theorem test_wellFormed_refuses_127 : wellFormed (.frameLen7 true 127) = false := by decide

theorem test_wellFormed_accepts_125 : wellFormed (.frameLen7 true 125) = true := by decide

/-! ### Words written out from the spec's encodings (R91, R93 to R96, R99) -/

/-- The six command words of R91. -/
theorem test_decode_commands :
    decodeCommand 0x00000001 = .ok .decode ∧ decodeCommand 0x00000002 = .ok .unmask ∧
    decodeCommand 0x00000003 = .ok .encode ∧ decodeCommand 0x00000004 = .ok .validate ∧
    decodeCommand 0x00000005 = .ok .accept ∧ decodeCommand 0x00000006 = .ok .sha1 := by decide

/-- Illegal command words (R92, vectors X1, X2, X4, X5) are rejected by name. -/
theorem test_decode_rejects_illegal_words :
    decodeCommand 0x00000000 = .error .unknownCode ∧ decodeCommand 0x00000007 = .error .unknownCode ∧
    decodeCommand 0x00000101 = .error .zeroFieldSet ∧
    decodeCommand 0x80000001 = .error .zeroFieldSet := by decide

/-- Frame byte 0, `FIN | RSV | OPCODE` (R93, R94, R99). -/
theorem test_decode_byte0_low :
    decodeByte0 0b11010000 = .ok (.frameOpContinuation true 5) ∧
    decodeByte0 0b00000001 = .ok (.frameOpText false 0) ∧
    decodeByte0 0b10100010 = .ok (.frameOpBinary true 2) ∧
    decodeByte0 0b01110011 = .ok (.frameOpUnnamed3 false 7) ∧
    decodeByte0 0b10000100 = .ok (.frameOpUnnamed4 true 0) ∧
    decodeByte0 0b00010101 = .ok (.frameOpUnnamed5 false 1) ∧
    decodeByte0 0b10110110 = .ok (.frameOpUnnamed6 true 3) ∧
    decodeByte0 0b01000111 = .ok (.frameOpUnnamed7 false 4) := by decide

/-- Frame byte 0, `FIN | RSV | OPCODE` (R93, R94, R99). -/
theorem test_decode_byte0_high :
    decodeByte0 0b11101000 = .ok (.frameOpClose true 6) ∧
    decodeByte0 0b01011001 = .ok (.frameOpPing false 5) ∧
    decodeByte0 0b10011010 = .ok (.frameOpPong true 1) ∧
    decodeByte0 0b00101011 = .ok (.frameOpUnnamedB false 2) ∧
    decodeByte0 0b11001100 = .ok (.frameOpUnnamedC true 4) ∧
    decodeByte0 0b01101101 = .ok (.frameOpUnnamedD false 6) ∧
    decodeByte0 0b11111110 = .ok (.frameOpUnnamedE true 7) ∧
    decodeByte0 0b00111111 = .ok (.frameOpUnnamedF false 3) := by decide

/-- Frame byte 1, `MASK | LENIND` (R93, R95, R96): 0, 125, 126 and 127 and one from each of the six match rows. -/
theorem test_decode_byte1 :
    decodeByte1 0b00000000 = .ok (.frameLen7 false 0) ∧ decodeByte1 0b10000101 = .ok (.frameLen7 true 5) ∧
    decodeByte1 0b01000001 = .ok (.frameLen7 false 65) ∧ decodeByte1 0b11100010 = .ok (.frameLen7 true 98) ∧
    decodeByte1 0b01110011 = .ok (.frameLen7 false 115) ∧ decodeByte1 0b11111000 = .ok (.frameLen7 true 120) ∧
    decodeByte1 0b01111101 = .ok (.frameLen7 false 125) ∧ decodeByte1 0b01111110 = .ok (.frameLen16 false) ∧
    decodeByte1 0b11111110 = .ok (.frameLen16 true) ∧ decodeByte1 0b01111111 = .ok (.frameLen32 false) ∧
    decodeByte1 0b11111111 = .ok (.frameLen32 true) := by decide

/-- The host's table words: a command word, frame byte 0, frame byte 1, a word too long, an unknown size. -/
theorem test_decodeTableWord :
    decodeTableWord 32 0x6 = some .sha1 ∧ decodeTableWord 8 0x8A = some (.frameOpPong true 0) ∧
    decodeTableWord 8 0x7E = some (.frameLen16 false) ∧ decodeTableWord 8 0x17F = none ∧
    decodeTableWord 16 0x1 = none ∧ decodeTableWord 32 0x7 = none := by decide

/-! ### The six commands, one step each -/

/-- Vector D16: ping, 16-bit form, masked. -/
theorem test_decode_D16 :
    look (exec .decode (withInput [0x89, 0xFE, 0x00, 0x02, 0x11, 0x22, 0x33, 0x44, 0x55, 0x66])) (fun t => (t.status, t.errcode, t.frame)) =
      some (0x1, 0, 0x00008789) ∧
    look (exec .decode (withInput [0x89, 0xFE, 0x00, 0x02, 0x11, 0x22, 0x33, 0x44, 0x55, 0x66]))
      (fun t => (t.plen, t.consumed, t.maskkey, t.olen, bufBytes t .obuf 2)) =
      some (2, 10, 0x11223344, 2, [0x44, 0x44]) := by decide +kernel

/-- Vector D6: underrun at step 4, the masking key cut short; the failure outputs are 0. -/
theorem test_decode_D6 :
    look (exec .decode { withInput [0x81, 0xFE, 0x00, 0x10, 0x01, 0x02] with olen := 9, plen := 3 })
      (fun t => (t.status, t.errcode, t.frame, t.plen, t.consumed, t.maskkey, t.olen)) =
      some (0x2, 0x00000405, 0, 0, 0, 0, 0) := by decide +kernel

/-- Vector U1. -/
theorem test_unmask_U1 :
    look (exec .unmask { withInput [0x48, 0x69, 0x20, 0x74, 0x68, 0x65, 0x72, 0x65] with maskkey := 0xA1B2C3D4 })
      (fun t => (t.status, t.olen, bufBytes t .obuf 8)) =
      some (0x1, 8, [0xE9, 0xDB, 0xE3, 0xA0, 0xC9, 0xD7, 0xB1, 0xB1]) := by decide +kernel

/-- Vector U6: ILEN = 0xFFFFFFFF. -/
theorem test_unmask_U6 :
    look (exec .unmask { State.reset with ilen := 0xFFFFFFFF, olen := 7 })
      (fun t => (t.status, t.errcode, t.olen)) = some (0x2, 0x00000108, 0) := by decide +kernel

/-- Vector E4: 125 bytes are framed with the single length byte 7D. -/
theorem test_encode_E4 :
    look (exec .encode (withInput (List.replicate 125 0x41)))
      (fun t => (t.status, t.errcode, t.olen, bufBytes t .obuf 127)) =
      some (0x1, 0, 127, 0x81 :: 0x7D :: List.replicate 125 0x41) := by decide +kernel

/-- Vector E5: 126 bytes raise PayloadTooLarge and write nothing. -/
theorem test_encode_E5 :
    look (exec .encode (withInput (List.replicate 126 0x41)))
      (fun t => (t.status, t.errcode, t.olen, t.mem.length)) =
      some (0x2, 0x00000006, 0, 126) := by decide +kernel

/-- Vector V9: `connection: keep-alive, Upgrade` is accepted and the key written. -/
theorem test_validate_V9 :
    look (exec .validate (withHeaders [hUpgrade, hKeepAliveUpgrade, hVersion, hKey]))
      (fun t => (t.status, t.errcode, t.keylen, bufBytes t .keybuf 24)) =
      some (0x1, 0, 24, sampleKey) := by decide +kernel

/-- Vector V12: version value `013` is no exact match, at entry 2. -/
theorem test_validate_V12 :
    look (exec .validate (withHeaders [hUpgrade, hConnection, hVersion013, hKey]))
      (fun t => (t.status, t.errcode, t.keylen)) = some (0x2, 0x00020103, 0) := by decide +kernel

/-- Vector A1, which is the source's own (W1). -/
theorem test_accept_A1 :
    look (exec .accept (withKey sampleKey)) (fun t => (t.status, bufBytes t .digest 20)) =
      some (0x1, [0xB3, 0x7A, 0x4F, 0x2C, 0xC0, 0x62, 0x4F, 0x16, 0x90, 0xF6, 0x46, 0x06, 0xCF, 0x38, 0x59, 0x45, 0xB2, 0xBE, 0xC4, 0xEA]) ∧
    look (exec .accept (withKey sampleKey)) (fun t => bufBytes t .token 28) =
      some [0x73, 0x33, 0x70, 0x50, 0x4C, 0x4D, 0x42, 0x69, 0x54, 0x78, 0x61, 0x51, 0x39, 0x6B, 0x59, 0x47, 0x7A, 0x7A, 0x68, 0x5A, 0x52, 0x62, 0x4B, 0x2B, 0x78, 0x4F, 0x6F, 0x3D] := by
  decide +kernel

/-- Vector A5: KEYLEN = 257 exceeds HVAL_MAX; nothing is written. -/
theorem test_accept_A5 :
    look (exec .accept { State.reset with keylen := 257 }) (fun t => (t.status, t.errcode, t.mem)) =
      some (0x2, 0x00000208, []) := by decide +kernel

/-- Vector H2: SHA1 of "abc". -/
theorem test_sha1_H2 :
    look (exec .sha1 (withInput [0x61, 0x62, 0x63])) (fun t => (t.status, bufBytes t .digest 20)) =
      some (0x1, [0xA9, 0x99, 0x3E, 0x36, 0x47, 0x06, 0x81, 0x6A, 0xBA, 0x3E, 0x25, 0x71, 0x78, 0x50, 0xC2, 0x6C, 0x9C, 0xD0, 0xD8, 0x9D]) := by
  decide +kernel

/-- R210, R232: ILEN = 4097 exceeds IBUF_SIZE. -/
theorem test_sha1_too_long :
    look (exec .sha1 { State.reset with ilen := 4097 }) (fun t => (t.status, t.errcode, t.mem)) =
      some (0x2, 0x00000108, []) := by decide +kernel

/-- Base64 alone (95_test_vectors.md, 2.6): "fo" and FB FF. -/
theorem test_base64 :
    base64 [0x66, 0x6F] = [0x5A, 0x6D, 0x38, 0x3D] ∧ base64 [0xFB, 0xFF] = [0x2B, 0x2F, 0x38, 0x3D] ∧
    base64 [0x66] = [0x5A, 0x67, 0x3D, 0x3D] := by decide

/-! ### The rows of frame byte 0 and byte 1, one step each -/

/-- FRAME after a row of byte 0 ran on the frame `?? 00`: byte 0 is the row's, whatever stands in IBUF[0]. -/
def frameWith (i : Instr) : Option (Word × Word) :=
  look (exec i (withInput [0x55, 0x00])) (fun t => (t.status, t.frame))

/-- Vectors D23, D8, D24, D25: HDRLEN = 2, OPKNOWN = 1. -/
theorem test_named_rows :
    frameWith (.frameOpContinuation false 0) = some (0x1, 0x00002200) ∧
    frameWith (.frameOpText true 0) = some (0x1, 0x00002281) ∧
    frameWith (.frameOpBinary true 0) = some (0x1, 0x00002282) ∧
    frameWith (.frameOpClose true 0) = some (0x1, 0x00002288) ∧
    frameWith (.frameOpPing true 0) = some (0x1, 0x00002289) ∧
    frameWith (.frameOpPong true 0) = some (0x1, 0x0000228A) := by decide +kernel

/-- Vectors D26, D27, and by the same rules (R27, R146) the other values: OPKNOWN = 0. -/
theorem test_unnamed_rows :
    frameWith (.frameOpUnnamed3 true 0) = some (0x1, 0x00002083) ∧
    frameWith (.frameOpUnnamed4 false 0) = some (0x1, 0x00002004) ∧
    frameWith (.frameOpUnnamed5 true 1) = some (0x1, 0x00002095) ∧
    frameWith (.frameOpUnnamed6 false 2) = some (0x1, 0x00002026) ∧
    frameWith (.frameOpUnnamed7 true 3) = some (0x1, 0x000020B7) ∧
    frameWith (.frameOpUnnamedB false 4) = some (0x1, 0x0000204B) ∧
    frameWith (.frameOpUnnamedC true 5) = some (0x1, 0x000020DC) ∧
    frameWith (.frameOpUnnamedD false 6) = some (0x1, 0x0000206D) ∧
    frameWith (.frameOpUnnamedE true 7) = some (0x1, 0x000020FE) ∧
    frameWith (.frameOpUnnamedF true 7) = some (0x1, 0x000020FF) := by decide +kernel

/-- Vector D14's byte 1 at its place: a literal length of 3. -/
theorem test_frameLen7_D14 :
    look (exec (.frameLen7 false 3) (withInput [0x01, 0x55, 0x61, 0x62, 0x63]))
      (fun t => (t.status, t.frame, t.plen, bufBytes t .obuf 3)) =
      some (0x1, 0x00002201, 3, [0x61, 0x62, 0x63]) := by decide +kernel

/-- Vector D10's byte 1 at its place: a non-minimal 16-bit length of 3. -/
theorem test_frameLen16_D10 :
    look (exec (.frameLen16 false) (withInput [0x82, 0x55, 0x00, 0x03, 0xAA, 0xBB, 0xCC]))
      (fun t => (t.status, t.frame, t.consumed, bufBytes t .obuf 3)) =
      some (0x1, 0x00004682, 7, [0xAA, 0xBB, 0xCC]) := by decide +kernel

/-- Vector D21's byte 1 at its place: an RFC 8-byte length is read as 4 bytes (90_conflicts.md C3). -/
theorem test_frameLen32_D21 :
    look (exec (.frameLen32 false)
        (withInput [0x81, 0x55, 0x00, 0x00, 0x00, 0x00, 0x00, 0x00, 0x00, 0x02, 0x4F, 0x4B]))
      (fun t => (t.status, t.frame, t.plen, t.consumed)) =
      some (0x1, 0x00006A81, 0, 6) := by decide +kernel

/-! ### Host accesses and the step -/

/-- STATUS and the reply after one host access from reset. -/
def accessed (x : HostAccess) : Option (Word × Option Reply) :=
  look (step (pending (.access x))) (fun t => (t.status, t.reply))

/-- Vectors B1, B2: admitted reads. -/
theorem test_access_reads :
    accessed (.rd32 0x000000) = some (0, some (.word 0x57530001)) ∧
    accessed (.rd32 0x000034) = some (0, some (.word 0x00001000)) := by decide +kernel

/-- Vectors B3 to B10: access errors set ACCERR alone; a read returns 0 of its width. -/
theorem test_access_errors :
    accessed (.wr8 0x200000 0x01) = some (4, none) ∧
    accessed (.rd32 0x000002) = some (4, some (.word 0)) ∧
    accessed (.wr32 0x000018 5) = some (4, none) ∧
    accessed (.rd8 0x000010) = some (4, some (.byte 0)) ∧
    accessed (.rd32 0x000100) = some (4, some (.word 0)) ∧
    accessed (.rd8 0x000114) = some (4, some (.byte 0)) ∧
    accessed (.rd32 0x014000) = some (4, some (.word 0)) ∧
    accessed (.wr8 0x010140 0x01) = some (4, none) := by decide +kernel

/-- Vectors B11 to B14. -/
theorem test_access_writes :
    look (step (pending (.access (.wr32 0x000010 0x1234000D)))) (fun t => t.cfgVersion) = some 0x000D ∧
    look (step { pending (.access (.wr32 0x000008 0x4)) with status := 4 }) (fun t => t.status) = some 0 ∧
    look (step { pending (.access (.wr32 0x000008 0x3)) with status := 4 }) (fun t => t.status) = some 4 ∧
    look (step (pending (.access (.wr32 0x000004 1)))) (fun t => (t.status, t.errcode)) =
      some (0x2, 0x00000105) := by decide +kernel

/-- Vectors X3 and X4: illegal command words; no unit runs, so OLEN stays. -/
theorem test_illegal_words :
    look (step { pending (.access (.wr32 0x000004 0xFF)) with olen := 9 })
      (fun t => (t.cmd, t.status, t.errcode, t.olen)) = some (0xFF, 0x2, 0x0000FF07, 9) ∧
    look (step { pending (.access (.wr32 0x000004 0x101)) with olen := 9 })
      (fun t => (t.cmd, t.status, t.errcode, t.olen)) = some (0x101, 0x2, 0x00010107, 9) := by
  decide +kernel

/-- The reset event sets every register and leaves the host's later events (R260). -/
theorem test_reset_event :
    look (step { withInput [0x81] with olen := 3, host := [.reset, .access (.rd8 0x100000)] })
      (fun t => (t.ilen, t.olen, t.cfgVersion, t.mem.length, t.host)) =
      some (0, 0, 13, 0, [.access (.rd8 0x100000)]) := by decide +kernel

/-- In the forms of program P1 line 2, P2 line 10, P1 line 10, P3 line 6 and P2 line 18: what lines expand to (R106, R107). -/
theorem test_script_expansion :
    (ScriptLine.setHdr 1 [0x43, 0x6F] [0x55]).expand =
      [.access (.wr8 0x010500 0x43), .access (.wr8 0x010501 0x6F), .access (.wr32 0x010400 2),
       .access (.wr8 0x010600 0x55), .access (.wr32 0x010404 1)] ∧
    (ScriptLine.load .ibuf [0x81, 0x00]).expand =
      [.access (.wr8 0x100000 0x81), .access (.wr8 0x100001 0x00), .access (.wr32 0x000014 2)] ∧
    (ScriptLine.cmd .accept).expand = [.access (.wr32 0x000004 5)] ∧
    (ScriptLine.cmdw 0x107).expand = [.access (.wr32 0x000004 0x107)] ∧
    (ScriptLine.expect8 .obuf 0 [0x81, 0x05]).expand =
      [.access (.rd8 0x200000), .access (.rd8 0x200001)] := by decide +kernel

/-- A table word of every format, stored where the step takes its next instruction, is run by that step:
VALIDATE on the empty table (vector V2), `88 00` (vector D25), and `00 7E` with a zero length (R96). -/
theorem test_withFetchWord :
    look (step (State.reset.withFetchWord 32 4)) (fun t => t.errcode) = some 0x00FF0001 ∧
    look (step (State.reset.withFetchWord 8 0x88)) (fun t => (t.status, t.frame)) =
      some (0x1, 0x00002288) ∧
    look (step (State.reset.withFetchWord 8 0x7E)) (fun t => (t.status, t.frame)) =
      some (0x1, 0x00004600) := by decide +kernel
/-! ### Witnesses: for each obligation with hypotheses, states and operands that meet them all -/

/-- The state after DECODE on vector D1. -/
def decodedD1 : State :=
  decodeFrame (inputFrame (withInput [0x81, 0x85, 0x37, 0xFA, 0x21, 0x3D, 0x7F, 0x9F, 0x4D, 0x51, 0x58]))
    (withInput [0x81, 0x85, 0x37, 0xFA, 0x21, 0x3D, 0x7F, 0x9F, 0x4D, 0x51, 0x58])

theorem reference_legal : Params.reference.Legal := by decide

theorem witness_ResetEventSetsEveryRegister :
    ∃ s : State, s.host = .reset :: [.reset] ∧ s.olen = 5 ∧ s.ilen = 11 :=
  ⟨{ decodedD1 with host := [.reset, .reset] }, by decide +kernel⟩

theorem witness_ResetLeavesBufferBytesFree :
    ∃ s : State, s.host = .reset :: [] ∧ bufByte s .obuf 0 = 0x48 :=
  ⟨{ decodedD1 with host := [.reset] }, by decide +kernel⟩

/-- Both ends of every range of R7. -/
theorem witness_InvariantHoldsAfterReset :
    (⟨128, 4, 21, 9⟩ : Params).Legal ∧ (⟨2 ^ 20, 64, 256, 512⟩ : Params).Legal := by decide

/-- A state with the invariant that holds a decoded frame, and a step that runs a command and changes it. -/
theorem witness_EveryStepKeepsTheInvariant :
    ∃ s t : State, s.Inv ∧ step s = .next t ∧ statusErrBit t.status = true ∧ s.frame = 0x00006381 := by
  refine ⟨{ decodedD1 with host := [.access (.wr32 0x004 9)] }, _, ?_,
    next_of_look (t := illegalCommand 9 { decodedD1 with cmd := 9 }) (by decide +kernel),
    by decide +kernel, by decide +kernel⟩
  exact { legal := by decide +kernel, hdrLength := by decide +kernel, memWf := by decide +kernel,
          memMapped := by decide +kernel, statusHigh := by decide +kernel, notBoth := by decide +kernel,
          noError := by decide +kernel, errorCodes := by decide +kernel, errorHigh := by decide +kernel,
          frameHighZero := by decide +kernel, lenForm := by decide +kernel, hdrLen := by decide +kernel,
          known := by decide +kernel, consumedSum := by decide +kernel,
          consumedFits := by decide +kernel, olenFits := by decide +kernel }

theorem witness_IdleBlockKeepsItsState : ∃ s : State, s.host = [] ∧ s.olen = 5 :=
  ⟨decodedD1, by decide +kernel⟩

theorem witness_DecodeOfEncodeIsTheInstruction :
    wellFormed .sha1 = true ∧ wellFormed (.frameOpUnnamedF true 7) = true ∧
    wellFormed (.frameLen7 true 125) = true ∧ wellFormed (.frameLen32 false) = true := by decide

theorem witness_EncodeOfDecodeIsTheWord :
    decode .cmd32 0x00000006 = .ok .sha1 ∧ decode .frameB0 0xFF = .ok (.frameOpUnnamedF true 7) ∧
    decode .frameB1 0xFD = .ok (.frameLen7 true 125) := by decide

theorem witness_StepRunsTheDecodedCommand :
    ∃ s : State, s.host = .access (.wr32 0x004 0x00000006) :: [.reset] ∧
      decodeCommand 0x00000006 = .ok .sha1 :=
  ⟨{ decodedD1 with host := [.access (.wr32 0x004 0x00000006), .reset] }, by decide +kernel⟩

theorem witness_StepRunsTheDecodedFrameBytes :
    ∃ s : State, s.host = .access (.wr32 0x004 0x00000001) :: [] ∧
      decodeByte0 (bufByte s .ibuf 0) = .ok (.frameOpText true 0) ∧
      decodeByte1 (bufByte s .ibuf 1) = .ok (.frameLen7 true 5) :=
  ⟨{ decodedD1 with host := [.access (.wr32 0x004 0x00000001)] }, by decide +kernel⟩

/-- Each of the three ways a word is illegal, at its boundary (R92). -/
theorem witness_IllegalWordRaisesIllegalCommand :
    (∀ w : Word, (pending (.access (.wr32 0x004 w))).host = .access (.wr32 0x004 w) :: []) ∧
    (0x00000101 : Word).extractLsb' 8 24 ≠ 0 ∧ ((0x00000000 : Word).extractLsb' 0 8).toNat = 0 ∧
    7 ≤ ((0x00000007 : Word).extractLsb' 0 8).toNat := ⟨fun _ => rfl, by decide⟩

/-- Every address may stand in the pending read: the first and the last control register, and both clauses
of the first and the last entry. -/
theorem witness_RegisterReadsReturnTheRegister :
    (∀ a : Addr, (pending (.access (.rd32 a))).params.Legal ∧
      (pending (.access (.rd32 a))).host = .access (.rd32 a) :: []) ∧
    ((0x000 : Addr).toNat, (0x57530001 : Word)) = (0x000, 0x57530001) ∧
    ((0x040 : Addr).toNat, (256 : Word)) = (0x040, BitVec.ofNat 32 Params.reference.hvalMax) ∧
    (∀ e, e = 0 ∨ e = 15 → e < Params.reference.hdrN ∧ State.reset.hdr[e]? = some ⟨0, 0⟩) ∧
    ((0x010000 : Addr).toNat = 0x10000 + 0x400 * 0 ∧ (0x010004 : Addr).toNat = 0x10000 + 0x400 * 0 + 4) ∧
    ((0x013C00 : Addr).toNat = 0x10000 + 0x400 * 15 ∧
      (0x013C04 : Addr).toNat = 0x10000 + 0x400 * 15 + 4) :=
  ⟨fun _ => ⟨reference_legal, rfl⟩, by decide, by decide,
    by rintro e (rfl | rfl) <;> decide, by decide, by decide⟩

theorem witness_RegisterWritesStoreTheValue :
    ∀ (a : Addr) (v : Word), a ∈ [0x010, 0x014, 0x01C, 0x02C, 0x030] →
      (pending (.access (.wr32 a v))).host = .access (.wr32 a v) :: [] := fun _ _ _ => rfl

/-- At the first and the last entry, both clauses. -/
theorem witness_EntryLengthWritesStoreTheValue :
    (∀ (a : Addr) (v : Word) (e : Nat), e = 0 ∨ e = 15 → ∃ (s : State) (x : HdrLens), s.params.Legal ∧
      e < s.params.hdrN ∧ s.hdr[e]? = some x ∧ s.host = .access (.wr32 a v) :: []) ∧
    (0x010000 : Addr).toNat = 0x10000 + 0x400 * 0 ∧
    (0x010004 : Addr).toNat = 0x10000 + 0x400 * 0 + 4 ∧
    (0x013C00 : Addr).toNat = 0x10000 + 0x400 * 15 ∧
    (0x013C04 : Addr).toNat = 0x10000 + 0x400 * 15 + 4 :=
  ⟨fun a v e he => ⟨pending (.access (.wr32 a v)), ⟨0, 0⟩, reference_legal,
      (by rcases he with rfl | rfl <;> decide : e < 16), by rcases he with rfl | rfl <;> rfl, rfl⟩,
    by decide⟩

/-- Each window's first and last byte, under both accesses. -/
theorem witness_WindowAccessesReadAndWriteTheByte :
    (∀ (a : Addr) (b : Byte), (pending (.access (.rd8 a))).host = .access (.rd8 a) :: [] ∧
      (pending (.access (.wr8 a b))).host = .access (.wr8 a b) :: []) ∧
    Params.reference.Legal ∧
    (Win.InTable Params.reference .digest ∧ 19 < Win.size Params.reference .digest ∧
      (0x000113 : Addr).toNat = Win.base .digest + 19) ∧
    (Win.InTable Params.reference .token ∧ 27 < Win.size Params.reference .token ∧
      (0x00013B : Addr).toNat = Win.base .token + 27) ∧
    (Win.InTable Params.reference .keybuf ∧ 255 < Win.size Params.reference .keybuf ∧
      (0x0002FF : Addr).toNat = Win.base .keybuf + 255) ∧
    (Win.InTable Params.reference (.hname 0) ∧ 0 < Win.size Params.reference (.hname 0) ∧
      (0x010100 : Addr).toNat = Win.base (.hname 0) + 0) ∧
    (Win.InTable Params.reference (.hval 15) ∧ 255 < Win.size Params.reference (.hval 15) ∧
      (0x013EFF : Addr).toNat = Win.base (.hval 15) + 255) ∧
    (Win.InTable Params.reference .ibuf ∧ 0 < Win.size Params.reference .ibuf ∧
      (0x100000 : Addr).toNat = Win.base .ibuf + 0) ∧
    (Win.InTable Params.reference .obuf ∧ 4095 < Win.size Params.reference .obuf ∧
      (0x200FFF : Addr).toNat = Win.base .obuf + 4095) :=
  ⟨fun _ _ => ⟨rfl, rfl⟩, by decide, ⟨trivial, by decide⟩, ⟨trivial, by decide⟩, ⟨trivial, by decide⟩,
    ⟨by show 0 < 16; decide, by decide⟩, ⟨by show 15 < 16; decide, by decide⟩, ⟨trivial, by decide⟩,
    ⟨trivial, by decide⟩⟩

/-- Both ends of R7's ranges, the last entry and the last byte of OBUF. -/
theorem witness_ScriptNamesReachTheirTargets :
    (⟨2 ^ 20, 64, 256, 512⟩ : Params).Legal ∧
    (∀ e, Reg.valueLen 63 = .nameLen e ∨ Reg.valueLen 63 = .valueLen e → e < 64) ∧
    Win.InTable ⟨2 ^ 20, 64, 256, 512⟩ .obuf ∧ 2 ^ 20 - 1 < Win.size ⟨2 ^ 20, 64, 256, 512⟩ .obuf :=
  ⟨by decide, by rintro e (h | h) <;> cases h; decide, trivial, by decide⟩

/-- One access of each kind that is not admitted (vectors B4 to B6, B10). -/
theorem not_admitted_examples :
    ¬ Admitted Params.reference (.rd32 0x000002) ∧ ¬ Admitted Params.reference (.wr32 0x000018 5) ∧
    ¬ Admitted Params.reference (.rd8 0x000010) ∧ ¬ Admitted Params.reference (.wr8 0x010140 1) := by
  refine ⟨?_, ?_, ?_, ?_⟩
  · rintro (h | ⟨e, he, h⟩)
    · exact absurd h (by decide)
    · have h' : (2 : Nat) = 0x10000 + 0x400 * e ∨ (2 : Nat) = 0x10000 + 0x400 * e + 4 := h
      omega
  · rintro (h | h | h | h | h | h | h | ⟨e, he, h⟩)
    iterate 7 exact absurd h (by decide)
    have h' : (0x18 : Nat) = 0x10000 + 0x400 * e ∨ (0x18 : Nat) = 0x10000 + 0x400 * e + 4 := h
    omega
  · rintro ((h | ⟨e, he, h⟩ | ⟨e, he, h⟩ | h) | h | h | h)
    · exact absurd h (by decide)
    · have h' : 0x10000 + 0x400 * e + 0x100 ≤ 0x10 := h.1
      omega
    · have h' : 0x10000 + 0x400 * e + 0x200 ≤ 0x10 := h.1
      omega
    iterate 4 exact absurd h (by decide)
  · rintro (h | ⟨e, he, h⟩ | ⟨e, he, h⟩ | h)
    · exact absurd h (by decide)
    · have h1 : 0x10000 + 0x400 * e + 0x100 ≤ 0x10140 := h.1
      have h2 : 0x10140 < 0x10000 + 0x400 * e + 0x100 + 64 := h.2
      omega
    · have h1 : 0x10000 + 0x400 * e + 0x200 ≤ 0x10140 := h.1
      have h2 : 0x10140 < 0x10000 + 0x400 * e + 0x200 + 256 := h.2
      omega
    · exact absurd h (by decide)

/-- Clause 1 for each kind of access; clause 2 on a state with ACCERR = 1 and a read pending. -/
theorem witness_AccessErrorsOnlySetAccerr :
    (∀ x : HostAccess, (pending (.access x)).params = Params.reference ∧
      (pending (.access x)).host = .access x :: []) ∧ Params.reference.Legal ∧
    (¬ Admitted Params.reference (.rd32 0x000002) ∧ ¬ Admitted Params.reference (.wr32 0x000018 5) ∧
      ¬ Admitted Params.reference (.rd8 0x000010) ∧ ¬ Admitted Params.reference (.wr8 0x010140 1)) ∧
    ∃ s t : State, statusAccErrBit s.status = true ∧ s.host.head? ≠ some .reset ∧
      (∀ v : Word, v.getLsbD 2 = true → s.host.head? ≠ some (.access (.wr32 0x008 v))) ∧
      step s = .next t :=
  ⟨fun _ => ⟨rfl, rfl⟩, by decide, not_admitted_examples,
    { pending (.access (.rd32 0x000000)) with status := 4 }, _, by decide, by decide,
    fun v _ => by simp [pending], rfl⟩

/-- An admitted read, and an admitted CMD write that issues a command. -/
theorem witness_AdmittedAccessesLeaveAccerr :
    (∃ s t : State, s.params.Legal ∧ s.host = .access (.rd8 0x100000) :: [] ∧
      Admitted s.params (.rd8 0x100000) ∧ (∀ v : Word, HostAccess.rd8 0x100000 ≠ .wr32 0x008 v) ∧
      step s = .next t) ∧
    (∃ s t : State, s.params.Legal ∧ s.host = .access (.wr32 0x004 3) :: [] ∧
      Admitted s.params (.wr32 0x004 3) ∧ (∀ v : Word, HostAccess.wr32 0x004 3 ≠ .wr32 0x008 v) ∧
      step s = .next t) := by
  refine ⟨⟨pending (.access (.rd8 0x100000)), _, by decide, rfl, ?_, by simp, rfl⟩,
    ⟨pending (.access (.wr32 0x004 3)), _, by decide, rfl, .inl (by decide), ?_, rfl⟩⟩
  · exact .inl (.inr (.inr (.inr (by decide))))
  · intro v h
    injection h with h1 _
    exact absurd h1 (by decide)

theorem witness_StatusWriteClearsAccerr :
    ∃ s : State, s.host = .access (.wr32 0x008 0x4) :: [] ∧ statusAccErrBit s.status = true :=
  ⟨{ pending (.access (.wr32 0x008 0x4)) with status := 6 }, by decide⟩

theorem witness_ParametersNeverChange :
    (∃ s t : State, step s = .next t ∧ s.host = [.reset]) ∧ State.reset.params.Legal :=
  ⟨⟨pending .reset, _, rfl, rfl⟩, by decide⟩

/-- A command that succeeds and one that fails. -/
theorem witness_NoCommandWritesItsInputs :
    (∃ s t : State, s.params.Legal ∧ exec .encode s = .next t ∧ statusOkBit t.status = true) ∧
    (∃ s t : State, s.params.Legal ∧ exec .decode s = .next t ∧ statusErrBit t.status = true) :=
  ⟨⟨decodedD1, succeed (encoded decodedD1), by decide +kernel,
    next_of_look (by decide +kernel), by decide +kernel⟩,
   ⟨State.reset, raise (underrun 1) State.reset, by decide, next_of_look (by decide +kernel),
    by decide +kernel⟩⟩

/-- Each inner condition: no parser, each kind of register kept, and the first byte after DIGEST, which
SHA1 writes no byte of. -/
theorem witness_EveryCommandRecordsItsOutcome :
    ¬ RunsParser .unmask ∧ Instr.frameLen16 true ≠ .validate ∧
    (Instr.accept = .validate ∨ Instr.accept = .accept ∨ Instr.accept = .sha1) ∧
    (∀ w, WritesWindow .sha1 w →
      ¬ (w.addr 0 ≤ Win.addr .digest 20 ∧
        Win.addr .digest 20 < w.addr 0 + bytesWritten State.reset w)) := by
  refine ⟨fun h => ?_, by decide, .inr (.inl rfl), ?_⟩
  · rcases h with h | h
    · cases h
    · exact h rfl
  · rintro w (⟨-, h | h | h⟩ | ⟨-, h⟩ | ⟨rfl, -⟩ | ⟨-, h⟩)
    · rcases h with h | h
      · cases h
      · exact absurd rfl h
    all_goals first | cases h | decide

/-- An instruction that fails; a legal and an illegal word issued with an error. -/
theorem witness_ErrorsArePrecise :
    (∃ s t : State, exec .decode s = .next t ∧ statusErrBit t.status = true) ∧
    (∃ s t : State, s.host = .access (.wr32 0x004 4) :: [] ∧ step s = .next t ∧
      statusErrBit t.status = true) ∧
    (∃ s t : State, s.host = .access (.wr32 0x004 7) :: [] ∧ step s = .next t ∧
      statusErrBit t.status = true) :=
  ⟨⟨State.reset, raise (underrun 1) State.reset, next_of_look (by decide +kernel), by decide +kernel⟩,
   ⟨pending (.access (.wr32 0x004 4)),
    raise ⟨.missingOrInvalidUpgrade, 0, 0xFF⟩ { State.reset with cmd := 4 }, rfl,
    next_of_look (by decide +kernel), by decide +kernel⟩,
   ⟨pending (.access (.wr32 0x004 7)), illegalCommand 7 { State.reset with cmd := 7 }, rfl,
    next_of_look (by decide +kernel), by decide +kernel⟩⟩

/-- With both inner conditions met. -/
theorem witness_CommandsReadNoFlagsOrResults :
    (∃ s t : State, exec .decode s = .next t ∧ RunsParser .decode) ∧
    (∃ s t : State, exec .encode s = .next t) :=
  ⟨⟨State.reset, _, rfl, .inl rfl⟩, ⟨State.reset, _, rfl⟩⟩

theorem witness_EveryCommandIsIdempotent :
    ∃ s t : State, s.Inv ∧ exec .encode s = .next t ∧ s.olen = 5 := by
  refine ⟨decodedD1, _, ?_, rfl, by decide +kernel⟩
  exact { legal := by decide +kernel, hdrLength := by decide +kernel, memWf := by decide +kernel,
          memMapped := by decide +kernel, statusHigh := by decide +kernel, notBoth := by decide +kernel,
          noError := by decide +kernel, errorCodes := by decide +kernel, errorHigh := by decide +kernel,
          frameHighZero := by decide +kernel, lenForm := by decide +kernel, hdrLen := by decide +kernel,
          known := by decide +kernel, consumedSum := by decide +kernel,
          consumedFits := by decide +kernel, olenFits := by decide +kernel }

/-- DECODE, a row of byte 0 and a row of byte 1, on frames that end exactly at ILEN. -/
theorem witness_ParserDecodesACompleteFrame :
    (RunsParser .decode ∧ (withInput [0x81, 0x80, 1, 2, 3, 4]).ilen.toNat ≤ 4096 ∧
      headerLen (frameOf .decode (withInput [0x81, 0x80, 1, 2, 3, 4])) +
        declaredLen (frameOf .decode (withInput [0x81, 0x80, 1, 2, 3, 4])) ≤ 6) ∧
    (RunsParser (.frameOpPing true 0) ∧
      headerLen (frameOf (.frameOpPing true 0) (withInput [0x81, 0x01, 7])) +
        declaredLen (frameOf (.frameOpPing true 0) (withInput [0x81, 0x01, 7])) ≤
          (withInput [0x81, 0x01, 7]).ilen.toNat) ∧
    (RunsParser (.frameLen16 false) ∧
      headerLen (frameOf (.frameLen16 false) (withInput [0x81, 0, 0, 1, 7])) +
        declaredLen (frameOf (.frameLen16 false) (withInput [0x81, 0, 0, 1, 7])) ≤
          (withInput [0x81, 0, 0, 1, 7]).ilen.toNat) :=
  ⟨⟨.inl rfl, by decide +kernel⟩, ⟨.inr (by decide), by decide +kernel⟩,
    ⟨.inr (by decide), by decide +kernel⟩⟩

/-- Each step that can underrun, one byte short (vectors D2, D3, D4, D6, D7). -/
theorem witness_ParserUnderrunsAtTheFirstShortStep :
    RunsParser .decode ∧
    (∃ n, n = (withInput []).ilen.toNat ∧ n ≤ 4096 ∧ n < 1) ∧
    (∃ n, n = (withInput [0x81]).ilen.toNat ∧ 1 ≤ n ∧ n < 2) ∧
    (∃ n x, n = (withInput [0x81, 0x7E, 0x01]).ilen.toNat ∧
      x = extBytes (frameOf .decode (withInput [0x81, 0x7E, 0x01])) ∧ 2 ≤ n ∧ x ≠ 0 ∧ n < 2 + x) ∧
    (∃ n x k, n = (withInput [0x81, 0x80, 1, 2, 3]).ilen.toNat ∧
      x = extBytes (frameOf .decode (withInput [0x81, 0x80, 1, 2, 3])) ∧
      k = keySize (frameOf .decode (withInput [0x81, 0x80, 1, 2, 3])) ∧
      2 ≤ n ∧ 2 + x ≤ n ∧ k ≠ 0 ∧ n < 2 + x + 4) ∧
    (∃ n x k len, n = (withInput [0x81, 0x03, 1, 2]).ilen.toNat ∧
      x = extBytes (frameOf .decode (withInput [0x81, 0x03, 1, 2])) ∧
      k = keySize (frameOf .decode (withInput [0x81, 0x03, 1, 2])) ∧
      len = declaredLen (frameOf .decode (withInput [0x81, 0x03, 1, 2])) ∧
      2 ≤ n ∧ 2 + x + k ≤ n ∧ n < 2 + x + k + len) ∧
    (∃ s' t : State, s'.params = (withInput [0x81, 0x00]).params ∧
      s'.ilen = (withInput [0x81, 0x00]).ilen ∧ bufByte s' .ibuf 2 = 0xAA ∧
      (∀ j, j < (withInput [0x81, 0x00]).ilen.toNat →
        inputFrame s' j = inputFrame (withInput [0x81, 0x00]) j) ∧
      exec .decode (withInput [0x81, 0x00]) = .next t) :=
  ⟨.inl rfl, ⟨_, rfl, by decide +kernel⟩, ⟨_, rfl, by decide +kernel⟩, ⟨_, _, rfl, rfl, by decide +kernel⟩,
    ⟨_, _, _, rfl, rfl, rfl, by decide +kernel⟩, ⟨_, _, _, _, rfl, rfl, rfl, rfl, by decide +kernel⟩,
    ⟨{ withInput [0x81, 0x00, 0xAA] with ilen := 2 }, _, by decide +kernel, by decide +kernel,
      by decide +kernel, by decide +kernel, rfl⟩⟩

theorem witness_ParserRejectsIlenAboveTheBuffer :
    ∃ s : State, RunsParser (.frameLen7 false 3) ∧ s.params.ibufSize < s.ilen.toNat :=
  ⟨{ State.reset with ilen := 4097 }, .inr (by decide), by decide⟩

/-- Vector D12 and the same frame without its trailing bytes. -/
theorem witness_DecodeReadsOnlyItsFrame :
    ∃ s s' t : State, s.ilen.toNat ≤ s.params.ibufSize ∧ s'.params = s.params ∧
      headerLen (inputFrame s) + declaredLen (inputFrame s) ≤ s.ilen.toNat ∧
      headerLen (inputFrame s) + declaredLen (inputFrame s) ≤ s'.ilen.toNat ∧
      s'.ilen.toNat ≤ s'.params.ibufSize ∧
      (∀ j, j < headerLen (inputFrame s) + declaredLen (inputFrame s) →
        inputFrame s' j = inputFrame s j) ∧
      exec .decode s = .next t ∧ s.ilen ≠ s'.ilen :=
  ⟨withInput [0x81, 0x02, 0x48, 0x69, 0x81, 0x02], withInput [0x81, 0x02, 0x48, 0x69], _,
    by decide +kernel, by decide +kernel, by decide +kernel, by decide +kernel, by decide +kernel,
    by decide +kernel, rfl, by decide +kernel⟩

/-- The hypotheses of `OpcodeRowRuns`, for a named and for an unnamed value. -/
theorem witness_NamedOpcodesAreReported :
    ∃ (s : State) (frame : Nat → Byte),
      frame = withFrameByte (inputFrame s) 0 (BitVec.ofBool true ++ (0 : BitVec 3) ++ (0x9 : BitVec 4)) ∧
      s.ilen.toNat ≤ s.params.ibufSize ∧ headerLen frame + declaredLen frame ≤ s.ilen.toNat :=
  ⟨withInput [0x81, 0x01, 7], _, rfl, by decide +kernel, by decide +kernel⟩

theorem witness_UnnamedOpcodesAreReported :
    ∃ (s : State) (frame : Nat → Byte),
      frame = withFrameByte (inputFrame s) 0 (BitVec.ofBool true ++ (7 : BitVec 3) ++ (0xF : BitVec 4)) ∧
      s.ilen.toNat ≤ s.params.ibufSize ∧ headerLen frame + declaredLen frame ≤ s.ilen.toNat :=
  ⟨withInput [0x81, 0x01, 7], _, rfl, by decide +kernel, by decide +kernel⟩

/-- Each length form on a frame that ends exactly at ILEN, masked and not. -/
theorem witness_LengthFormsGiveTheTableLength :
    (∃ s : State, s.ilen.toNat ≤ s.params.ibufSize ∧ 2 + 4 + (125 : BitVec 7).toNat ≤ s.ilen.toNat) ∧
    (∃ s : State, s.ilen.toNat ≤ s.params.ibufSize ∧
      4 + 0 + ((inputFrame s 2).toNat * 2 ^ 8 + (inputFrame s 3).toNat) ≤ s.ilen.toNat) ∧
    (∃ s : State, s.ilen.toNat ≤ s.params.ibufSize ∧
      6 + 4 + ((inputFrame s 2).toNat * 2 ^ 24 + (inputFrame s 3).toNat * 2 ^ 16 +
        (inputFrame s 4).toNat * 2 ^ 8 + (inputFrame s 5).toNat) ≤ s.ilen.toNat) :=
  ⟨⟨{ State.reset with ilen := 131 }, by decide⟩,
    ⟨withInput [0x82, 0x7E, 0x00, 0x03, 0xAA, 0xBB, 0xCC], by decide +kernel⟩,
    ⟨withInput [0x81, 0xFF, 0, 0, 0, 2, 1, 2, 3, 4, 0x4F, 0x4B], by decide +kernel⟩⟩

theorem witness_UnmaskXorsByLane :
    ∃ (p k : List Byte), k.length = 4 ∧ 4 < p.length :=
  ⟨[0x7F, 0x9F, 0x4D, 0x51, 0x58], [0x37, 0xFA, 0x21, 0x3D], by decide⟩

/-- ILEN exactly IBUF_SIZE, and one more. -/
theorem witness_UnmaskWritesTheXorOfTheInput :
    (∃ s : State, s.ilen.toNat ≤ s.params.ibufSize ∧ s.ilen = 4096) ∧
    (∃ s : State, s.params.ibufSize < s.ilen.toNat ∧ s.ilen = 4097) :=
  ⟨⟨{ State.reset with ilen := 4096 }, by decide⟩, ⟨{ State.reset with ilen := 4097 }, by decide⟩⟩

theorem witness_UnmaskIsSelfInverse :
    (∃ k : List Byte, k.length = 4) ∧
    ∃ s t u v : State, s.params.Legal ∧ s.ilen.toNat ≤ s.params.ibufSize ∧ exec .unmask s = .next t ∧
      u = { writeBuf .ibuf (bufBytes t .obuf t.olen.toNat) t with ilen := t.olen } ∧
      exec .unmask u = .next v ∧ s.ilen = 5 :=
  ⟨⟨[1, 2, 3, 4], rfl⟩, { withInput [0x00, 0xFF, 0x0F, 0xF0, 0x55] with maskkey := 0xFFFFFFFF }, _, _, _,
    by decide +kernel, by decide +kernel, rfl, rfl, rfl, by decide +kernel⟩

/-- ILEN exactly 125, exactly 126, and above IBUF_SIZE. -/
theorem witness_EncodePacksATextFrame :
    State.reset.params.Legal ∧ ({ State.reset with ilen := 125 } : State).ilen.toNat ≤ 125 ∧
    126 ≤ ({ State.reset with ilen := 126 } : State).ilen.toNat ∧
    126 ≤ ({ State.reset with ilen := 5000 } : State).ilen.toNat := by decide

theorem witness_EncodeThenDecodeGivesThePayloadBack :
    ∃ s t u : State, s.params.Legal ∧ s.ilen.toNat ≤ 125 ∧ exec .encode s = .next t ∧
      u = { writeBuf .ibuf (bufBytes t .obuf t.olen.toNat) t with ilen := t.olen } ∧ s.ilen = 5 :=
  ⟨withInput [0x48, 0x65, 0x6C, 0x6C, 0x6F], _, _, by decide +kernel, by decide +kernel, rfl, rfl,
    by decide +kernel⟩

/-- The conditions a table meets up to a check. -/
theorem tableS_passes :
    TableFits tableS ∧ UpgradePasses tableS ∧ ConnectionPasses tableS ∧ VersionPasses tableS := by
  refine ⟨?_, ⟨0, ?_, by decide +kernel⟩, ⟨1, ?_, [], [], by decide +kernel⟩, ⟨2, ?_, by decide +kernel⟩⟩
  · unfold TableFits; decide +kernel
  · unfold FirstNamed; decide +kernel
  · unfold FirstNamed; decide +kernel
  · unfold FirstNamed; decide +kernel

theorem witness_ValidateAcceptsAndWritesTheKey :
    tableS.params.Legal ∧ TableFits tableS ∧ UpgradePasses tableS ∧ ConnectionPasses tableS ∧
      VersionPasses tableS ∧ FirstNamed tableS strKey 3 ∧ TrimsTo (headerValue tableS 3) sampleKey := by
  refine ⟨by decide +kernel, tableS_passes.1, tableS_passes.2.1, tableS_passes.2.2.1,
    tableS_passes.2.2.2, ?_, ?_⟩
  · unfold FirstNamed; decide +kernel
  · exact ⟨by decide, [], [], by decide +kernel, by decide, by decide, by decide, by decide⟩

/-- Check 1 fails: absent (vector V2), and with a leading space in its value (vector V8). -/
theorem witness_ValidateFails_upgrade :
    (TableFits State.reset ∧ NoneNamed State.reset strUpgrade) ∧
    ∃ s : State, TableFits s ∧ FirstNamed s strUpgrade 0 ∧ fold (headerValue s 0) ≠ strWebsocket := by
  refine ⟨⟨?_, ?_⟩, withHeaders [hUpgradeSpace], ?_, ?_, by decide +kernel⟩
  · unfold TableFits; decide +kernel
  · unfold NoneNamed; decide +kernel
  · unfold TableFits; decide +kernel
  · unfold FirstNamed; decide +kernel

/-- Check 2 fails: absent, and `keep-alive` alone (vector V10). -/
theorem witness_ValidateFails_connection :
    (∃ s : State, TableFits s ∧ UpgradePasses s ∧ NoneNamed s strConnection) ∧
    ∃ s : State, TableFits s ∧ UpgradePasses s ∧ FirstNamed s strConnection 1 ∧
      ¬ ∃ u v, fold (headerValue s 1) = u ++ strUpgrade ++ v := by
  refine ⟨⟨withHeaders [hUpgrade], ?_, ⟨0, ?_, by decide +kernel⟩, ?_⟩,
    withHeaders [hUpgrade, hKeepAlive], ?_, ⟨0, ?_, by decide +kernel⟩, ?_, ?_⟩
  · unfold TableFits; decide +kernel
  · unfold FirstNamed; decide +kernel
  · unfold NoneNamed; decide +kernel
  · unfold TableFits; decide +kernel
  · unfold FirstNamed; decide +kernel
  · unfold FirstNamed; decide +kernel
  · rintro ⟨u, v, h⟩
    have h75 : (0x75 : Byte) ∈ fold (headerValue (withHeaders [hUpgrade, hKeepAlive]) 1) := by
      rw [h]; simp [strUpgrade]
    exact absurd h75 (by decide +kernel)

/-- Check 3 fails: absent (vector V23), and `013` (vector V12). -/
theorem witness_ValidateFails_version :
    (∃ s : State, TableFits s ∧ UpgradePasses s ∧ ConnectionPasses s ∧ NoneNamed s strVersion) ∧
    ∃ s : State, TableFits s ∧ UpgradePasses s ∧ ConnectionPasses s ∧ FirstNamed s strVersion 2 ∧
      headerValue s 2 ≠ dec s.cfgVersion := by
  refine ⟨⟨withHeaders [hUpgrade, hConnection], ?_, ⟨0, ?_, by decide +kernel⟩,
      ⟨1, ?_, [], [], by decide +kernel⟩, ?_⟩,
    withHeaders [hUpgrade, hConnection, hVersion013], ?_, ⟨0, ?_, by decide +kernel⟩,
      ⟨1, ?_, [], [], by decide +kernel⟩, ?_, by decide +kernel⟩
  · unfold TableFits; decide +kernel
  · unfold FirstNamed; decide +kernel
  · unfold FirstNamed; decide +kernel
  · unfold NoneNamed; decide +kernel
  · unfold TableFits; decide +kernel
  · unfold FirstNamed; decide +kernel
  · unfold FirstNamed; decide +kernel
  · unfold FirstNamed; decide +kernel

/-- Check 4 fails: absent (vector V6), and a value of spaces alone (as vector V16). -/
theorem witness_ValidateFails_key :
    (∃ s : State, TableFits s ∧ UpgradePasses s ∧ ConnectionPasses s ∧ VersionPasses s ∧
      NoneNamed s strKey) ∧
    ∃ s : State, TableFits s ∧ UpgradePasses s ∧ ConnectionPasses s ∧ VersionPasses s ∧
      FirstNamed s strKey 3 ∧ ∀ b ∈ headerValue s 3, isSpace b = true := by
  refine ⟨⟨withHeaders [hUpgrade, hConnection, hVersion], ?_, ⟨0, ?_, by decide +kernel⟩,
      ⟨1, ?_, [], [], by decide +kernel⟩, ⟨2, ?_, by decide +kernel⟩, ?_⟩,
    withHeaders [hUpgrade, hConnection, hVersion, hKeyBlank], ?_, ⟨0, ?_, by decide +kernel⟩,
      ⟨1, ?_, [], [], by decide +kernel⟩, ⟨2, ?_, by decide +kernel⟩, ?_, by decide +kernel⟩
  · unfold TableFits; decide +kernel
  · unfold FirstNamed; decide +kernel
  · unfold FirstNamed; decide +kernel
  · unfold FirstNamed; decide +kernel
  · unfold NoneNamed; decide +kernel
  · unfold TableFits; decide +kernel
  · unfold FirstNamed; decide +kernel
  · unfold FirstNamed; decide +kernel
  · unfold FirstNamed; decide +kernel
  · unfold FirstNamed; decide +kernel

/-- HDR_COUNT one above HDR_N (vector V24); a name one too long before a good entry, and a value one too
long at the last entry (vectors V25, V26). -/
theorem witness_PreCheckRaisesTheFirstBadLength :
    (∃ s : State, s.params.hdrN < s.hdrCount.toNat ∧ s.hdrCount = 17) ∧
    (∃ s : State, s.hdrCount.toNat ≤ s.params.hdrN ∧ 0 < s.hdrCount.toNat ∧
      s.params.hnameMax < (hdrLens s 0).nameLen.toNat) ∧
    (∃ s : State, s.hdrCount.toNat ≤ s.params.hdrN ∧ 15 < s.hdrCount.toNat ∧
      (∀ e', e' < 15 → (hdrLens s e').nameLen.toNat ≤ s.params.hnameMax ∧
        (hdrLens s e').valueLen.toNat ≤ s.params.hvalMax) ∧
      (hdrLens s 15).nameLen.toNat ≤ s.params.hnameMax ∧
      s.params.hvalMax < (hdrLens s 15).valueLen.toNat) :=
  ⟨⟨{ State.reset with hdrCount := 17 }, by decide⟩,
    ⟨{ State.reset with hdrCount := 1, hdr := State.reset.hdr.set 0 ⟨65, 0⟩ }, by decide +kernel⟩,
    ⟨{ State.reset with hdrCount := 16, hdr := State.reset.hdr.set 15 ⟨64, 257⟩ }, by decide +kernel⟩⟩

/-- The four ways TrimRemovesTheLongestEnds and the folding statement see a byte. -/
theorem witness_FoldingLowersAsciiCapitalsOnly :
    ∃ bs : List Byte, ∃ h : 3 < bs.length, 0x41 ≤ bs[0].toNat ∧ bs[1].toNat ≤ 0x5A ∧
      ¬ 0x41 ≤ bs[2].toNat ∧ ¬ bs[3].toNat ≤ 0x5A :=
  ⟨[0x41, 0x5A, 0x40, 0x5B], by decide, by decide⟩

/-- Both ends of every range of rounds and rotations. -/
theorem witness_RoundFunctionsBitByBit :
    (0 < 32 ∧ 31 < 32) ∧ (1 ≤ 31 ∧ 31 ≤ 31) ∧ (0 ≤ 19 ∧ 20 ≤ 39) ∧ (40 ≤ 59 ∧ 60 ≤ 79) := by decide

theorem witness_ScheduleFollowsTheRecurrence : (List.replicate 64 (0 : Byte)).length = 64 := by decide

theorem witness_PaddingFillsTheLastBlock : 8 * (List.replicate 56 (0x61 : Byte)).length < 2 ^ 64 := by
  decide

/-- ILEN exactly IBUF_SIZE, and one more. -/
theorem witness_Sha1WritesTheDigest :
    (∃ s : State, s.ilen.toNat ≤ s.params.ibufSize ∧ s.ilen = 4096) ∧
    (∃ s : State, s.params.ibufSize < s.ilen.toNat ∧ s.ilen = 4097) :=
  ⟨⟨{ State.reset with ilen := 4096 }, by decide⟩, ⟨{ State.reset with ilen := 4097 }, by decide⟩⟩

/-- KEYLEN exactly HVAL_MAX, and one more. -/
theorem witness_AcceptWritesDigestAndToken :
    (∃ s : State, s.keylen.toNat ≤ s.params.hvalMax ∧ s.keylen = 256) ∧
    (∃ s : State, s.params.hvalMax < s.keylen.toNat ∧ s.keylen = 257) :=
  ⟨⟨{ State.reset with keylen := 256 }, by decide⟩, ⟨{ State.reset with keylen := 257 }, by decide⟩⟩

/-- Both ends of each range of the alphabet; a full group, a last group of two bytes and one of one byte. -/
theorem witness_Base64TextByGroups :
    (∀ v : BitVec 6, v ∈ [0, 25] → v.toNat ≤ 25) ∧
    (∀ v : BitVec 6, v ∈ [26, 51] → 26 ≤ v.toNat ∧ v.toNat ≤ 51) ∧
    (∀ v : BitVec 6, v ∈ [52, 61] → 52 ≤ v.toNat ∧ v.toNat ≤ 61) ∧
    (62 : BitVec 6).toNat = 62 ∧ (63 : BitVec 6).toNat = 63 ∧
    3 * 0 + 3 ≤ ([0x66, 0x6F, 0x6F] : List Byte).length ∧
    ([0x66, 0x6F, 0x6F, 0x62, 0x61] : List Byte).length = 3 * 1 + 2 ∧
    ([0x66] : List Byte).length = 3 * 0 + 1 := by decide

theorem witness_Base64LosesNothing : base64 [0x66, 0x6F] = base64 [0x66, 0x6F] ∧ base64 [] = [] := by
  decide

theorem witness_AcceptGivesTheTwsVector :
    ∃ s : State, s.keylen = 24 ∧ bufBytes s .keybuf 24 = sampleKey ∧ 24 ≤ s.params.hvalMax :=
  ⟨withKey sampleKey, by decide +kernel⟩

theorem witness_AcceptAfterAFailedValidate :
    ∃ s t : State, exec .validate s = .next t ∧ statusErrBit t.status = true ∧ s.keylen = 24 :=
  ⟨withKey sampleKey, raise ⟨.missingOrInvalidUpgrade, 0, 0xFF⟩ { withKey sampleKey with keylen := 0 },
    next_of_look (by decide +kernel), by decide +kernel⟩

end Sys2Proof.Tests
end

section
/-! PROOF. The invariant at reset (00_scope.md R7, 70_reset_and_hazards.md R260). -/

namespace Sys2Proof.Machine

@[simp] theorem statusOkBit_zero : statusOkBit 0#32 = false := rfl
@[simp] theorem statusErrBit_zero : statusErrBit 0#32 = false := rfl
@[simp] theorem errorHighField_zero : errorHighField 0#32 = 0 := rfl
@[simp] theorem frameHigh_zero : frameHigh 0#32 = 0 := rfl
@[simp] theorem frameLenForm_zero : frameLenForm 0#32 = 0 := rfl
@[simp] theorem frameHdrLen_zero : frameHdrLen 0#32 = 0 := rfl

@[simp] theorem resetWith_status (p : Params) (n : Nat) : (State.resetWith p n).status = 0 := rfl
@[simp] theorem resetWith_errcode (p : Params) (n : Nat) : (State.resetWith p n).errcode = 0 := rfl
@[simp] theorem resetWith_frame (p : Params) (n : Nat) : (State.resetWith p n).frame = 0 := rfl
@[simp] theorem resetWith_plen (p : Params) (n : Nat) : (State.resetWith p n).plen = 0 := rfl
@[simp] theorem resetWith_consumed (p : Params) (n : Nat) : (State.resetWith p n).consumed = 0 := rfl

/-- No window byte is listed after reset, so none is outside the address map. -/
theorem reset_mem_mapped (p : Params) (n : Nat) :
    Memory.mapped p (State.resetWith p n).mem = true := rfl

/-- A reset under legal parameters establishes the invariant. The parameters enter only through their
legality and the length of the header table: STATUS is 0, so the clauses on ERR = 1 are void, and FRAME
is 0, so the clauses on a decoded frame are void. -/
theorem resetWith_inv {p : Params} (n : Nat) (hp : p.Legal) : (State.resetWith p n).Inv where
  legal := hp
  hdrLength := List.length_replicate
  memWf := reset_mem_wf p n
  memMapped := reset_mem_mapped p n
  statusHigh := by simp
  notBoth := by simp
  noError := fun _ => resetWith_errcode p n
  errorCodes := by simp
  errorHigh := by simp
  frameHighZero := by simp
  lenForm := by simp
  hdrLen := fun h => absurd (resetWith_frame p n) h
  known := fun h => absurd (resetWith_frame p n) h
  consumedSum := by simp
  consumedFits := Nat.zero_le _
  olenFits := Nat.zero_le _

/-- Settles O3: both halves are `resetWith_inv`, the first at R7's reference values. -/
theorem invariantHoldsAfterReset : Obligations.InvariantHoldsAfterReset :=
  ⟨resetWith_inv 0 (by decide), fun _ n hp => resetWith_inv n hp⟩

end Sys2Proof.Machine
end

section
/-! PROOF. One step, said once: where the control registers stand, what a host event that issues no
command does, and what every step therefore keeps (20_memory.md R60 to R64, 60_exceptions.md R237). -/

namespace Sys2Proof.Machine

/-- A control register stands at its own address, whatever the parameters (R61). -/
theorem locate_of_mem_controlMap (p : Params) {a : Nat} {r : Reg} (h : (a, r) ∈ controlMap) :
    locate p a = .reg r := by
  have map_functional : ∀ x ∈ controlMap, x.1 < 0x100 ∧ controlMap.lookup x.1 = some x.2 := by decide
  obtain ⟨hlt, hlookup⟩ := map_functional _ h
  rw [locate_control p hlt, hlookup]

/-- NAME_LEN[e] stands at the first address of its entry (R61). -/
theorem locate_nameLen {p : Params} (hp : p.Legal) {e : Nat} (he : e < p.hdrN) :
    locate p (0x10000 + 0x400 * e) = .reg (.nameLen e) :=
  locate_entry (off := 0) he (by decide) hp

/-- VALUE_LEN[e] stands four addresses above NAME_LEN[e] (R61). -/
theorem locate_valueLen {p : Params} (hp : p.Legal) {e : Nat} (he : e < p.hdrN) :
    locate p (0x10000 + 0x400 * e + 4) = .reg (.valueLen e) :=
  locate_entry (off := 4) he (by decide) hp

/-- A register shows the same value whatever the host does next. -/
theorem readReg_host (s : State) (rest : List HostEvent) (r : Reg) :
    readReg { s with host := rest } r = readReg s r := by
  cases r <;> rfl

/-- A 32-bit read at a register's address returns the register (R63). -/
theorem step_rd32 {s : State} {a : Addr} {r : Reg} {rest : List HostEvent}
    (h : s.host = .access (.rd32 a) :: rest) (hl : locate s.params a.toNat = .reg r) :
    step s = .next { s with host := rest, reply := some (.word (readReg s r)) } := by
  simp only [step, h, hostEvent, read32, hl, readReg_host, replyWith]

/-- A 32-bit write at the address of a writable register other than CMD stores the value (R63). -/
theorem step_wr32 {s : State} {a : Addr} {v : Word} {r : Reg} {rest : List HostEvent}
    (h : s.host = .access (.wr32 a v) :: rest) (hl : locate s.params a.toNat = .reg r)
    (hw : r.writable = true) (hc : r ≠ .cmd) :
    step s = .next (replyWith none (writeReg r v { s with host := rest })) := by
  simp only [step, h, hostEvent, write32, hl, hw, hc, if_true, if_false]

/-- What a host event that issues no command can do to the state (R60, R63, R64, R260). -/
inductive QuietEffect (s : State) : State → Prop
  | answer (r : Option Reply) : QuietEffect s (replyWith r s)
  | accessError (r : Option Reply) : QuietEffect s (replyWith r (accessError s))
  | storeByte (w : Win) (i : Nat) (b : Byte) (hl : locate s.params (w.addr i) = .byte w i) :
      QuietEffect s (replyWith none (writeByte w i b s))
  | storeReg (r : Reg) (v : Word) : QuietEffect s (replyWith none (writeReg r v s))
  | reset : QuietEffect s (resetEvent s)

theorem read8_effect (a : Addr) (s : State) : QuietEffect s (read8 a s) := by
  unfold read8
  split
  · exact .answer _
  · exact .accessError _
  · exact .accessError _

theorem read32_effect (a : Addr) (s : State) : QuietEffect s (read32 a s) := by
  unfold read32
  split
  · exact .answer _
  · exact .accessError _
  · exact .accessError _

theorem write8_effect (a : Addr) (b : Byte) (s : State) : QuietEffect s (write8 a b s) := by
  unfold write8
  split
  · next w i hl =>
    split
    · obtain ⟨-, -, ha⟩ := byte_of_locate hl
      exact .storeByte w i b (ha ▸ hl)
    · exact .accessError _
  · exact .accessError _
  · exact .accessError _

/-- An event that issues no command has one of those effects; one that issues `w` has stored it in CMD
and returned nothing (R22). -/
theorem hostEvent_cases (ev : HostEvent) (s : State) :
    (∃ t, hostEvent ev s = .quiet t ∧ QuietEffect s t) ∨
    (∃ w, hostEvent ev s = .command w (replyWith none (writeReg .cmd w s))) := by
  match ev with
  | .reset => exact .inl ⟨_, rfl, .reset⟩
  | .access (.rd8 a) => exact .inl ⟨_, rfl, read8_effect a s⟩
  | .access (.rd32 a) => exact .inl ⟨_, rfl, read32_effect a s⟩
  | .access (.wr8 a b) => exact .inl ⟨_, rfl, write8_effect a b s⟩
  | .access (.wr32 a v) =>
    rcases write32_cases a v s with ⟨-, h⟩ | ⟨r, -, -, -, h⟩ | ⟨-, h⟩
    · exact .inr ⟨v, h⟩
    · exact .inl ⟨_, h, .storeReg r v⟩
    · exact .inl ⟨_, h, .accessError none⟩

/-- A property that taking an event from the queue, a quiet event, every instruction and every raised
error keep is kept by every step: the CMD write of a command is itself the store of a register. -/
theorem step_preserves {P : State → Prop} {s t : State}
    (htake : ∀ s rest, P s → P { s with host := rest })
    (hquiet : ∀ s t, P s → QuietEffect s t → P t)
    (hexec : ∀ i s t, P s → exec i s = .next t → P t)
    (hraise : ∀ e s, P s → P (raise e s))
    (hs : P s) (h : step s = .next t) : P t := by
  rcases step_cases s with ⟨-, hidle⟩ | ⟨ev, rest, -, hev⟩
  · rw [hidle] at h
    cases h
    exact hs
  have hs' := htake s rest hs
  rcases hostEvent_cases ev { s with host := rest } with ⟨u, hu, hq⟩ | ⟨w, hw⟩
  · rcases hev with ⟨u', hu', hstep⟩ | ⟨_, _, hc, -⟩
    · rw [hu] at hu'
      rw [hstep] at h
      cases hu'
      cases h
      exact hquiet _ _ hs' hq
    · rw [hu] at hc
      cases hc
  · rcases hev with ⟨_, hq, -⟩ | ⟨w', u, hc, hstep⟩
    · rw [hw] at hq
      cases hq
    · rw [hw] at hc
      cases hc
      have hu := hquiet _ _ hs' (.storeReg .cmd w)
      rw [hstep, issue] at h
      split at h
      · exact hexec _ _ _ hu h
      · cases h
        exact hraise _ _ hu

end Sys2Proof.Machine
end

section
/-! PROOF. Every instruction, inverted once: the registers it keeps, the error record it leaves and where it
may write (10_state.md R47, 60_exceptions.md R235, R236). -/

namespace Sys2Proof.Machine

/-- The answer of an instruction is an error with its failure outputs, or success after its writes. -/
theorem exec_next {i : Instr} {s t : State} (h : exec i s = .next t) :
    (∃ e, t = raise e (failureOutputs i s)) ∨ (∃ u, t = succeed u ∧ Wrote i s u) := by
  rcases exec_outcome i s with ⟨e, he⟩ | ⟨u, he, hu⟩
  · rw [he] at h
    cases h
    exact .inl ⟨e, rfl⟩
  · rw [he] at h
    cases h
    exact .inr ⟨u, rfl, hu⟩

/-- An instruction that runs the parser clears DECODE's outputs with an error, or parses a frame that lies
within ILEN (R121, R122). -/
theorem exec_parser_next {i : Instr} {s t : State} (hi : RunsParser i) (h : exec i s = .next t) :
    (∃ e, t = raise e (clearParsed s)) ∨
    (s.ilen.toNat ≤ s.params.ibufSize ∧
      headerLen (frameOf i s) + declaredLen (frameOf i s) ≤ s.ilen.toNat ∧
      t = succeed (writeParsed s (parsedOf (frameOf i s)))) := by
  rw [exec_parser hi] at h
  cases h
  exact decodeFrame_outcome (frameOf i s) s

theorem keepsRegs_raise {i : Instr} {s u : State} (e : CmdError) (h : KeepsRegs i s u) :
    KeepsRegs i s (raise e u) := by
  obtain ⟨hc, hf, hk, ho⟩ := h
  exact ⟨keepsControl_raise e hc,
    fun hn => let ⟨h1, h2, h3, h4⟩ := hf hn; ⟨h1, h2, h3, h4⟩, hk, ho⟩

theorem keepsRegs_succeed {i : Instr} {s u : State} (h : KeepsRegs i s u) :
    KeepsRegs i s (succeed u) := by
  obtain ⟨hc, hf, hk, ho⟩ := h
  exact ⟨keepsControl_succeed hc,
    fun hn => let ⟨h1, h2, h3, h4⟩ := hf hn; ⟨h1, h2, h3, h4⟩, hk, ho⟩

/-- Whatever its outcome, an instruction keeps the registers R47 gives it no write to. -/
theorem exec_keepsRegs {i : Instr} {s t : State} (h : exec i s = .next t) : KeepsRegs i s t := by
  rcases exec_next h with ⟨e, rfl⟩ | ⟨u, rfl, hu⟩
  · exact keepsRegs_raise e (failureOutputs_keeps i s).1
  · exact keepsRegs_succeed hu.regs

/-- No quiet event changes the parameters, the reset event included (R34). -/
theorem QuietEffect.params {s t : State} (h : QuietEffect s t) : t.params = s.params := by
  cases h with
  | storeReg r v => cases r <;> rfl
  | _ => rfl

/-- R34 for one step. -/
theorem step_params {s t : State} (h : step s = .next t) : t.params = s.params :=
  step_preserves (P := fun u => u.params = s.params)
    (fun _ _ hu => hu)
    (fun _ _ hu hq => hq.params.trans hu)
    (fun _ _ _ hu he => (exec_keepsRegs he).control.params.trans hu)
    (fun _ _ hu => hu) rfl h

end Sys2Proof.Machine
end

section
/-! PROOF. The invariant is kept (10_state.md R23 to R30, R40, R41; 20_memory.md R61, R62; 60_exceptions.md
R230, R235): its clauses on the error record, on the record of a decoded frame and on memory, each kept on
its own, and the step from them. -/

namespace Sys2Proof.Machine

/-! ### The error record -/

/-- The clauses of the invariant on STATUS.OK, STATUS.ERR and ERRCODE. -/
structure ErrorRecord (status errcode : Word) : Prop where
  notBoth : ¬ (statusOkBit status = true ∧ statusErrBit status = true)
  noError : statusErrBit status = false → errcode = 0
  errorCodes : statusErrBit status = true →
    1 ≤ (errorCodeField errcode).toNat ∧ (errorCodeField errcode).toNat ≤ 8
  errorHigh : errorHighField errcode = 0

theorem errorRecord_succeed (w : Word) : ErrorRecord (statusSucceed w) 0 where
  notBoth := by simp
  noError := fun _ => rfl
  errorCodes := by simp
  errorHigh := by simp

theorem errorRecord_raise (w : Word) (e : CmdError) : ErrorRecord (statusRaise w) (packError e) where
  notBoth := by simp
  noError := by simp
  errorCodes := fun _ => by simpa using errorCode_range e.kind
  errorHigh := by simp

theorem exec_errorRecord {i : Instr} {s t : State} (h : exec i s = .next t) :
    ErrorRecord t.status t.errcode := by
  rcases exec_next h with ⟨e, rfl⟩ | ⟨u, rfl, -⟩
  · exact errorRecord_raise _ e
  · exact errorRecord_succeed _

/-! ### The record of a decoded frame -/

/-- The clauses of the invariant on FRAME, PLEN and CONSUMED, with an input buffer of `n` bytes. -/
structure FrameRecord (n : Nat) (frame plen consumed : Word) : Prop where
  high : frameHigh frame = 0
  lenForm : frameLenForm frame ≠ 3
  hdrLen : frame ≠ 0 → (frameHdrLen frame).toNat =
    2 + 2 * (frameLenForm frame).toNat + (if frameMask frame then 4 else 0)
  known : frame ≠ 0 → frameOpKnown frame = opKnown (frameOpcode frame)
  consumedSum : consumed.toNat = (frameHdrLen frame).toNat + plen.toNat
  consumedFits : consumed.toNat ≤ n

theorem frameRecord_zero (n : Nat) : FrameRecord n 0 0 0 where
  high := rfl
  lenForm := by simp
  hdrLen := fun h => absurd rfl h
  known := fun h => absurd rfl h
  consumedSum := rfl
  consumedFits := Nat.zero_le _

/-- A length form is 0, 1 or 2 and stands for twice as many extension bytes (R96). -/
theorem extBytes_eq (frame : Nat → Byte) : extBytes frame = 2 * (declaredForm frame).toNat := by
  unfold extBytes declaredForm
  split
  · rfl
  · split <;> rfl

theorem declaredForm_ne_three (frame : Nat → Byte) : declaredForm frame ≠ 3 := by
  unfold declaredForm
  split
  · decide
  · split <;> decide

/-- A complete frame is recorded whole: no field is cut short (R27, R29). -/
theorem frameRecord_parsed {frame : Nat → Byte} {n : Nat} (s : State)
    (hfit : headerLen frame + declaredLen frame ≤ n) (hn : n < 2 ^ 32) :
    FrameRecord n (writeParsed s (parsedOf frame)).frame (writeParsed s (parsedOf frame)).plen
      (writeParsed s (parsedOf frame)).consumed := by
  have hhdr : (BitVec.ofNat 4 (headerLen frame)).toNat = headerLen frame := by
    rw [BitVec.toNat_ofNat]
    exact Nat.mod_eq_of_lt (Nat.lt_of_le_of_lt (headerLen_le frame) (by decide))
  have hlen : (BitVec.ofNat 32 (declaredLen frame)).toNat = declaredLen frame := by
    rw [BitVec.toNat_ofNat]
    exact Nat.mod_eq_of_lt (declaredLen_lt frame)
  have hsum : (BitVec.ofNat 32 (headerLen frame + declaredLen frame)).toNat =
      headerLen frame + declaredLen frame := by
    rw [BitVec.toNat_ofNat]
    exact Nat.mod_eq_of_lt (by omega)
  simp only [writeParsed_frame, writeParsed_plen, writeParsed_consumed, parsedOf]
  exact {
    high := frameHigh_pack ..
    lenForm := by simpa using declaredForm_ne_three frame
    hdrLen := fun _ => by
      rw [frameHdrLen_pack, frameLenForm_pack, frameMask_pack, hhdr, headerLen, extBytes_eq, keySize]
    known := fun _ => by rw [frameOpKnown_pack, frameOpcode_eq, packFrame_byte0, opcodeOf]
    consumedSum := by rw [frameHdrLen_pack, hhdr, hlen, hsum]
    consumedFits := by rw [hsum]; exact hfit }

theorem State.Inv.frameRecord {s : State} (h : s.Inv) :
    FrameRecord s.params.ibufSize s.frame s.plen s.consumed :=
  ⟨h.frameHighZero, h.lenForm, h.hdrLen, h.known, h.consumedSum, h.consumedFits⟩

/-- The registers fit in 32 bits: an input buffer has at most 2^20 bytes (R7). -/
theorem State.Inv.ibufSize_lt {s : State} (h : s.Inv) : s.params.ibufSize < 2 ^ 32 := by
  obtain ⟨⟨-, hle⟩, -⟩ := h.legal
  omega

/-- An instruction that runs the parser records a complete frame or clears the record; any other leaves
it. -/
theorem exec_frameRecord {i : Instr} {s t : State} (hs : s.Inv) (h : exec i s = .next t) :
    FrameRecord t.params.ibufSize t.frame t.plen t.consumed := by
  rw [(exec_keepsRegs h).control.params]
  by_cases hi : RunsParser i
  · rcases exec_parser_next hi h with ⟨e, rfl⟩ | ⟨hilen, hfit, rfl⟩
    · exact frameRecord_zero _
    · exact frameRecord_parsed s (hfit.trans hilen) hs.ibufSize_lt
  · have hk := (exec_keepsRegs h).frameRegs hi
    rw [hk.frame, hk.plen, hk.consumed]
    exact hs.frameRecord

/-- OBUF[0 .. OLEN) lies in OBUF after every instruction (R30, R36). -/
theorem exec_olenFits {i : Instr} {s t : State} (hs : s.Inv) (h : exec i s = .next t) :
    t.olen.toNat ≤ s.params.ibufSize := by
  rcases parser_or_command i with hi | rfl | rfl | hi
  · rcases exec_parser_next hi h with ⟨e, rfl⟩ | ⟨hilen, hfit, rfl⟩
    · exact Nat.zero_le _
    · rw [succeed_olen, writeParsed_olen, BitVec.toNat_ofNat]
      exact (Nat.mod_le _ _).trans (show declaredLen (frameOf i s) ≤ _ by omega)
  · rw [exec_unmask] at h
    cases h
    split
    · exact Nat.zero_le _
    · next hilen => exact Nat.le_of_not_lt hilen
  · rw [exec_encode] at h
    cases h
    split
    · exact Nat.zero_le _
    · next hilen =>
      obtain ⟨⟨hle, -⟩, -⟩ := hs.legal
      show (s.ilen + 2).toNat ≤ _
      rw [BitVec.toNat_add, show (2 : Word).toNat = 2 from rfl]
      omega
  · rw [(exec_keepsRegs h).olen hi]
    exact hs.olenFits

/-! ### Memory -/

/-- Every address of a window's first `n` bytes is a window byte's (R62). -/
theorem locate_window {p : Params} {w : Win} {n : Nat} (hp : p.Legal) (hw : w.InTable p)
    (hn : n ≤ w.size p) :
    ∀ c, w.addr 0 ≤ c → c < w.addr 0 + n → ∃ w i, locate p c = .byte w i := by
  intro c hlo hhi
  obtain ⟨i, rfl⟩ := Nat.exists_eq_add_of_le hlo
  exact ⟨w, i, addr_eq w i ▸ locate_addr hp hw (by omega)⟩

/-- Whatever its outcome, an instruction leaves a canonical memory inside the windows. -/
theorem exec_memory {i : Instr} {s t : State} (hs : s.Inv) (h : exec i s = .next t) :
    Memory.wf t.mem = true ∧ Memory.mapped s.params t.mem = true := by
  rcases exec_next h with ⟨e, rfl⟩ | ⟨u, rfl, hu⟩
  · rw [raise_mem, (failureOutputs_keeps i s).2]
    exact ⟨hs.memWf, hs.memMapped⟩
  · obtain ⟨w, w', bs, bs', hw, hw', -, -, hfit, hmem⟩ := hu.memory
    obtain ⟨hbs, hbs'⟩ := hfit hs.legal
    rw [succeed_mem, hmem]
    exact ⟨memWrite_wf _ _ (memWrite_wf _ _ hs.memWf),
      memWrite_mapped
        (memWrite_mapped hs.memMapped (locate_window hs.legal (writesWindow_inTable _ hw) hbs))
        (locate_window hs.legal (writesWindow_inTable _ hw') hbs')⟩

/-! ### The invariant -/

/-- STATUS[31:3] is part of STATUS[31:2], which no instruction changes (R235). -/
theorem statusHigh_eq (w : Word) : w.extractLsb' 3 29 = (w.extractLsb' 2 30).extractLsb' 1 29 := by
  apply BitVec.eq_of_getLsbD_eq
  intro i hi
  simp only [BitVec.getLsbD_extractLsb', ← Nat.add_assoc, show 1 + i < 30 by omega, decide_true,
    Bool.true_and]

/-- What keeps the control state and leaves a good error record, frame record, OLEN and memory keeps the
invariant. -/
theorem inv_of_keepsControl {s t : State} (hs : s.Inv) (hc : KeepsControl s t)
    (hrec : ErrorRecord t.status t.errcode)
    (hframe : FrameRecord t.params.ibufSize t.frame t.plen t.consumed)
    (holen : t.olen.toNat ≤ s.params.ibufSize)
    (hmem : Memory.wf t.mem = true ∧ Memory.mapped s.params t.mem = true) : t.Inv where
  legal := hc.params ▸ hs.legal
  hdrLength := by rw [hc.hdr, hc.params]; exact hs.hdrLength
  memWf := hmem.1
  memMapped := hc.params ▸ hmem.2
  statusHigh := by
    rw [statusHigh_eq, hc.statusRest, ← statusHigh_eq]
    exact hs.statusHigh
  notBoth := hrec.notBoth
  noError := hrec.noError
  errorCodes := hrec.errorCodes
  errorHigh := hrec.errorHigh
  frameHighZero := hframe.high
  lenForm := hframe.lenForm
  hdrLen := hframe.hdrLen
  known := hframe.known
  consumedSum := hframe.consumedSum
  consumedFits := hframe.consumedFits
  olenFits := hc.params ▸ holen

theorem exec_inv {i : Instr} {s t : State} (hs : s.Inv) (h : exec i s = .next t) : t.Inv :=
  inv_of_keepsControl hs (exec_keepsRegs h).control (exec_errorRecord h) (exec_frameRecord hs h)
    (exec_olenFits hs h) (exec_memory hs h)

theorem raise_inv (e : CmdError) {s : State} (hs : s.Inv) : (raise e s).Inv :=
  inv_of_keepsControl hs (keepsControl_raise e (keepsControl_refl s)) (errorRecord_raise _ e)
    hs.frameRecord hs.olenFits ⟨hs.memWf, hs.memMapped⟩

/-- Only ACCERR may change without a command: a STATUS with the same OK, ERR and high bits is as good. -/
theorem inv_of_status {s : State} {v : Word} (hs : s.Inv)
    (hbits : ∀ n, n ≠ 2 → v.getLsbD n = s.status.getLsbD n) :
    ({ s with status := v } : State).Inv := by
  have hok : statusOkBit v = statusOkBit s.status := hbits 0 (by decide)
  have herr : statusErrBit v = statusErrBit s.status := hbits 1 (by decide)
  exact { hs with
    statusHigh := (high_bits_eq fun n hn => hbits n (by omega)).trans hs.statusHigh
    notBoth := by rw [hok, herr]; exact hs.notBoth
    noError := by rw [herr]; exact hs.noError
    errorCodes := by rw [herr]; exact hs.errorCodes }

/-- An access error sets ACCERR alone (R64). -/
theorem accessError_inv {s : State} (hs : s.Inv) : (accessError s).Inv :=
  inv_of_status hs fun n hn => by rw [statusAccessError_bit, if_neg hn]

/-- A stored register: STATUS takes ACCERR alone, the header table keeps its length, and the invariant
bounds no other writable register. -/
theorem writeReg_inv (r : Reg) (v : Word) {s : State} (hs : s.Inv) : (writeReg r v s).Inv := by
  cases r with
  | status => exact inv_of_status hs fun n hn => by rw [statusHostWrite_bit, if_neg hn]
  | nameLen e => exact { hs with hdrLength := (List.length_set ..).trans hs.hdrLength }
  | valueLen e => exact { hs with hdrLength := (List.length_set ..).trans hs.hdrLength }
  | _ => exact { hs with }

/-- What a quiet event returns to the host is no part of the invariant, so each effect is one of the lemmas
above. -/
theorem QuietEffect.inv {s t : State} (hs : s.Inv) (h : QuietEffect s t) : t.Inv := by
  cases h with
  | answer r => exact { hs with }
  | accessError r => exact { accessError_inv hs with }
  | storeByte w i b hl =>
    exact { hs with
      memWf := memSet_wf _ _ hs.memWf
      memMapped := memSet_mapped hs.memMapped hl }
  | storeReg r v => exact { writeReg_inv r v hs with }
  | reset => exact { resetWith_inv (s.resets + 1) hs.legal with }

/-- Settles O4: each part of a step keeps the invariant, so the step does. -/
theorem everyStepKeepsTheInvariant : Obligations.EveryStepKeepsTheInvariant := fun _ _ hs h =>
  step_preserves (fun _ _ hu => { hu with }) (fun _ _ hu hq => hq.inv hu)
    (fun _ _ _ hu he => exec_inv hu he) (fun e _ hu => raise_inv e hu) hs h

end Sys2Proof.Machine
end

section
/-! PROOF. The registers at their addresses (10_state.md R21 to R34, R41; 20_memory.md R61, R63). -/

namespace Sys2Proof.Machine

/-- An entry of the header table reads as its pair of length registers. -/
theorem hdrLens_of_getElem? {s : State} {e : Nat} {x : HdrLens} (h : s.hdr[e]? = some x) :
    hdrLens s e = x := by
  rw [hdrLens, List.getD_eq_getElem?_getD, h]
  rfl

/-- Settles O15: the listed addresses and values are those of `controlMap` read one by one, and an entry's
two registers stand at its offsets 0 and 4. -/
theorem registerReadsReturnTheRegister : Obligations.RegisterReadsReturnTheRegister := by
  intro s a rest hp h
  refine ⟨fun v hv => ?_, fun e x he hx => ⟨fun ha => ?_, fun ha => ?_⟩⟩
  · change (a.toNat, v) ∈ controlMap.map (fun x => (x.1, readReg s x.2)) at hv
    obtain ⟨⟨k, r⟩, hmem, heq⟩ := List.mem_map.1 hv
    obtain ⟨rfl, rfl⟩ := Prod.mk.inj heq
    exact step_rd32 h (locate_of_mem_controlMap _ hmem)
  · rw [step_rd32 h (ha ▸ locate_nameLen hp he), readReg, hdrLens_of_getElem? hx]
  · rw [step_rd32 h (ha ▸ locate_valueLen hp he), readReg, hdrLens_of_getElem? hx]

/-- Settles O16: each of the five registers stands at its address and is writable. -/
theorem registerWritesStoreTheValue : Obligations.RegisterWritesStoreTheValue := by
  intro s a v rest h
  have store : ∀ r : Reg, (a.toNat, r) ∈ controlMap → r.writable = true → r ≠ .cmd →
      step s = .next (replyWith none (writeReg r v { s with host := rest })) :=
    fun r hmem => step_wr32 h (locate_of_mem_controlMap _ hmem)
  refine ⟨?_, ?_, ?_, ?_, ?_⟩ <;> rintro rfl
  · exact store .cfgVersion (by decide) rfl (by decide)
  · exact store .ilen (by decide) rfl (by decide)
  · exact store .maskkey (by decide) rfl (by decide)
  · exact store .keylen (by decide) rfl (by decide)
  · exact store .hdrCount (by decide) rfl (by decide)

/-- A stored entry of the header table: it alone changes. -/
theorem hdr_set_entry {l : List HdrLens} {e : Nat} {x : HdrLens} (h : l[e]? = some x) (y : HdrLens) :
    (l.set e y).length = l.length ∧ (l.set e y)[e]? = some y ∧
      ∀ e', e' ≠ e → (l.set e y)[e']? = l[e']? :=
  ⟨List.length_set .., List.getElem?_set_self (List.getElem?_eq_some_iff.1 h).1,
    fun _ hne => List.getElem?_set_ne hne.symm⟩

/-- Settles O17: the write sets one component of the entry's pair. -/
theorem entryLengthWritesStoreTheValue : Obligations.EntryLengthWritesStoreTheValue := by
  intro s a v e x rest hp he hx h
  have hread : hdrLens { s with host := rest } e = x := hdrLens_of_getElem? hx
  refine ⟨fun ha => ⟨_, step_wr32 h (ha ▸ locate_nameLen hp he) rfl (by simp), rfl, ?_⟩,
    fun ha => ⟨_, step_wr32 h (ha ▸ locate_valueLen hp he) rfl (by simp), rfl, ?_⟩⟩
  · rw [replyWith_hdr, writeReg, hread]
    exact hdr_set_entry hx _
  · rw [replyWith_hdr, writeReg, hread]
    exact hdr_set_entry hx _

/-- Settles O22: the write to 0x008 stores `statusHostWrite`, which is known bit by bit. -/
theorem statusWriteClearsAccerr : Obligations.StatusWriteClearsAccerr := by
  intro s w rest h
  refine ⟨_, step_wr32 h (locate_of_mem_controlMap _ (r := .status) (by decide)) rfl (by decide), rfl,
    ?_, fun n hn => ?_⟩
  · exact statusHostWrite_bit s.status w 2
  · exact (statusHostWrite_bit s.status w n).trans (if_neg hn)

/-- Settles O12: the host write to CMD issues `w`, and `issue` runs what `w` decodes to. -/
theorem stepRunsTheDecodedCommand : Obligations.StepRunsTheDecodedCommand := by
  intro s w i rest h hd
  simp only [step_command h, issue, hd]

/-- Settles O23: `step_params`, and a legal parameter fits the 32 bits of its register. -/
theorem parametersNeverChange : Obligations.ParametersNeverChange := by
  refine ⟨fun s t h => step_params h, fun s hp => ?_⟩
  obtain ⟨⟨-, h1⟩, ⟨-, h2⟩, ⟨-, h3⟩, ⟨-, h4⟩⟩ := hp
  simp only [readReg, BitVec.toNat_ofNat]
  omega

end Sys2Proof.Machine
end

section
/-! PROOF. Commands read no flag and no earlier record (10_state.md R46, R47): a command's checks and
outputs are the same functions of the operands whatever CMD, STATUS, ERRCODE and the result registers hold,
so both runs record the same outcome. -/

namespace Sys2Proof.Machine

/-- `s` with CMD, the flags and the result registers of `r`. -/
def withRecordOf (s r : State) : State :=
  { s with cmd := r.cmd, status := r.status, errcode := r.errcode, frame := r.frame, plen := r.plen,
           consumed := r.consumed, olen := r.olen }

/-- Two states agree on memory and on the registers that instruction `i` writes (R47). -/
structure SameOutputs (i : Instr) (t u : State) : Prop where
  mem : u.mem = t.mem
  keylen : u.keylen = t.keylen
  maskkey : u.maskkey = t.maskkey
  frameRegs : RunsParser i → u.frame = t.frame ∧ u.plen = t.plen ∧ u.consumed = t.consumed
  olen : RunsParser i ∨ i = .unmask ∨ i = .encode → u.olen = t.olen

/-- Two states record the same outcome of instruction `i` (R235). -/
structure SameOutcome (i : Instr) (t u : State) : Prop where
  ok : statusOkBit u.status = statusOkBit t.status
  err : statusErrBit u.status = statusErrBit t.status
  errcode : u.errcode = t.errcode
  outputs : SameOutputs i t u

/-- The recording of an outcome does not read the flags it replaces. -/
theorem complete_sameOutcome {α : Type} {i : Instr} (r : Except CmdError α) {good good' : α → State}
    {bad bad' : State} (hgood : ∀ a, SameOutputs i (good a) (good' a)) (hbad : SameOutputs i bad bad') :
    SameOutcome i (complete r good bad) (complete r good' bad') := by
  cases r with
  | ok a =>
    obtain ⟨h1, h2, h3, h4, h5⟩ := hgood a
    exact ⟨by simp, by simp, rfl, h1, h2, h3, h4, h5⟩
  | error e =>
    obtain ⟨h1, h2, h3, h4, h5⟩ := hbad
    exact ⟨by simp, by simp, rfl, h1, h2, h3, h4, h5⟩

/-- The frame a parser instruction reads is in IBUF alone. -/
theorem frameOf_withRecordOf (i : Instr) (s r : State) : frameOf i (withRecordOf s r) = frameOf i s := by
  unfold frameOf
  split <;> rfl

/-- The handshake checks read the header table and CFG_VERSION alone. -/
theorem validateTable_withRecordOf (s r : State) : validateTable (withRecordOf s r) = validateTable s :=
  rfl

/-- A command word's outputs are memory, KEYLEN, MASKKEY and, of UNMASK and ENCODE, OLEN (R47). -/
theorem sameOutputs_command {i : Instr} {t u : State} (hi : spaceOf i = .cmd32 ∧ i ≠ .decode)
    (hmem : u.mem = t.mem) (hkeylen : u.keylen = t.keylen) (hmaskkey : u.maskkey = t.maskkey)
    (holen : i = .unmask ∨ i = .encode → u.olen = t.olen) : SameOutputs i t u :=
  have hn : ¬ RunsParser i := fun h => h.elim hi.2 (absurd hi.1)
  ⟨hmem, hkeylen, hmaskkey, fun h => absurd h hn, fun h => holen (h.resolve_left hn)⟩

/-- The outcome of an instruction and what it writes are the same from both states. -/
theorem exec_withRecordOf (i : Instr) (s r : State) :
    ∃ t u, exec i s = .next t ∧ exec i (withRecordOf s r) = .next u ∧ SameOutcome i t u := by
  rcases parser_or_command i with hi | rfl | rfl | rfl | rfl | rfl
  · refine ⟨_, _, exec_parser hi s, exec_parser hi (withRecordOf s r), ?_⟩
    rw [frameOf_withRecordOf]
    exact complete_sameOutcome _
      (fun _ => ⟨rfl, rfl, rfl, fun _ => ⟨rfl, rfl, rfl⟩, fun _ => rfl⟩)
      ⟨rfl, rfl, rfl, fun _ => ⟨rfl, rfl, rfl⟩, fun _ => rfl⟩
  · exact ⟨_, _, rfl, rfl, complete_sameOutcome (checkIlen s)
      (fun _ => sameOutputs_command (by decide) rfl rfl rfl (fun _ => rfl))
      (sameOutputs_command (by decide) rfl rfl rfl (fun _ => rfl))⟩
  · exact ⟨_, _, rfl, rfl, complete_sameOutcome (checkPayload s)
      (fun _ => sameOutputs_command (by decide) rfl rfl rfl (fun _ => rfl))
      (sameOutputs_command (by decide) rfl rfl rfl (fun _ => rfl))⟩
  · refine ⟨_, _, exec_validate s, exec_validate (withRecordOf s r), ?_⟩
    rw [validateTable_withRecordOf]
    exact complete_sameOutcome (validateTable s)
      (fun _ => sameOutputs_command (by decide) rfl rfl rfl (by simp))
      (sameOutputs_command (by decide) rfl rfl rfl (by simp))
  · exact ⟨_, _, rfl, rfl, complete_sameOutcome (checkKeylen s)
      (fun _ => sameOutputs_command (by decide) rfl rfl rfl (by simp))
      (sameOutputs_command (by decide) rfl rfl rfl (by simp))⟩
  · exact ⟨_, _, rfl, rfl, complete_sameOutcome (checkIlen s)
      (fun _ => sameOutputs_command (by decide) rfl rfl rfl (by simp))
      (sameOutputs_command (by decide) rfl rfl rfl (by simp))⟩

/-- Settles O27: `exec_withRecordOf`, with the seven words put in a state of their own. -/
theorem commandsReadNoFlagsOrResults : Obligations.CommandsReadNoFlagsOrResults := by
  intro i s t c st er fr pl co ol h
  obtain ⟨t', u, ht, hu, ho⟩ := exec_withRecordOf i s
    { s with cmd := c, status := st, errcode := er, frame := fr, plen := pl, consumed := co, olen := ol }
  rw [h] at ht
  cases ht
  obtain ⟨hok, herr, hcode, hmem, hkeylen, hmaskkey, hframe, holen⟩ := ho
  exact ⟨u, hu, hok, herr, hcode, hmem, hkeylen, hmaskkey, hframe, holen⟩

end Sys2Proof.Machine
end

section
/-! PROOF. The address map read both ways (20_memory.md R61 to R63): what stands at an address, and which
addresses the admitted accesses name. -/

namespace Sys2Proof.Machine

/-- A register is located at its own address only. -/
theorem reg_of_locate {p : Params} {a : Nat} {r : Reg} (h : locate p a = .reg r) :
    (a, r) ∈ controlMap ∨
    ∃ e, e < p.hdrN ∧
      ((a = 0x10000 + 0x400 * e ∧ r = .nameLen e) ∨ (a = 0x10000 + 0x400 * e + 4 ∧ r = .valueLen e)) := by
  rcases Nat.lt_or_ge a 0x100 with ha | ha
  · rw [locate_control p ha] at h
    split at h
    · next r' hlookup =>
      cases h
      obtain ⟨l₁, l₂, hmap, -⟩ := List.lookup_eq_some_iff.1 hlookup
      exact .inl (hmap ▸ List.mem_append_right _ List.mem_cons_self)
    · cases h
  · rcases locate_cases p ha with ⟨w, i, -, -, -, hl⟩ | ⟨e, he, hae, hl⟩ | ⟨e, he, hae, hl⟩ | hl
    · rw [hl] at h
      cases h
    · rw [hl] at h
      cases h
      exact .inr ⟨e, he, .inl ⟨hae, rfl⟩⟩
    · rw [hl] at h
      cases h
      exact .inr ⟨e, he, .inr ⟨hae, rfl⟩⟩
    · rw [hl] at h
      cases h

/-- The control registers stand at the multiples of 4 up to 0x040 (R61). -/
theorem exists_mem_controlMap_iff (a : Nat) : (∃ r, (a, r) ∈ controlMap) ↔ a ≤ 0x040 ∧ a % 4 = 0 := by
  have listed : ∀ x ∈ controlMap, x.1 ≤ 0x040 ∧ x.1 % 4 = 0 := by decide
  have complete : ∀ a ≤ 0x040, a % 4 = 0 → ∃ x ∈ controlMap, x.1 = a := by decide
  constructor
  · rintro ⟨r, hr⟩
    exact listed _ hr
  · rintro ⟨hle, hmod⟩
    obtain ⟨⟨_, r⟩, hr, rfl⟩ := complete a hle hmod
    exact ⟨r, hr⟩

/-- The RW registers among them, by address (R61, R63). -/
theorem writable_iff_of_mem_controlMap {a : Nat} {r : Reg} (h : (a, r) ∈ controlMap) :
    r.writable = true ↔ a = 0x004 ∨ a = 0x008 ∨ a = 0x010 ∨ a = 0x014 ∨ a = 0x01C ∨ a = 0x02C ∨
      a = 0x030 := by
  have table : ∀ x ∈ controlMap, x.2.writable = true ↔ x.1 = 0x004 ∨ x.1 = 0x008 ∨ x.1 = 0x010 ∨
      x.1 = 0x014 ∨ x.1 = 0x01C ∨ x.1 = 0x02C ∨ x.1 = 0x030 := by decide
  exact table _ h

/-- STATUS stands at 0x008 alone, whatever the parameters. -/
theorem eq_of_locate_status {p : Params} {a : Nat} (h : locate p a = .reg .status) : a = 0x008 := by
  have only : ∀ x ∈ controlMap, x.2 = .status → x.1 = 0x008 := by decide
  rcases reg_of_locate h with hmem | ⟨e, -, ⟨-, hr⟩ | ⟨-, hr⟩⟩
  · exact only _ hmem rfl
  · cases hr
  · cases hr

/-- Every address of a window locates one of its bytes (R62). -/
theorem exists_byte_of_mem_window {p : Params} {w : Win} {a : Nat} (hp : p.Legal) (hw : w.InTable p)
    (hlo : w.base ≤ a) (hhi : a < w.base + w.size p) : ∃ i, locate p a = .byte w i := by
  obtain ⟨i, rfl⟩ := Nat.exists_eq_add_of_le hlo
  exact ⟨i, locate_addr hp hw (by omega)⟩

/-- A located byte lies within its window, whose table entry exists. -/
theorem mem_window_of_locate {p : Params} {w : Win} {i a : Nat} (h : locate p a = .byte w i) :
    w.InTable p ∧ w.base ≤ a ∧ a < w.base + w.size p := by
  obtain ⟨hw, hi, rfl⟩ := byte_of_locate h
  exact ⟨hw, Nat.le_add_right .., Nat.add_lt_add_left hi _⟩

theorem isRegisterAddr_iff {p : Params} (hp : p.Legal) (a : Nat) :
    IsRegisterAddr p a ↔ ∃ r, locate p a = .reg r := by
  constructor
  · rintro (hc | ⟨e, he, rfl | rfl⟩)
    · obtain ⟨r, hr⟩ := (exists_mem_controlMap_iff a).2 hc
      exact ⟨r, locate_of_mem_controlMap p hr⟩
    · exact ⟨_, locate_nameLen hp he⟩
    · exact ⟨_, locate_valueLen hp he⟩
  · rintro ⟨r, hr⟩
    rcases reg_of_locate hr with hc | ⟨e, he, ⟨ha, -⟩ | ⟨ha, -⟩⟩
    · exact .inl ((exists_mem_controlMap_iff a).1 ⟨r, hc⟩)
    · exact .inr ⟨e, he, .inl ha⟩
    · exact .inr ⟨e, he, .inr ha⟩

/-- An RW register's address is that of an RW control register, or of an entry's length register. -/
theorem isWritableRegisterAddr_cases {p : Params} {a : Nat} :
    IsWritableRegisterAddr p a ↔
      (a = 0x004 ∨ a = 0x008 ∨ a = 0x010 ∨ a = 0x014 ∨ a = 0x01C ∨ a = 0x02C ∨ a = 0x030) ∨
      ∃ e, e < p.hdrN ∧ (a = 0x10000 + 0x400 * e ∨ a = 0x10000 + 0x400 * e + 0x004) := by
  simp only [IsWritableRegisterAddr, or_assoc]

theorem isWritableRegisterAddr_iff {p : Params} (hp : p.Legal) (a : Nat) :
    IsWritableRegisterAddr p a ↔ ∃ r, locate p a = .reg r ∧ r.writable = true := by
  rw [isWritableRegisterAddr_cases]
  constructor
  · rintro (hc | ⟨e, he, rfl | rfl⟩)
    · obtain ⟨r, hr⟩ := (exists_mem_controlMap_iff a).2 (by omega)
      exact ⟨r, locate_of_mem_controlMap p hr, (writable_iff_of_mem_controlMap hr).2 hc⟩
    · exact ⟨_, locate_nameLen hp he, rfl⟩
    · exact ⟨_, locate_valueLen hp he, rfl⟩
  · rintro ⟨r, hr, hw⟩
    rcases reg_of_locate hr with hc | ⟨e, he, ⟨ha, -⟩ | ⟨ha, -⟩⟩
    · exact .inl ((writable_iff_of_mem_controlMap hc).1 hw)
    · exact .inr ⟨e, he, .inl ha⟩
    · exact .inr ⟨e, he, .inr ha⟩

theorem isWritableWindowAddr_iff {p : Params} (hp : p.Legal) (a : Nat) :
    IsWritableWindowAddr p a ↔ ∃ w : Win, w.writable = true ∧ ∃ i, locate p a = .byte w i := by
  constructor
  · rintro (⟨hlo, hhi⟩ | ⟨e, he, hlo, hhi⟩ | ⟨e, he, hlo, hhi⟩ | ⟨hlo, hhi⟩)
    · exact ⟨.keybuf, rfl, exists_byte_of_mem_window hp trivial hlo hhi⟩
    · exact ⟨.hname e, rfl, exists_byte_of_mem_window hp he hlo hhi⟩
    · exact ⟨.hval e, rfl, exists_byte_of_mem_window hp he hlo hhi⟩
    · exact ⟨.ibuf, rfl, exists_byte_of_mem_window hp trivial hlo hhi⟩
  · rintro ⟨w, hw, i, hl⟩
    obtain ⟨ht, hrange⟩ := mem_window_of_locate hl
    cases w with
    | keybuf => exact .inl hrange
    | hname e => exact .inr (.inl ⟨e, ht, hrange⟩)
    | hval e => exact .inr (.inr (.inl ⟨e, ht, hrange⟩))
    | ibuf => exact .inr (.inr (.inr hrange))
    | digest => cases hw
    | token => cases hw
    | obuf => cases hw

theorem isWindowAddr_iff {p : Params} (hp : p.Legal) (a : Nat) :
    IsWindowAddr p a ↔ ∃ w i, locate p a = .byte w i := by
  constructor
  · rintro (hw | ⟨hlo, hhi⟩ | ⟨hlo, hhi⟩ | ⟨hlo, hhi⟩)
    · obtain ⟨w, -, hl⟩ := (isWritableWindowAddr_iff hp a).1 hw
      exact ⟨w, hl⟩
    · exact ⟨.digest, exists_byte_of_mem_window hp trivial hlo (Nat.lt_succ_of_le hhi)⟩
    · exact ⟨.token, exists_byte_of_mem_window hp trivial hlo (Nat.lt_succ_of_le hhi)⟩
    · exact ⟨.obuf, exists_byte_of_mem_window hp trivial hlo hhi⟩
  · rintro ⟨w, i, hl⟩
    obtain ⟨-, hlo, hhi⟩ := mem_window_of_locate hl
    cases w with
    | digest => exact .inr (.inl ⟨hlo, Nat.le_of_lt_succ hhi⟩)
    | token => exact .inr (.inr (.inl ⟨hlo, Nat.le_of_lt_succ hhi⟩))
    | obuf => exact .inr (.inr (.inr ⟨hlo, hhi⟩))
    | keybuf => exact .inl ((isWritableWindowAddr_iff hp a).2 ⟨.keybuf, rfl, i, hl⟩)
    | hname e => exact .inl ((isWritableWindowAddr_iff hp a).2 ⟨.hname e, rfl, i, hl⟩)
    | hval e => exact .inl ((isWritableWindowAddr_iff hp a).2 ⟨.hval e, rfl, i, hl⟩)
    | ibuf => exact .inl ((isWritableWindowAddr_iff hp a).2 ⟨.ibuf, rfl, i, hl⟩)

/-! ### The names of a host script -/

/-- Every window of an entry in the table ends below 2^22 (R60, R61). -/
theorem addr_lt {p : Params} {w : Win} {i : Nat} (hp : p.Legal) (hw : w.InTable p)
    (hi : i < w.size p) : w.addr i < 2 ^ 22 := by
  obtain ⟨⟨-, hibuf⟩, ⟨-, hn⟩, ⟨-, hname⟩, ⟨-, hval⟩⟩ := hp
  cases w with
  | hname e | hval e =>
    change e < p.hdrN at hw
    simp only [Win.addr, Win.base, Win.size] at hi ⊢
    omega
  | _ =>
    simp only [Win.addr, Win.base, Win.size] at hi ⊢
    omega

/-- A register's address is that of the map, and below 2^22 (R60, R61). -/
theorem locate_regAddr {p : Params} (hp : p.Legal) {r : Reg}
    (hr : ∀ e, r = .nameLen e ∨ r = .valueLen e → e < p.hdrN) :
    locate p r.addr = .reg r ∧ r.addr < 2 ^ 22 := by
  have ⟨_, ⟨_, hn⟩, _⟩ := hp
  cases r with
  | nameLen e =>
    have he := hr e (.inl rfl)
    exact ⟨locate_nameLen hp he, by simp only [Reg.addr]; omega⟩
  | valueLen e =>
    have he := hr e (.inr rfl)
    exact ⟨locate_valueLen hp he, by simp only [Reg.addr]; omega⟩
  | _ => exact ⟨locate_of_mem_controlMap p (by decide), by decide⟩

/-- Settles O19: each target is located at its address, and the address fits 22 bits. -/
theorem scriptNamesReachTheirTargets : Obligations.ScriptNamesReachTheirTargets := by
  refine fun p hp => ⟨fun r hr => ?_, fun w i hw hi => ?_⟩
  · obtain ⟨hl, hlt⟩ := locate_regAddr hp hr
    rw [BitVec.toNat_ofNat, Nat.mod_eq_of_lt hlt, hl]
  · rw [BitVec.toNat_ofNat, Nat.mod_eq_of_lt (addr_lt hp hw hi), locate_addr hp hw hi]

end Sys2Proof.Machine
end

section
/-! PROOF. What a host access does to the block (20_memory.md R60 to R64): the bytes of the windows, the
accesses the map does not admit, and STATUS.ACCERR. -/

namespace Sys2Proof.Machine

/-! ### Every step answers -/

/-- A command issue answers a next state (R237, R239). -/
theorem issue_next (w : Word) (s : State) : ∃ t, issue w s = .next t := by
  unfold issue
  split
  · next i _ =>
    rcases exec_outcome i s with ⟨e, h⟩ | ⟨u, h, -⟩
    · exact ⟨_, h⟩
    · exact ⟨_, h⟩
  · exact ⟨_, rfl⟩

/-- Settles O5: an idle step and a quiet event answer at once, and so does every command. -/
theorem everyStepAnswersANextState : Obligations.EveryStepAnswersANextState := by
  intro s
  rcases step_cases s with ⟨-, h⟩ | ⟨ev, rest, -, ⟨t, -, h⟩ | ⟨w, t, -, h⟩⟩
  · exact ⟨s, h⟩
  · exact ⟨t, h⟩
  · exact h ▸ issue_next w t

/-! ### Window bytes -/

/-- An 8-bit read at a window byte's address returns the byte (R63). -/
theorem step_rd8 {s : State} {a : Addr} {w : Win} {i : Nat} {rest : List HostEvent}
    (h : s.host = .access (.rd8 a) :: rest) (hl : locate s.params a.toNat = .byte w i) :
    step s = .next { s with host := rest, reply := some (.byte (bufByte s w i)) } := by
  simp only [step, h, hostEvent, read8, hl]
  rfl

/-- An 8-bit write at the address of an RW window's byte stores the byte (R63). -/
theorem step_wr8 {s : State} {a : Addr} {b : Byte} {w : Win} {i : Nat} {rest : List HostEvent}
    (h : s.host = .access (.wr8 a b) :: rest) (hl : locate s.params a.toNat = .byte w i)
    (hw : w.writable = true) :
    step s = .next (replyWith none (writeByte w i b { s with host := rest })) := by
  simp only [step, h, hostEvent, write8, hl, hw, if_true]

/-- Settles O18: the byte is located at `base + i`, and the write sets memory at that address alone. -/
theorem windowAccessesReadAndWriteTheByte : Obligations.WindowAccessesReadAndWriteTheByte := by
  intro s w i a rest hp hw hi ha
  have hl : locate s.params a.toNat = .byte w i := ha ▸ locate_addr hp hw hi
  refine ⟨fun h => step_rd8 h hl, fun b h hrw => ?_⟩
  have hwritable : w.writable = true := by
    rcases hrw with rfl | ⟨e, rfl⟩ | ⟨e, rfl⟩ | rfl <;> rfl
  exact ⟨_, step_wr8 h hl hwritable, rfl, memByte_set_same (s := s) rfl,
    fun a' hne => memByte_set_other (s := s) rfl rfl hne⟩

/-! ### Served accesses -/

/-- The address map serves the access: it locates a target of the access's kind (R63). -/
def Served (p : Params) : HostAccess → Prop
  | .rd8 a => ∃ w i, locate p a.toNat = .byte w i
  | .wr8 a _ => ∃ w : Win, w.writable = true ∧ ∃ i, locate p a.toNat = .byte w i
  | .rd32 a => ∃ r, locate p a.toNat = .reg r
  | .wr32 a _ => ∃ r, locate p a.toNat = .reg r ∧ r.writable = true

/-- For legal parameters the map serves what R63 admits. -/
theorem admitted_iff_served {p : Params} (hp : p.Legal) (x : HostAccess) :
    Admitted p x ↔ Served p x := by
  cases x with
  | rd8 a => exact isWindowAddr_iff hp _
  | wr8 a b => exact isWritableWindowAddr_iff hp _
  | rd32 a => exact isRegisterAddr_iff hp _
  | wr32 a v => exact isWritableRegisterAddr_iff hp _

/-- An access that is not served is an access error and nothing else (R64). -/
theorem hostEvent_of_not_served {s : State} {x : HostAccess} (h : ¬ Served s.params x) :
    hostEvent (.access x) s = .quiet (replyWith (errorReply x) (accessError s)) := by
  cases x with
  | rd8 a =>
    simp only [hostEvent, read8]
    split
    · next w i hl => exact absurd ⟨w, i, hl⟩ h
    · rfl
    · rfl
  | wr8 a b =>
    simp only [hostEvent, write8]
    split
    · next w i hl => rw [if_neg fun hw => h ⟨w, hw, i, hl⟩]; rfl
    · rfl
    · rfl
  | rd32 a =>
    simp only [hostEvent, read32]
    split
    · next r hl => exact absurd ⟨r, hl⟩ h
    · rfl
    · rfl
  | wr32 a v =>
    rcases write32_cases a v s with ⟨hl, -⟩ | ⟨r, hl, hw, -, -⟩ | ⟨-, he⟩
    · exact absurd ⟨.cmd, hl, rfl⟩ h
    · exact absurd ⟨r, hl, hw⟩ h
    · exact he

/-- A stored register other than STATUS leaves STATUS. -/
theorem writeReg_status {r : Reg} (hr : r ≠ .status) (v : Word) (s : State) :
    (writeReg r v s).status = s.status := by
  cases r with
  | status => exact absurd rfl hr
  | _ => rfl

/-- A served access other than a STATUS write leaves STATUS, up to the command it may issue (R63). -/
theorem hostEvent_status_of_served {s : State} {x : HostAccess} (h : Served s.params x)
    (hx : ∀ v, x ≠ .wr32 0x008 v) :
    (∃ t, hostEvent (.access x) s = .quiet t ∧ t.status = s.status) ∨
    (∃ w t, hostEvent (.access x) s = .command w t ∧ t.status = s.status) := by
  cases x with
  | rd8 a =>
    obtain ⟨w, i, hl⟩ := h
    exact .inl ⟨_, rfl, by simp only [read8, hl, replyWith_status]⟩
  | wr8 a b =>
    obtain ⟨w, hw, i, hl⟩ := h
    exact .inl ⟨_, rfl, by simp only [write8, hl, hw, if_true, replyWith_status, writeByte_status]⟩
  | rd32 a =>
    obtain ⟨r, hl⟩ := h
    exact .inl ⟨_, rfl, by simp only [read32, hl, replyWith_status]⟩
  | wr32 a v =>
    rcases write32_cases a v s with ⟨-, he⟩ | ⟨r, hl, -, -, he⟩ | ⟨hn, -⟩
    · exact .inr ⟨_, _, he, rfl⟩
    · refine .inl ⟨_, he, writeReg_status ?_ v s⟩
      rintro rfl
      have ha : a = 0x008 := BitVec.eq_of_toNat_eq (eq_of_locate_status hl)
      exact hx v (ha ▸ rfl)
    · obtain ⟨r, hl, hw⟩ := h
      rw [hn r hl] at hw
      cases hw

/-! ### STATUS.ACCERR -/

@[simp] theorem statusAccErrBit_accessError (w : Word) :
    statusAccErrBit (statusAccessError w) = true := by
  rw [statusAccErrBit, statusAccessError_bit, if_pos rfl]

/-- ACCERR is a bit of STATUS[31:2], which no instruction changes (R235). -/
theorem KeepsControl.accErr {s t : State} (h : KeepsControl s t) :
    statusAccErrBit t.status = statusAccErrBit s.status := by
  have hbit := congrArg (BitVec.getLsbD · 0) h.statusRest
  simp only [BitVec.getLsbD_extractLsb', Nat.zero_lt_succ, decide_true, Bool.true_and] at hbit
  exact hbit

/-- A command issue, of a legal word or not, leaves ACCERR (R234, R235). -/
theorem issue_accErr {w : Word} {s t : State} (h : issue w s = .next t) :
    statusAccErrBit t.status = statusAccErrBit s.status := by
  unfold issue at h
  split at h
  · exact (exec_keepsRegs h).control.accErr
  · cases h
    exact statusAccErrBit_raise _

/-- The step of an access that is not served (R64). -/
theorem step_of_not_served {s : State} {x : HostAccess} {rest : List HostEvent}
    (h : s.host = .access x :: rest) (hx : ¬ Served s.params x) :
    step s = .next (replyWith (errorReply x) (accessError { s with host := rest })) := by
  have hev : hostEvent (.access x) { s with host := rest } = _ := hostEvent_of_not_served hx
  simp only [step, h, hev]

/-- The step of a served access other than a STATUS write, with the command it may issue, leaves ACCERR. -/
theorem step_accErr_of_served {s t : State} {x : HostAccess} {rest : List HostEvent}
    (h : s.host = .access x :: rest) (hserved : Served s.params x) (hx : ∀ v, x ≠ .wr32 0x008 v)
    (hstep : step s = .next t) : statusAccErrBit t.status = statusAccErrBit s.status := by
  rcases hostEvent_status_of_served (s := { s with host := rest }) hserved hx with
    ⟨u, hev, hu⟩ | ⟨w, u, hev, hu⟩
  · simp only [step, h, hev] at hstep
    cases hstep
    exact congrArg statusAccErrBit hu
  · simp only [step, h, hev] at hstep
    exact (issue_accErr hstep).trans (congrArg statusAccErrBit hu)

/-- Settles O21: an admitted access is served. -/
theorem admittedAccessesLeaveAccerr : Obligations.AdmittedAccessesLeaveAccerr :=
  fun _ _ x _ hp h hadm hx hstep =>
    step_accErr_of_served h ((admitted_iff_served hp x).1 hadm) hx hstep

/-- Settles O20: an access that is not admitted is not served, and ACCERR is kept by the idle step, by
STATUS writes with bit 2 clear and by served accesses, and set by all others. -/
theorem accessErrorsOnlySetAccerr : Obligations.AccessErrorsOnlySetAccerr := by
  refine ⟨fun s x rest hp h hx => ?_, fun s t hacc hreset hclear hstep => ?_⟩
  · exact ⟨_, step_of_not_served h fun hs => hx ((admitted_iff_served hp x).2 hs), rfl,
      statusAccErrBit_accessError _, fun n hn => (statusAccessError_bit _ n).trans (if_neg hn)⟩
  · match h : s.host with
    | [] =>
      simp only [step, h] at hstep
      cases hstep
      exact hacc
    | .reset :: rest => exact absurd (h ▸ rfl) hreset
    | .access x :: rest =>
      by_cases hx : ∃ v, x = .wr32 0x008 v
      · obtain ⟨v, rfl⟩ := hx
        have hv : v.getLsbD 2 = false := by
          by_contra hv
          exact hclear v (by simpa using hv) (h ▸ rfl)
        obtain ⟨u, hu, -, hbit, -⟩ := statusWriteClearsAccerr s v rest h
        rw [hu] at hstep
        cases hstep
        rw [hbit, hacc, hv]
        rfl
      · by_cases hserved : Served s.params x
        · exact (step_accErr_of_served h hserved (fun v hv => hx ⟨v, hv⟩) hstep).trans hacc
        · rw [step_of_not_served h hserved] at hstep
          cases hstep
          exact statusAccErrBit_accessError _

end Sys2Proof.Machine
end

section
/-! PROOF. What the commands read and write (10_state.md R47; 20_memory.md R70, R78): no instruction writes
a window outside its outputs, so its inputs stay and issuing it again repeats its outcome. -/

namespace Sys2Proof.Machine

/-! ### The inputs stay -/

/-- Whatever its outcome, an instruction leaves the bytes of the windows it does not write (R47). -/
theorem exec_keepsWindow {i : Instr} {s t : State} {v : Win} {j : Nat} (hp : s.params.Legal)
    (h : exec i s = .next t) (hv : v.InTable s.params) (hn : ¬ WritesWindow i v)
    (hj : j < v.size s.params) : bufByte t v j = bufByte s v j := by
  have hresets := (exec_keepsRegs h).control.resets
  rcases exec_next h with ⟨e, rfl⟩ | ⟨u, rfl, hu⟩
  · exact memByte_congr (failureOutputs_keeps i s).2 hresets _
  · obtain ⟨w, w', bs, bs', hw, hw', -, -, hfit, hmem⟩ := hu.memory
    obtain ⟨hbs, hbs'⟩ := hfit hp
    have first : bufByte (writeBuf w bs s) v j = bufByte s v j :=
      bufByte_write_other hp (writesWindow_inTable _ hw) hv hbs hj (fun hvw => hn (hvw ▸ hw)) rfl rfl
    have second : bufByte (succeed u) v j = bufByte (writeBuf w bs s) v j :=
      bufByte_write_other (s := writeBuf w bs s) hp (writesWindow_inTable _ hw') hv hbs' hj
        (fun hvw => hn (hvw ▸ hw')) hmem hresets
    exact second.trans first

theorem not_writesWindow_ibuf (i : Instr) : ¬ WritesWindow i .ibuf := by simp [WritesWindow]
theorem not_writesWindow_hname (i : Instr) (e : Nat) : ¬ WritesWindow i (.hname e) := by
  simp [WritesWindow]
theorem not_writesWindow_hval (i : Instr) (e : Nat) : ¬ WritesWindow i (.hval e) := by
  simp [WritesWindow]

/-- ACCEPT writes DIGEST and TOKEN alone. -/
theorem not_writesWindow_keybuf_accept : ¬ WritesWindow .accept .keybuf := by simp [WritesWindow]

/-- Settles O24: IBUF, HNAME and HVAL are no output windows, and the registers are control state. -/
theorem noCommandWritesItsInputs : Obligations.NoCommandWritesItsInputs := by
  intro i s t hp h
  obtain ⟨-, -, -, hcfg, hilen, hcount, hhdr, -⟩ := (exec_keepsRegs h).control
  exact ⟨fun _ hj => exec_keepsWindow hp h trivial (not_writesWindow_ibuf i) hj,
    fun e _ he hj => exec_keepsWindow hp h he (not_writesWindow_hname i e) hj,
    fun e _ he hj => exec_keepsWindow hp h he (not_writesWindow_hval i e) hj,
    hhdr, hcfg, hilen, hcount⟩

/-- The input bytes stay when ILEN lies within IBUF. -/
theorem exec_inputBytes {i : Instr} {s t : State} (hp : s.params.Legal) (h : exec i s = .next t)
    (hilen : s.ilen.toNat ≤ s.params.ibufSize) : inputBytes t = inputBytes s := by
  rw [inputBytes, (exec_keepsRegs h).control.ilen]
  exact bufBytes_congr fun j hj =>
    exec_keepsWindow hp h trivial (not_writesWindow_ibuf i) (Nat.lt_of_lt_of_le hj hilen)

/-- ACCEPT leaves the message it hashes when KEYLEN lies within KEYBUF. -/
theorem exec_acceptMessage {s t : State} (hp : s.params.Legal) (h : exec .accept s = .next t)
    (hkey : s.keylen.toNat ≤ s.params.hvalMax) : acceptMessage t = acceptMessage s := by
  rw [acceptMessage, acceptMessage, clientKey, (exec_keepsRegs h).keylen (by decide)]
  exact congrArg (· ++ guid) (bufBytes_congr fun j hj =>
    exec_keepsWindow hp h trivial not_writesWindow_keybuf_accept (Nat.lt_of_lt_of_le hj hkey))

/-! ### The length checks -/

theorem checkIlen_ok {s : State} {a : Unit} (h : checkIlen s = .ok a) :
    s.ilen.toNat ≤ s.params.ibufSize := by
  unfold checkIlen at h
  split at h
  · cases h
  · next hle => exact Nat.le_of_not_lt hle

theorem checkPayload_ok {s : State} {a : Unit} (h : checkPayload s = .ok a) : s.ilen.toNat < 126 := by
  unfold checkPayload at h
  split at h
  · cases h
  · next hlt => exact Nat.lt_of_not_le hlt

theorem checkKeylen_ok {s : State} {a : Unit} (h : checkKeylen s = .ok a) :
    s.keylen.toNat ≤ s.params.hvalMax := by
  unfold checkKeylen at h
  split at h
  · cases h
  · next hle => exact Nat.le_of_not_lt hle

section LengthChecks
variable {i : Instr} {s t : State} (h : exec i s = .next t)
include h

theorem exec_checkIlen : checkIlen t = checkIlen s := by
  rw [checkIlen, checkIlen, (exec_keepsRegs h).control.params, (exec_keepsRegs h).control.ilen]

theorem exec_checkPayload : checkPayload t = checkPayload s := by
  rw [checkPayload, checkPayload, (exec_keepsRegs h).control.ilen]

theorem exec_checkKeylen (hi : i ≠ .validate) : checkKeylen t = checkKeylen s := by
  rw [checkKeylen, checkKeylen, (exec_keepsRegs h).control.params, (exec_keepsRegs h).keylen hi]

end LengthChecks

/-! ### The parser on an unchanged frame -/

/-- An instruction's frame is as much of IBUF as stays, its own byte in place. -/
theorem frameOf_congr {i : Instr} {s t : State} {n : Nat}
    (h : ∀ j, j < n → bufByte t .ibuf j = bufByte s .ibuf j) :
    ∀ j, j < n → frameOf i t j = frameOf i s j := by
  intro j hj
  have hb := h j hj
  unfold frameOf
  cases spaceOf i with
  | cmd32 => exact hb
  | frameB0 | frameB1 => simp only [withFrameByte, inputFrame, hb]

/-- What a complete frame parses to depends on its own bytes only. -/
theorem parsedOf_congr {f g : Nat → Byte} {n : Nat} (h : ∀ j, j < n → g j = f j)
    (hfit : headerLen f + declaredLen f ≤ n) :
    headerLen g + declaredLen g = headerLen f + declaredLen f ∧ parsedOf g = parsedOf f := by
  have hhead : headerLen f = 2 + extBytes f + keySize f := rfl
  obtain ⟨hext, hform, -, hlen⟩ := (layout_congr h).1 (by omega)
  have hdecl := (layout_congr h).2 (by omega) (by omega)
  have h0 := h 0 (by omega)
  have h1 := h 1 (by omega)
  have hkeyByte : ∀ j, j < 4 → declaredKey g j = declaredKey f j := by
    intro j hj
    unfold declaredKey
    rw [h1, hext]
    split
    · next hm =>
      have hk : keySize f = 4 := if_pos hm
      exact h _ (by omega)
    · rfl
  have hkey : keyOf g = keyOf f := by
    simp only [keyOf, hkeyByte 0 (by decide), hkeyByte 1 (by decide), hkeyByte 2 (by decide),
      hkeyByte 3 (by decide)]
  have hraw : rawPayload g = rawPayload f := by
    rw [rawPayload, rawPayload, hdecl, hlen]
    exact List.map_congr_left fun j hj => h _ (by have := List.mem_range.1 hj; omega)
  exact ⟨by rw [hlen, hdecl], by rw [parsedOf, parsedOf, h0, h1, hform, hlen, hdecl, hkey, hraw]⟩

/-- DECODE's checks and parse of a frame, as one result (R121). -/
def parseInput (frame : Nat → Byte) (s : State) : Except CmdError Parsed := do
  checkIlen s
  parseFrame frame s.ilen.toNat

theorem exec_parser_complete {i : Instr} (hi : RunsParser i) (s : State) :
    exec i s = .next (complete (parseInput (frameOf i s) s) (writeParsed s) (clearParsed s)) :=
  exec_parser hi s

/-- The parse succeeds exactly on a frame that lies within ILEN, and ILEN within IBUF (R121, R122). -/
theorem parseInput_ok_iff {frame : Nat → Byte} {s : State} {p : Parsed} :
    parseInput frame s = .ok p ↔ s.ilen.toNat ≤ s.params.ibufSize ∧
      headerLen frame + declaredLen frame ≤ s.ilen.toNat ∧ parsedOf frame = p := by
  unfold parseInput checkIlen
  have hhead : headerLen frame = 2 + extBytes frame + keySize frame := rfl
  split
  · next hilen => exact ⟨fun h => (by cases h), fun ⟨h, _, _⟩ => absurd h (by omega)⟩
  · next hilen =>
    change parseFrame frame s.ilen.toNat = .ok p ↔ _
    rw [parseFrame_eq]
    by_cases hfit : headerLen frame + declaredLen frame ≤ s.ilen.toNat
    · rw [if_neg (by omega), if_neg (by omega), if_neg (by omega), if_neg (by omega), if_neg (by omega),
        Except.ok.injEq]
      exact ⟨fun h => ⟨by omega, hfit, h⟩, fun ⟨_, _, h⟩ => h⟩
    · refine ⟨fun h => ?_, fun ⟨_, h, _⟩ => absurd h hfit⟩
      split_ifs at h
      omega

/-! ### The handshake checks on an unchanged table -/

/-- `t` has the header table, the version and the parameters of `s`, as far as the entries below HDR_COUNT
go. -/
structure SameTable (s t : State) : Prop where
  params : t.params = s.params
  hdrCount : t.hdrCount = s.hdrCount
  hdr : t.hdr = s.hdr
  cfgVersion : t.cfgVersion = s.cfgVersion
  name : ∀ e, e < s.hdrCount.toNat → headerName t e = headerName s e
  value : ∀ e, e < s.hdrCount.toNat → headerValue t e = headerValue s e

section SameTable
variable {s t : State} (h : SameTable s t)
include h

theorem SameTable.hdrLens (e : Nat) : hdrLens t e = hdrLens s e := by
  rw [Machine.hdrLens, Machine.hdrLens, h.hdr]

theorem SameTable.preCheck : preCheck t = preCheck s := by
  have hentry : preCheckEntry t = preCheckEntry s := by
    funext e
    simp only [preCheckEntry, h.params, h.hdrLens e]
  simp only [Machine.preCheck, h.params, h.hdrCount, hentry]

theorem SameTable.lookupHeader (str : List Byte) : lookupHeader t str = lookupHeader s str := by
  rw [Machine.lookupHeader, Machine.lookupHeader, h.hdrCount]
  refine List.find?_congr fun e he => ?_
  rw [nameIs, nameIs, h.hdrLens, h.name e (List.mem_range.1 he)]

/-- What follows a found header reads an entry below HDR_COUNT. -/
theorem SameTable.requireHeader_bind {α : Type} {f g : Nat → Except CmdError α} (str : List Byte)
    (kind : ErrKind) (hfg : ∀ e, e < s.hdrCount.toNat → f e = g e) :
    (requireHeader t str kind >>= f) = (requireHeader s str kind >>= g) := by
  unfold requireHeader
  rw [h.lookupHeader]
  split
  · next e he => exact hfg e (lookupHeader_some he).1
  · rfl

theorem SameTable.validateTable : validateTable t = validateTable s := by
  have hupgrade : checkUpgrade t = checkUpgrade s :=
    h.requireHeader_bind _ _ fun e he => by rw [h.value e he]
  have hconnection : checkConnection t = checkConnection s :=
    h.requireHeader_bind _ _ fun e he => by rw [h.value e he]
  have hversion : checkVersion t = checkVersion s :=
    h.requireHeader_bind _ _ fun e he => by rw [h.value e he, h.cfgVersion]
  have hkey : checkKey t = checkKey s :=
    h.requireHeader_bind _ _ fun e he => by rw [h.value e he]
  rw [Machine.validateTable, Machine.validateTable, h.preCheck, hupgrade, hconnection, hversion, hkey]

end SameTable

/-- Every instruction leaves a table that passes PreCheck (R78, R181). -/
theorem exec_sameTable {i : Instr} {s t : State} (hp : s.params.Legal) (h : exec i s = .next t)
    (hfits : TableFits s) : SameTable s t := by
  have hc := (exec_keepsRegs h).control
  obtain ⟨hcount, hlens⟩ := hfits
  have hsame : ∀ e, hdrLens t e = hdrLens s e := fun e => by rw [hdrLens, hdrLens, hc.hdr]
  refine ⟨hc.params, hc.hdrCount, hc.hdr, hc.cfgVersion, fun e he => ?_, fun e he => ?_⟩
  · rw [headerName, headerName, hsame]
    exact bufBytes_congr fun j hj => exec_keepsWindow hp h (Nat.lt_of_lt_of_le he hcount)
      (not_writesWindow_hname i e) (Nat.lt_of_lt_of_le hj (hlens e he).1)
  · rw [headerValue, headerValue, hsame]
    exact bufBytes_congr fun j hj => exec_keepsWindow hp h (Nat.lt_of_lt_of_le he hcount)
      (not_writesWindow_hval i e) (Nat.lt_of_lt_of_le hj (hlens e he).2)

/-! ### A command issued again -/

@[simp] theorem raise_raise (e : CmdError) (s : State) : raise e (raise e s) = raise e s := by
  simp only [raise, statusRaise_idem]

/-- Writing the same bytes and recording success again changes nothing. -/
theorem succeed_writeBuf_again {s : State} (w : Win) (bs : List Byte) (hwf : Memory.wf s.mem = true) :
    succeed (writeBuf w bs (succeed (writeBuf w bs s))) = succeed (writeBuf w bs s) := by
  simp only [succeed, writeBuf, statusSucceed_idem, memWrite_idem _ _ hwf]

/-- Writing the same two runs of bytes in turn again changes nothing, whether or not they overlap. -/
theorem memWrite_memWrite_idem {m : Memory} (a c : Nat) (bs ds : List Byte)
    (hwf : Memory.wf m = true) :
    memWrite (memWrite (memWrite (memWrite m a bs) c ds) a bs) c ds =
      memWrite (memWrite m a bs) c ds := by
  have hwf' := memWrite_wf c ds (memWrite_wf a bs hwf)
  refine memory_ext (memWrite_wf _ _ (memWrite_wf _ _ hwf')) hwf' fun x => ?_
  by_cases hc : c ≤ x ∧ x < c + ds.length
  · simp only [memGet_memWrite, if_pos hc]
  · by_cases ha : a ≤ x ∧ x < a + bs.length
    · simp only [memGet_memWrite, if_neg hc, if_pos ha]
    · simp only [memGet_memWrite, if_neg hc, if_neg ha]

theorem succeed_writeToken_again {s : State} (d : List Byte) (hwf : Memory.wf s.mem = true) :
    succeed (writeToken d (succeed (writeToken d s))) = succeed (writeToken d s) := by
  simp only [succeed, writeToken, writeBuf, statusSucceed_idem, memWrite_memWrite_idem _ _ _ _ hwf]

theorem succeed_writeParsed_again {s : State} (p : Parsed) (hwf : Memory.wf s.mem = true) :
    succeed (writeParsed (succeed (writeParsed s p)) p) = succeed (writeParsed s p) := by
  simp only [succeed, writeParsed, writeBuf, statusSucceed_idem, memWrite_idem _ _ hwf]

/-- A command is idempotent if its check and its outputs come out the same on the state it leaves. -/
theorem exec_again {i : Instr} {α : Type} {check : State → Except CmdError α}
    {good : State → α → State} {bad : State → State}
    (hexec : ∀ u, exec i u = .next (complete (check u) (good u) (bad u)))
    {s t : State} (h : exec i s = .next t)
    (hgood : ∀ a, check s = .ok a → t = succeed (good s a) →
      check t = .ok a ∧ succeed (good t a) = t)
    (hbad : ∀ e, check (raise e (bad s)) = check s ∧
      raise e (bad (raise e (bad s))) = raise e (bad s)) :
    exec i t = .next t := by
  rw [hexec] at h ⊢
  injection h with ht
  congr 1
  cases hcheck : check s with
  | ok a =>
    rw [hcheck] at ht
    obtain ⟨hc, hg⟩ := hgood a hcheck ht.symm
    rw [hc]
    exact hg
  | error e =>
    rw [hcheck] at ht
    obtain ⟨hc, hb⟩ := hbad e
    subst ht
    rw [complete_error, hc, hcheck]
    exact hb

section Again
variable {s t : State} (hs : s.Inv)
include hs

/-- A parser instruction again: the frame it parsed lies in IBUF, which it has not written. -/
theorem exec_parser_again {i : Instr} (hi : RunsParser i) (h : exec i s = .next t) :
    exec i t = .next t := by
  refine exec_again (exec_parser_complete hi) h (fun p hp ht => ?_) fun e =>
    ⟨?_, raise_raise e (clearParsed s)⟩
  · obtain ⟨hilen, hfit, rfl⟩ := parseInput_ok_iff.1 hp
    obtain ⟨htotal, hparsed⟩ := parsedOf_congr (frameOf_congr fun j hj =>
      exec_keepsWindow hs.legal h trivial (not_writesWindow_ibuf i) (Nat.lt_of_lt_of_le hj hilen)) hfit
    refine ⟨parseInput_ok_iff.2 ⟨?_, ?_, hparsed⟩, ?_⟩
    · rwa [ht]
    · rwa [htotal, ht]
    · subst ht
      exact succeed_writeParsed_again _ hs.memWf
  · have hframe : frameOf i (raise e (clearParsed s)) = frameOf i s := by
      unfold frameOf
      split <;> rfl
    rw [hframe]
    rfl

/-- UNMASK again: it has not written the bytes it unmasks, nor MASKKEY. -/
theorem exec_unmask_again (h : exec .unmask s = .next t) : exec .unmask t = .next t := by
  refine exec_again (check := checkIlen) (fun _ => rfl) h (fun a hc ht => ?_) fun e =>
    ⟨rfl, raise_raise e { s with olen := 0 }⟩
  have hin := exec_inputBytes hs.legal h (checkIlen_ok hc)
  refine ⟨(exec_checkIlen h).trans hc, ?_⟩
  subst ht
  rw [hin]
  exact succeed_writeBuf_again (s := { s with olen := s.ilen }) .obuf _ hs.memWf

/-- ENCODE again: it has not written the payload, at most 125 bytes of IBUF. -/
theorem exec_encode_again (h : exec .encode s = .next t) : exec .encode t = .next t := by
  refine exec_again (check := checkPayload) (fun _ => rfl) h (fun a hc ht => ?_) fun e =>
    ⟨rfl, raise_raise e { s with olen := 0 }⟩
  obtain ⟨⟨hsize, -⟩, -⟩ := hs.legal
  have hin := exec_inputBytes hs.legal h (by have := checkPayload_ok hc; omega)
  refine ⟨(exec_checkPayload h).trans hc, ?_⟩
  subst ht
  rw [hin]
  exact succeed_writeBuf_again (s := { s with olen := s.ilen + 2 }) .obuf _ hs.memWf

/-- VALIDATE again: it has not written the header table, and KEYBUF and KEYLEN are not read. -/
theorem exec_validate_again (h : exec .validate s = .next t) : exec .validate t = .next t := by
  refine exec_again exec_validate h (fun k hc ht => ?_) fun e =>
    ⟨rfl, raise_raise e { s with keylen := 0 }⟩
  obtain ⟨hpre, -⟩ := validateTable_ok hc
  have htable := exec_sameTable hs.legal h ((preCheck_ok_iff s).1 hpre)
  refine ⟨htable.validateTable.trans hc, ?_⟩
  subst ht
  exact succeed_writeBuf_again (s := { s with keylen := BitVec.ofNat 32 k.length }) .keybuf _ hs.memWf

/-- ACCEPT again: it has not written the key. -/
theorem exec_accept_again (h : exec .accept s = .next t) : exec .accept t = .next t := by
  refine exec_again (check := checkKeylen) (fun _ => rfl) h (fun a hc ht => ?_) fun e =>
    ⟨rfl, raise_raise e s⟩
  have hmsg := exec_acceptMessage hs.legal h (checkKeylen_ok hc)
  refine ⟨(exec_checkKeylen h (by decide)).trans hc, ?_⟩
  subst ht
  rw [hmsg]
  exact succeed_writeToken_again (sha1 (acceptMessage s)) hs.memWf

/-- SHA1 again: it has not written the bytes it hashes. -/
theorem exec_sha1_again (h : exec .sha1 s = .next t) : exec .sha1 t = .next t := by
  refine exec_again (check := checkIlen) (fun _ => rfl) h (fun a hc ht => ?_) fun e =>
    ⟨rfl, raise_raise e s⟩
  have hin := exec_inputBytes hs.legal h (checkIlen_ok hc)
  refine ⟨(exec_checkIlen h).trans hc, ?_⟩
  subst ht
  rw [hin]
  exact succeed_writeBuf_again .digest (sha1 (inputBytes s)) hs.memWf

end Again

/-- Settles O28: the parser's instructions together, and each other command by its own lemma. -/
theorem everyCommandIsIdempotent : Obligations.EveryCommandIsIdempotent := by
  intro i s t hs h
  rcases parser_or_command i with hi | rfl | rfl | rfl | rfl | rfl
  · exact exec_parser_again hs hi h
  · exact exec_unmask_again hs h
  · exact exec_encode_again hs h
  · exact exec_validate_again hs h
  · exact exec_accept_again hs h
  · exact exec_sha1_again hs h

end Sys2Proof.Machine
end

section
/-! PROOF. The three encodings (30_encoding.md R90 to R96, R99): the table's rows are apart, so a word
decodes by the one row it matches; each format's words are then read and written field by field. -/

namespace Sys2Proof

/-! ### One row at most -/

theorem Row.hits_iff (r : Row) (w : Word) : r.hits w = true ↔ w &&& r.mask = r.pattern := beq_iff_eq

/-- Two rows differ in a bit that both fix. -/
abbrev Row.Apart (r r' : Row) : Prop := r.pattern &&& r'.mask ≠ r'.pattern &&& r.mask

/-- No word matches two rows that are apart. -/
theorem Row.Apart.not_both {r r' : Row} (h : r.Apart r') {w : Word} (hw : r.hits w = true)
    (hw' : r'.hits w = true) : False := by
  rw [Row.hits_iff] at hw hw'
  exact h (by rw [← hw, ← hw', BitVec.and_assoc, BitVec.and_assoc, BitVec.and_comm r.mask])

theorem rowsOf_pairwise_apart (sp : Space) : (rowsOf sp).Pairwise Row.Apart := by
  cases sp <;> decide

/-- The rows of a format that a word matches are one row. -/
theorem row_unique {sp : Space} {w : Word} {r r' : Row} (hr : r ∈ rowsOf sp) (hr' : r' ∈ rowsOf sp)
    (hw : r.hits w = true) (hw' : r'.hits w = true) : r = r' := by
  have hsymm : Std.Symm Row.Apart := ⟨fun _ _ h => Ne.symm h⟩
  by_contra hne
  exact ((rowsOf_pairwise_apart sp).forall hr hr' hne).not_both hw hw'

theorem filter_hits_length_le_one (sp : Space) (w : Word) :
    ((rowsOf sp).filter (fun r => r.hits w)).length ≤ 1 := by
  have hapart := (rowsOf_pairwise_apart sp).filter (fun r => r.hits w)
  have hhits : ∀ r ∈ (rowsOf sp).filter (fun r => r.hits w), r.hits w = true :=
    fun _ hr => (List.mem_filter.1 hr).2
  generalize (rowsOf sp).filter (fun r => r.hits w) = l at hapart hhits
  match l with
  | [] => exact Nat.zero_le 1
  | [_] => exact Nat.le_refl 1
  | r :: r' :: _ =>
    exact ((List.rel_of_pairwise_cons hapart (.head _)).not_both (hhits r (.head _))
      (hhits r' (.tail _ (.head _)))).elim

/-- The decoder, by the row: a word decodes to what a row of its format that it matches builds. -/
theorem decode_ok_iff {sp : Space} {w : Word} {i : Instr} :
    decode sp w = .ok i ↔
      (sp ≠ .cmd32 → w.toNat < 256) ∧ ∃ r ∈ rowsOf sp, r.hits w = true ∧ r.build w = i := by
  unfold decode
  split
  · next hbig => exact ⟨fun h => (by cases h), fun ⟨hfit, _⟩ => absurd (hfit hbig.1) (by omega)⟩
  next hsmall =>
  have hfit : sp ≠ .cmd32 → w.toNat < 256 := fun hsp => Nat.lt_of_not_le fun h => hsmall ⟨hsp, h⟩
  split
  · next r hfind =>
    have hr := List.mem_of_find?_eq_some hfind
    have hw := List.find?_some (p := fun r : Row => r.hits w) hfind
    rw [Except.ok.injEq]
    exact ⟨fun h => ⟨hfit, r, hr, hw, h⟩, fun ⟨_, r', hr', hw', h⟩ => row_unique hr hr' hw hw' ▸ h⟩
  · next hnone =>
    exact ⟨fun h => (by cases h), fun ⟨_, r, hr, hw, _⟩ =>
      absurd hw (List.find?_eq_none.1 hnone r hr)⟩

/-- A word that decodes matches exactly one row of its format. -/
theorem filter_hits_length_of_decode {sp : Space} {w : Word} {i : Instr} (h : decode sp w = .ok i) :
    ((rowsOf sp).filter (fun r => r.hits w)).length = 1 := by
  obtain ⟨-, r, hr, hw, -⟩ := decode_ok_iff.1 h
  exact Nat.le_antisymm (filter_hits_length_le_one sp w)
    (List.length_pos_of_mem (List.mem_filter.2 ⟨hr, hw⟩))

/-- `i` is a well-formed instruction of the format, and `w` is its encoding. -/
abbrev EncodedAs (sp : Space) (w : Word) (i : Instr) : Prop :=
  wellFormed i = true ∧ spaceOf i = sp ∧ encode i = w

/-! ### Command words (R91) -/

theorem commandRow_hits {r : Row} (hr : r ∈ commandRows) (w : Word) :
    r.hits w = true ↔ w = r.pattern := by
  have hmask : ∀ r ∈ commandRows, r.mask = BitVec.allOnes 32 := by decide
  rw [Row.hits_iff, hmask r hr, BitVec.and_allOnes]

theorem encodedAs_of_commandRow {r : Row} (hr : r ∈ commandRows) :
    EncodedAs .cmd32 r.pattern (r.build r.pattern) := by
  have henc : ∀ r ∈ commandRows, EncodedAs .cmd32 r.pattern (r.build r.pattern) := by decide
  exact henc r hr

theorem encodedAs_of_decodeCommand {w : Word} {i : Instr} (h : decodeCommand w = .ok i) :
    EncodedAs .cmd32 w i := by
  obtain ⟨-, r, hr, hw, rfl⟩ := decode_ok_iff.1 h
  rw [(commandRow_hits hr w).1 hw]
  exact encodedAs_of_commandRow hr

/-- A command word decodes exactly when it is one of the six codes. -/
theorem decodeCommand_ok_iff (w : Word) :
    (∃ i, decodeCommand w = .ok i) ↔ 1 ≤ w.toNat ∧ w.toNat ≤ 6 := by
  have hcodes : ∀ r ∈ commandRows, 1 ≤ r.pattern.toNat ∧ r.pattern.toNat ≤ 6 := by decide
  have hrows : ∀ n, 1 ≤ n → n ≤ 6 → ∃ r ∈ commandRows, r.pattern.toNat = n := by
    intro n h1 h6
    interval_cases n <;> decide
  constructor
  · rintro ⟨i, h⟩
    obtain ⟨-, r, hr, hw, -⟩ := decode_ok_iff.1 h
    exact (commandRow_hits hr w).1 hw ▸ hcodes r hr
  · rintro ⟨h1, h6⟩
    obtain ⟨r, hr, hn⟩ := hrows _ h1 h6
    exact ⟨r.build w, decode_ok_iff.2 ⟨fun h => absurd rfl h, r, hr,
      (commandRow_hits hr w).2 (BitVec.eq_of_toNat_eq hn.symm), rfl⟩⟩

/-- R91's condition on `w[31:8]` and `w[7:0]` says that the word itself is one of 1 to 6. -/
theorem codeField_iff (w : Word) :
    (w.extractLsb' 8 24 = 0 ∧ 1 ≤ (w.extractLsb' 0 8).toNat ∧ (w.extractLsb' 0 8).toNat ≤ 6) ↔
      1 ≤ w.toNat ∧ w.toNat ≤ 6 := by
  have hlt := w.isLt
  rw [← BitVec.toNat_inj]
  simp only [BitVec.extractLsb'_toNat, Nat.shiftRight_eq_div_pow, BitVec.ofNat_eq_ofNat,
    BitVec.toNat_ofNat]
  omega

/-! ### Frame bytes (R93 to R96, R99) -/

theorem byte_of_word (b : Byte) : (b.setWidth 32).setWidth 8 = b := by simp

/-- A word below 256 is a byte. -/
theorem exists_byte_of_lt {w : Word} (h : w.toNat < 256) : ∃ b : Byte, w = b.setWidth 32 :=
  ⟨w.setWidth 8, BitVec.eq_of_toNat_eq (by simp; omega)⟩

theorem byte_word_lt (b : Byte) : (b.setWidth 32).toNat < 256 := by
  rw [BitVec.toNat_setWidth_of_le (by decide)]
  exact b.isLt

theorem frameByte0_and (fin : Bool) (rsv : BitVec 3) (op : BitVec 4) :
    (frameByte0 fin rsv op).setWidth 32 &&& 0x0F = op.setWidth 32 := by
  revert fin rsv op; decide

theorem frameByte1_and (mask : Bool) (ind : BitVec 7) :
    (frameByte1 mask ind).setWidth 32 &&& 0x7F = ind.setWidth 32 := by
  revert mask ind; decide

/-- A row sees no bit outside its mask. -/
theorem Row.hits_congr {r : Row} {v w k : Word} (hk : k &&& r.mask = r.mask) (hw : w &&& k = v) :
    r.hits w = r.hits v := by
  rw [Row.hits, Row.hits, ← hw, BitVec.and_assoc, hk]

/-- Frame byte 0's rows see the opcode alone. -/
theorem hits_frameByte0 {r : Row} (hr : r ∈ byte0Rows) (fin : Bool) (rsv : BitVec 3) (op : BitVec 4) :
    r.hits ((frameByte0 fin rsv op).setWidth 32) = r.hits (op.setWidth 32) := by
  have hmask : ∀ r ∈ byte0Rows, 0x0F &&& r.mask = r.mask := by decide
  exact Row.hits_congr (hmask r hr) (frameByte0_and fin rsv op)

/-- Frame byte 1's rows see the length indicator alone. -/
theorem hits_frameByte1 {r : Row} (hr : r ∈ byte1Rows) (mask : Bool) (ind : BitVec 7) :
    r.hits ((frameByte1 mask ind).setWidth 32) = r.hits (ind.setWidth 32) := by
  have hmask : ∀ r ∈ byte1Rows, 0x7F &&& r.mask = r.mask := by decide
  exact Row.hits_congr (hmask r hr) (frameByte1_and mask ind)

/-- Each opcode value has its row, and the row's instructions are encoded with that opcode (R99). -/
theorem exists_byte0Row (op : BitVec 4) :
    ∃ mk, byte0Rows[op.toNat]? = some (byte0Row (op.setWidth 32) mk) ∧
      ∀ fin rsv, EncodedAs .frameB0 ((frameByte0 fin rsv op).setWidth 32) (mk fin rsv) := by
  obtain ⟨⟨n, hn⟩⟩ := op
  interval_cases n <;> exact ⟨_, rfl, fun _ _ => ⟨rfl, rfl, rfl⟩⟩

/-- Frame byte 0 decodes by its opcode's row. -/
theorem decode_frameByte0 {op : BitVec 4} {mk : Bool → BitVec 3 → Instr}
    (h : byte0Rows[op.toNat]? = some (byte0Row (op.setWidth 32) mk)) (fin : Bool) (rsv : BitVec 3) :
    decode .frameB0 ((frameByte0 fin rsv op).setWidth 32) = .ok (mk fin rsv) := by
  have hmem : byte0Row (op.setWidth 32) mk ∈ byte0Rows := List.mem_of_getElem? h
  have hhits : ∀ op : BitVec 4, op.setWidth 32 &&& 0x0F = op.setWidth 32 := by decide
  refine decode_ok_iff.2 ⟨fun _ => byte_word_lt _, _, hmem, ?_, ?_⟩
  · rw [hits_frameByte0 hmem, Row.hits_iff]
    exact hhits op
  · simp only [byte0Row, byte_of_word, finOf_frameByte0, rsvOf_frameByte0]

/-- The instruction of frame byte 1, by R96's table. -/
def lengthForm (mask : Bool) (ind : BitVec 7) : Instr :=
  if ind = 126 then .frameLen16 mask
  else if ind = 127 then .frameLen32 mask
  else .frameLen7 mask ind

/-- The literal lengths are the indicators other than 126 and 127. -/
theorem lenInd_le_iff (ind : BitVec 7) : ind.toNat ≤ 125 ↔ ind ≠ 126 ∧ ind ≠ 127 := by
  have := ind.isLt
  simp only [ne_eq, ← BitVec.toNat_inj, BitVec.ofNat_eq_ofNat, BitVec.toNat_ofNat]
  omega

theorem lengthForm_of_le {mask : Bool} {ind : BitVec 7} (h : ind.toNat ≤ 125) :
    lengthForm mask ind = .frameLen7 mask ind := by
  obtain ⟨h126, h127⟩ := (lenInd_le_iff ind).1 h
  rw [lengthForm, if_neg h126, if_neg h127]

theorem encodedAs_lengthForm (mask : Bool) (ind : BitVec 7) :
    EncodedAs .frameB1 ((frameByte1 mask ind).setWidth 32) (lengthForm mask ind) := by
  unfold lengthForm
  split
  · next h => subst h; exact ⟨rfl, rfl, rfl⟩
  split
  · next h => subst h; exact ⟨rfl, rfl, rfl⟩
  · next h126 h127 =>
    exact ⟨decide_eq_true ((lenInd_le_iff ind).2 ⟨h126, h127⟩), rfl, rfl⟩

/-- Each length indicator matches a row that builds its length form: the first six rows cover the literal
lengths (R96). -/
theorem exists_byte1Row (ind : BitVec 7) :
    ∃ r ∈ byte1Rows, r.hits (ind.setWidth 32) = true ∧
      ∀ mask, r.build ((frameByte1 mask ind).setWidth 32) = lengthForm mask ind := by
  have hcover : ∀ ind : BitVec 7, ind ≠ 126 → ind ≠ 127 →
      ∃ r ∈ byte1Rows.take 6, r.hits (ind.setWidth 32) = true := by decide
  have hbuild : ∀ r ∈ byte1Rows.take 6, ∀ w : Word,
      r.build w = .frameLen7 (maskOf (w.setWidth 8)) (lenIndOf (w.setWidth 8)) := by
    simp [byte1Rows, len7Row]
  unfold lengthForm
  split
  · next h => subst h; exact ⟨_, List.mem_of_getElem? (i := 6) rfl, rfl, by simp⟩
  split
  · next h => subst h; exact ⟨_, List.mem_of_getElem? (i := 7) rfl, rfl, by simp⟩
  · next h126 h127 =>
    obtain ⟨r, hr, hhits⟩ := hcover ind h126 h127
    exact ⟨r, List.mem_of_mem_take hr, hhits, fun mask => by
      rw [hbuild r hr, byte_of_word, maskOf_frameByte1, lenIndOf_frameByte1]⟩

/-- Frame byte 1 decodes by R96's table. -/
theorem decode_frameByte1 (mask : Bool) (ind : BitVec 7) :
    decode .frameB1 ((frameByte1 mask ind).setWidth 32) = .ok (lengthForm mask ind) := by
  obtain ⟨r, hr, hhits, hbuild⟩ := exists_byte1Row ind
  exact decode_ok_iff.2 ⟨fun _ => byte_word_lt _, r, hr, (hits_frameByte1 hr mask ind).trans hhits,
    hbuild mask⟩

/-- Every frame byte 0 decodes to an instruction that is encoded as that byte (R99). -/
theorem exists_decodeByte0 (b : Byte) :
    ∃ i, decodeByte0 b = .ok i ∧ EncodedAs .frameB0 (b.setWidth 32) i := by
  obtain ⟨mk, hrow, henc⟩ := exists_byte0Row (opcodeOf b)
  have hdec := decode_frameByte0 hrow (finOf b) (rsvOf b)
  have henc := henc (finOf b) (rsvOf b)
  rw [frameByte0_fields] at hdec henc
  exact ⟨_, hdec, henc⟩

/-- Every frame byte 1 decodes to an instruction that is encoded as that byte (R96). -/
theorem exists_decodeByte1 (b : Byte) :
    ∃ i, decodeByte1 b = .ok i ∧ EncodedAs .frameB1 (b.setWidth 32) i := by
  have hdec := decode_frameByte1 (maskOf b) (lenIndOf b)
  have henc := encodedAs_lengthForm (maskOf b) (lenIndOf b)
  rw [frameByte1_fields] at hdec henc
  exact ⟨_, hdec, henc⟩

end Sys2Proof

namespace Sys2Proof.Machine

/-! ### The obligations on the encodings -/

/-- Settles O7: a command is the one row of its code, a row of frame byte 0 is found by its opcode, and
frame byte 1 decodes by R96's table. -/
theorem decodeOfEncodeIsTheInstruction : Obligations.DecodeOfEncodeIsTheInstruction := by
  intro i hwf
  cases i with
  | decode | unmask | encode | validate | accept | sha1 => rfl
  | frameOpContinuation fin rsv | frameOpText fin rsv | frameOpBinary fin rsv
  | frameOpUnnamed3 fin rsv | frameOpUnnamed4 fin rsv | frameOpUnnamed5 fin rsv
  | frameOpUnnamed6 fin rsv | frameOpUnnamed7 fin rsv | frameOpClose fin rsv | frameOpPing fin rsv
  | frameOpPong fin rsv | frameOpUnnamedB fin rsv | frameOpUnnamedC fin rsv
  | frameOpUnnamedD fin rsv | frameOpUnnamedE fin rsv | frameOpUnnamedF fin rsv =>
    exact decode_frameByte0 rfl fin rsv
  | frameLen7 mask ind =>
    exact (decode_frameByte1 mask ind).trans (congrArg _ (lengthForm_of_le (of_decide_eq_true hwf)))
  | frameLen16 mask => exact decode_frameByte1 mask 126
  | frameLen32 mask => exact decode_frameByte1 mask 127

/-- Settles O8: a command word is its row's code, and every frame byte decodes to an instruction encoded
as that byte. -/
theorem encodeOfDecodeIsTheWord : Obligations.EncodeOfDecodeIsTheWord := by
  intro sp w i h
  obtain ⟨hfit, -⟩ := decode_ok_iff.1 h
  cases sp with
  | cmd32 => exact encodedAs_of_decodeCommand h
  | frameB0 =>
    obtain ⟨b, rfl⟩ := exists_byte_of_lt (hfit (by decide))
    obtain ⟨j, hj, henc⟩ := exists_decodeByte0 b
    exact Except.ok.inj (hj.symm.trans h) ▸ henc
  | frameB1 =>
    obtain ⟨b, rfl⟩ := exists_byte_of_lt (hfit (by decide))
    obtain ⟨j, hj, henc⟩ := exists_decodeByte1 b
    exact Except.ok.inj (hj.symm.trans h) ▸ henc

/-- Settles O9: the six codes are the words 1 to 6. -/
theorem legalCommandWords : Obligations.LegalCommandWords :=
  ⟨fun w => (decodeCommand_ok_iff w).trans (codeField_iff w).symm, rfl, rfl, rfl, rfl, rfl, rfl⟩

/-- Settles O10: a frame byte decodes, so it matches a row, and no word matches two. -/
theorem everyFrameByteMatchesOneRow : Obligations.EveryFrameByteMatchesOneRow := by
  refine ⟨fun b => ⟨?_, ?_⟩, filter_hits_length_le_one .cmd32⟩
  · obtain ⟨i, hi, -⟩ := exists_decodeByte0 b
    exact filter_hits_length_of_decode hi
  · obtain ⟨i, hi, -⟩ := exists_decodeByte1 b
    exact filter_hits_length_of_decode hi

/-- Settles O11: each word is the encoding of the instruction it stands for. -/
theorem writtenOutWordsDecode : Obligations.WrittenOutWordsDecode :=
  ⟨decodeOfEncodeIsTheInstruction .validate rfl,
    decodeOfEncodeIsTheInstruction (.frameOpText true 0) rfl,
    decodeOfEncodeIsTheInstruction (.frameOpPong false 4) rfl,
    decodeOfEncodeIsTheInstruction (.frameOpUnnamedF true 7) rfl,
    decodeOfEncodeIsTheInstruction (.frameLen7 true 125) rfl,
    decodeOfEncodeIsTheInstruction (.frameLen16 false) rfl,
    decodeOfEncodeIsTheInstruction (.frameLen32 true) rfl⟩

end Sys2Proof.Machine
end

section
/-! PROOF. The encodings on a step (30_encoding.md R91, R92, R94 to R96): an illegal command word, DECODE
as the row of a frame byte, and what the length forms report. -/

namespace Sys2Proof.Machine

/-- A word that is not one of the six codes is rejected. -/
theorem issue_illegal {w : Word} (hw : ¬ (1 ≤ w.toNat ∧ w.toNat ≤ 6)) (s : State) :
    issue w s = .next (illegalCommand w s) := by
  unfold issue
  split
  · next i hi => exact absurd ((decodeCommand_ok_iff w).1 ⟨i, hi⟩) hw
  · rfl

/-- Settles O14: the word is rejected, and IllegalCommand is raised on the state with CMD written. -/
theorem illegalWordRaisesIllegalCommand : Obligations.IllegalWordRaisesIllegalCommand := by
  intro s w rest h hill
  have hw : ¬ (1 ≤ w.toNat ∧ w.toNat ≤ 6) := by
    rw [← codeField_iff]
    rintro ⟨hhigh, hlow⟩
    rcases hill with h | h | h
    · exact h hhigh
    · omega
    · omega
  exact ⟨_, (step_command h).trans (issue_illegal hw _), failed_raise (illegalCommandError w) _, rfl,
    statusRaise_rest _ (Nat.le_refl 2)⟩

/-! ### DECODE as the row of a frame byte (log 1) -/

/-- A frame with the byte it has is itself. -/
theorem withFrameByte_self (frame : Nat → Byte) (j : Nat) : withFrameByte frame j (frame j) = frame := by
  funext i
  unfold withFrameByte
  split
  · next h => rw [h]
  · rfl

/-- The row that byte 0 of the frame in IBUF, or byte 1, decodes to runs as DECODE. -/
theorem exec_eq_decode {i : Instr} {s : State}
    (h : decodeByte0 (inputFrame s 0) = .ok i ∨ decodeByte1 (inputFrame s 1) = .ok i) :
    exec i s = exec .decode s := by
  have hframe : RunsParser i ∧ frameOf i s = inputFrame s := by
    rcases h with h | h
    all_goals
      obtain ⟨-, hsp, henc⟩ := encodeOfDecodeIsTheWord _ _ _ h
      refine ⟨.inr (by rw [hsp]; decide), ?_⟩
      simp only [frameOf, hsp, henc, byte_of_word, withFrameByte_self]
  rw [exec_parser hframe.1, exec_parser (.inl rfl), hframe.2]
  rfl

/-- Settles O13: the step issues DECODE, and the row of either frame byte runs as DECODE. -/
theorem stepRunsTheDecodedFrameBytes : Obligations.StepRunsTheDecodedFrameBytes := by
  intro s i rest h hi
  rw [step_command h, exec_eq_decode (s := { s with host := rest, cmd := 1, reply := none }) hi]
  rfl

/-! ### What a complete frame's parse records -/

/-- The outputs of a parse are the frame's layout, none of them cut short (R27 to R31, R98, R121). -/
theorem decoded_writeParsed {frame : Nat → Byte} (s : State)
    (hfit : headerLen frame + declaredLen frame < 2 ^ 32) :
    Decoded frame (succeed (writeParsed s (parsedOf frame))) where
  succeeded := succeeded_succeed _
  byte0 := packFrame_byte0 ..
  mask := frameMask_pack ..
  opKnown := frameOpKnown_pack ..
  lenForm := frameLenForm_pack ..
  hdrLen := by
    refine (congrArg BitVec.toNat (frameHdrLen_pack ..)).trans ?_
    exact (BitVec.toNat_ofNat _ _).trans
      (Nat.mod_eq_of_lt (Nat.lt_of_le_of_lt (headerLen_le frame) (by decide)))
  high := frameHigh_pack ..
  plen := (BitVec.toNat_ofNat _ _).trans (Nat.mod_eq_of_lt (declaredLen_lt frame))
  consumed := (BitVec.toNat_ofNat _ _).trans (Nat.mod_eq_of_lt hfit)
  maskkey := rfl
  olen := (BitVec.toNat_ofNat _ _).trans (Nat.mod_eq_of_lt (declaredLen_lt frame))
  payload := fun i hi => by
    have hlen : i < (unmaskBytes (rawPayload frame) (keyOf frame)).length := by simpa using hi
    refine (bufByte_write_inside (s := s) rfl hlen).trans ?_
    rw [unmaskBytes_getElem, keyOf_getD]
    simp [rawPayload]

/-- An instruction that runs the parser on a frame within ILEN records the frame (R121). -/
theorem exec_decoded {i : Instr} {s : State} (hi : RunsParser i)
    (hilen : s.ilen.toNat ≤ s.params.ibufSize)
    (hfit : headerLen (frameOf i s) + declaredLen (frameOf i s) ≤ s.ilen.toNat) :
    ∃ t, exec i s = .next t ∧ Decoded (frameOf i s) t :=
  ⟨_, by rw [exec_parser hi, decodeFrame_complete hilen hfit],
    decoded_writeParsed s (Nat.lt_of_le_of_lt hfit s.ilen.isLt)⟩

/-! ### The length forms -/

/-- The frame in IBUF with the byte 1 of a length form. -/
def lengthFrame (mask : Bool) (ind : BitVec 7) (s : State) : Nat → Byte :=
  withFrameByte (inputFrame s) 1 (frameByte1 mask ind)

section LengthFrame
variable (mask : Bool) (ind : BitVec 7) (s : State)

@[simp] theorem lengthFrame_one : lengthFrame mask ind s 1 = frameByte1 mask ind := rfl

theorem extBytes_lengthFrame :
    extBytes (lengthFrame mask ind s) = if ind = 126 then 2 else if ind = 127 then 4 else 0 := by
  simp only [extBytes, lengthFrame_one, lenIndOf_frameByte1]

theorem declaredForm_lengthFrame :
    declaredForm (lengthFrame mask ind s) = if ind = 126 then 1 else if ind = 127 then 2 else 0 := by
  simp only [declaredForm, lengthFrame_one, lenIndOf_frameByte1]

theorem keySize_lengthFrame : keySize (lengthFrame mask ind s) = if mask then 4 else 0 := by
  simp only [keySize, lengthFrame_one, maskOf_frameByte1]

/-- The extension bytes are those of IBUF. -/
theorem declaredLen_lengthFrame :
    declaredLen (lengthFrame mask ind s) =
      if ind = 126 then (inputFrame s 2).toNat * 2 ^ 8 + (inputFrame s 3).toNat
      else if ind = 127 then
        (inputFrame s 2).toNat * 2 ^ 24 + (inputFrame s 3).toNat * 2 ^ 16 +
          (inputFrame s 4).toNat * 2 ^ 8 + (inputFrame s 5).toNat
      else ind.toNat := by
  simp only [declaredLen, lengthFrame_one, lenIndOf_frameByte1]
  rfl

theorem frameOf_lengthForm : frameOf (lengthForm mask ind) s = lengthFrame mask ind s := by
  obtain ⟨-, hsp, henc⟩ := encodedAs_lengthForm mask ind
  simp only [frameOf, hsp, henc, byte_of_word, lengthFrame]

end LengthFrame

/-- A length form of `x` extension bytes and payload length `n` runs on a frame within ILEN and reports
LENFORM, PLEN and MASK (R96, R97). -/
theorem exec_lengthForm {mask : Bool} {ind : BitVec 7} {s : State} {x n : Nat} {form : BitVec 2}
    (hext : extBytes (lengthFrame mask ind s) = x)
    (hform : declaredForm (lengthFrame mask ind s) = form)
    (hlen : declaredLen (lengthFrame mask ind s) = n)
    (hilen : s.ilen.toNat ≤ s.params.ibufSize)
    (hfit : 2 + x + (if mask then 4 else 0) + n ≤ s.ilen.toNat) :
    ∃ t, exec (lengthForm mask ind) s = .next t ∧ Succeeded t ∧ t.plen.toNat = n ∧
      frameLenForm t.frame = form ∧ frameMask t.frame = mask := by
  obtain ⟨-, hsp, -⟩ := encodedAs_lengthForm mask ind
  rw [← hext, ← keySize_lengthFrame mask ind s, ← hlen, ← frameOf_lengthForm] at hfit
  obtain ⟨t, ht, hdec⟩ := exec_decoded (.inr (by rw [hsp]; decide)) hilen hfit
  rw [frameOf_lengthForm] at hdec
  exact ⟨t, ht, hdec.succeeded, hdec.plen.trans hlen, hdec.lenForm.trans hform,
    hdec.mask.trans (maskOf_frameByte1 mask ind)⟩

/-- Settles O35: `exec_lengthForm`, with each form's row of R96's table. -/
theorem lengthFormsGiveTheTableLength : Obligations.LengthFormsGiveTheTableLength := by
  rintro s mask k hilen rfl
  refine ⟨fun ind hind hfit => ?_, fun n hn hfit => ?_, fun n hn hfit => ?_⟩
  · obtain ⟨h126, h127⟩ := (lenInd_le_iff ind).1 hind
    rw [← lengthForm_of_le hind]
    refine exec_lengthForm (x := 0) ?_ ?_ ?_ hilen hfit
    · rw [extBytes_lengthFrame, if_neg h126, if_neg h127]
    · rw [declaredForm_lengthFrame, if_neg h126, if_neg h127]
    · rw [declaredLen_lengthFrame, if_neg h126, if_neg h127]
  · exact exec_lengthForm (ind := 126) (x := 2) (extBytes_lengthFrame ..)
      (declaredForm_lengthFrame ..) ((declaredLen_lengthFrame ..).trans hn.symm) hilen hfit
  · exact exec_lengthForm (ind := 127) (x := 4) (extBytes_lengthFrame ..)
      (declaredForm_lengthFrame ..) ((declaredLen_lengthFrame ..).trans hn.symm) hilen hfit

end Sys2Proof.Machine
end

section
/-! PROOF. The frame parser (40_frame_parser.md R121, R122, R126, R140 to R146): its one result
(`parseInput`) on a complete frame, on a frame that is cut short and on a length above IBUF, and the bytes
that the result depends on. -/

namespace Sys2Proof.Machine

/-! ### A complete frame -/

theorem exec_parser_ok {i : Instr} {s : State} {p : Parsed} (hi : RunsParser i)
    (h : parseInput (frameOf i s) s = .ok p) : exec i s = .next (succeed (writeParsed s p)) := by
  rw [exec_parser_complete hi, h, complete_ok]

/-- A parse writes DECODE's outputs alone, and of memory the payload's place in OBUF (R47, R121). -/
theorem decodeFrameRule_writeParsed (frame : Nat → Byte) (s : State) :
    DecodeFrameRule (declaredLen frame) s (succeed (writeParsed s (parsedOf frame))) where
  control := keepsControl_succeed (keepsControl_writeParsed s _)
  keylen := rfl
  memory := fun a ha => memByte_write_outside (s := s) rfl rfl (by simpa [parsedOf] using ha)

/-- Settles O29: the parse is that of the frame's layout, which `decoded_writeParsed` reads back. -/
theorem parserDecodesACompleteFrame : Obligations.ParserDecodesACompleteFrame := by
  intro i s hi hilen hfit
  exact ⟨_, exec_parser_ok hi (parseInput_ok_iff.2 ⟨hilen, hfit, rfl⟩),
    decoded_writeParsed s (Nat.lt_of_le_of_lt hfit s.ilen.isLt), decodeFrameRule_writeParsed _ s⟩

/-! ### The opcode rows of frame byte 0 -/

/-- The row of an opcode value runs and reports the byte it stands for (R99, R140 to R146). -/
theorem opcodeRowRuns {op : BitVec 4} {mk : Bool → BitVec 3 → Instr} {known : Bool}
    (hrow : byte0Rows[op.toNat]? = some (byte0Row (op.setWidth 32) mk)) (hknown : opKnown op = known) :
    OpcodeRowRuns mk op known := by
  rintro fin rsv s frame hbyte hilen hfit
  obtain ⟨-, hsp, henc⟩ := encodeOfDecodeIsTheWord _ _ _ (decode_frameByte0 hrow fin rsv)
  have hframe : frameOf (mk fin rsv) s = frame := by
    simp only [frameOf, hsp, henc, byte_of_word]
    exact hbyte.symm
  have hzero : frame 0 = frameByte0 fin rsv op := by rw [hbyte]; rfl
  rw [← hframe] at hfit
  obtain ⟨t, ht, hdec, hrule⟩ :=
    parserDecodesACompleteFrame _ s (runsParser_of_space (by rw [hsp]; decide)) hilen hfit
  rw [hframe] at hdec hrule
  have hreported : t.frame.extractLsb' 0 8 = frameByte0 fin rsv op := hdec.byte0.trans hzero
  refine ⟨t, ht, ?_, ?_, ?_, ?_, hdec, hrule⟩
  · rw [frameFin_eq, hreported]
    exact finOf_frameByte0 fin rsv op
  · rw [frameRsv_eq, hreported]
    exact rsvOf_frameByte0 fin rsv op
  · rw [frameOpcode_eq, hreported]
    exact opcodeOf_frameByte0 fin rsv op
  · rw [hdec.opKnown, hzero, opcodeOf_frameByte0, hknown]

/-- Settles O33: each named value is the place of its row in the table, and is known. -/
theorem namedOpcodesAreReported : Obligations.NamedOpcodesAreReported :=
  ⟨opcodeRowRuns rfl rfl, opcodeRowRuns rfl rfl, opcodeRowRuns rfl rfl, opcodeRowRuns rfl rfl,
    opcodeRowRuns rfl rfl, opcodeRowRuns rfl rfl⟩

/-- Settles O34: each unnamed value is the place of its row in the table, and is not known. -/
theorem unnamedOpcodesAreReported : Obligations.UnnamedOpcodesAreReported :=
  ⟨opcodeRowRuns rfl rfl, opcodeRowRuns rfl rfl, opcodeRowRuns rfl rfl, opcodeRowRuns rfl rfl,
    opcodeRowRuns rfl rfl, opcodeRowRuns rfl rfl, opcodeRowRuns rfl rfl, opcodeRowRuns rfl rfl,
    opcodeRowRuns rfl rfl, opcodeRowRuns rfl rfl⟩

/-! ### A parse that fails -/

/-- A failed parse clears DECODE's outputs and keeps all else (R47, R236). -/
theorem decodeCleared_raise (e : CmdError) (s : State) : DecodeCleared s (raise e (clearParsed s)) where
  control := keepsControl_raise e ⟨rfl, rfl, rfl, rfl, rfl, rfl, rfl, rfl, rfl, rfl⟩
  keylen := rfl
  memory := memByte_congr rfl rfl
  frame := rfl
  plen := rfl
  consumed := rfl
  maskkey := rfl
  olen := rfl

theorem exec_parser_fails {i : Instr} {s : State} {e : CmdError} (hi : RunsParser i)
    (h : parseInput (frameOf i s) s = .error e) :
    ∃ t, exec i s = .next t ∧ Failed t (errorCode e.kind) e.detail e.index ∧ DecodeCleared s t :=
  ⟨_, by rw [exec_parser_complete hi, h, complete_error], failed_raise e _, decodeCleared_raise e s⟩

/-- The check of ILEN comes before every read (R121, R232). -/
theorem parseInput_of_lt {s : State} (h : s.params.ibufSize < s.ilen.toNat) (frame : Nat → Byte) :
    parseInput frame s = .error ⟨.lengthOutOfRange, 1, 0⟩ := by
  unfold parseInput checkIlen
  rw [if_pos h]
  rfl

theorem parseInput_of_le {s : State} (h : s.ilen.toNat ≤ s.params.ibufSize) (frame : Nat → Byte) :
    parseInput frame s = parseFrame frame s.ilen.toNat := by
  unfold parseInput checkIlen
  rw [if_neg (Nat.not_lt.2 h)]
  rfl

/-- Settles O31: the parse is the error of the length check. -/
theorem parserRejectsIlenAboveTheBuffer : Obligations.ParserRejectsIlenAboveTheBuffer :=
  fun i s hi hilen => exec_parser_fails hi (parseInput_of_lt hilen (frameOf i s))

theorem keySize_eq_of_ne_zero {frame : Nat → Byte} (h : keySize frame ≠ 0) : keySize frame = 4 :=
  if_pos (ite_ne_right_iff.1 h).1

/-- The parser raises the first read step that passes the end: `x` extension bytes, `k` key bytes and `len`
payload bytes after the first two (R122). -/
theorem parseFrame_underrun {frame : Nat → Byte} {n x k len step : Nat}
    (hx : x = extBytes frame) (hk : k = keySize frame) (hlen : len = declaredLen frame)
    (h : (step = 1 ∧ n < 1) ∨
     (step = 2 ∧ 1 ≤ n ∧ n < 2) ∨
     (step = 3 ∧ 2 ≤ n ∧ x ≠ 0 ∧ n < 2 + x) ∨
     (step = 4 ∧ 2 ≤ n ∧ 2 + x ≤ n ∧ k ≠ 0 ∧ n < 2 + x + 4) ∨
     (step = 5 ∧ 2 ≤ n ∧ 2 + x + k ≤ n ∧ n < 2 + x + k + len)) :
    parseFrame frame n = .error (underrun step) := by
  have hhead : headerLen frame = 2 + extBytes frame + keySize frame := rfl
  rw [parseFrame_eq]
  rcases h with ⟨rfl, h⟩ | ⟨rfl, h1, h⟩ | ⟨rfl, h2, -, h⟩ | ⟨rfl, h2, h3, hkey, h⟩ | ⟨rfl, h2, h4, h⟩
  · rw [if_pos h]
  · rw [if_neg (by omega), if_pos h]
  · rw [if_neg (by omega), if_neg (by omega), if_pos (by omega)]
  · have hkey4 := keySize_eq_of_ne_zero (hk ▸ hkey)
    rw [if_neg (by omega), if_neg (by omega), if_neg (by omega), if_pos (by omega)]
  · rw [if_neg (by omega), if_neg (by omega), if_neg (by omega), if_neg (by omega), if_pos (by omega)]

/-! ### The bytes a parse depends on -/

theorem takeBytes_congr {f g : Nat → Byte} {ilen : Nat} (h : ∀ j, j < ilen → g j = f j)
    (pos n step : Nat) : takeBytes g ilen pos n step = takeBytes f ilen pos n step := by
  unfold takeBytes
  split
  · rfl
  · next hfit =>
    have hread : (List.range n).map (fun k => g (pos + k)) = (List.range n).map (fun k => f (pos + k)) :=
      List.map_congr_left fun k hk => h _ (by have := List.mem_range.1 hk; omega)
    rw [hread]

/-- Every byte the parser reads, it takes from below ILEN (R11, R122). -/
theorem parseFrame_congr {f g : Nat → Byte} {ilen : Nat} (h : ∀ j, j < ilen → g j = f j) :
    parseFrame g ilen = parseFrame f ilen := by
  simp only [parseFrame, readLength, readKey, takeBytes_congr h]

theorem parseInput_congr {f g : Nat → Byte} {s s' : State} (hparams : s'.params = s.params)
    (hilen : s'.ilen = s.ilen) (h : ∀ j, j < s.ilen.toNat → g j = f j) :
    parseInput g s' = parseInput f s := by
  simp only [parseInput, checkIlen, hparams, hilen, parseFrame_congr h]

/-- Two states hold the same results of a parse: the outcome, DECODE's registers and OBUF[0 .. OLEN). -/
structure SameParse (t t' : State) : Prop where
  ok : statusOkBit t'.status = statusOkBit t.status
  errcode : t'.errcode = t.errcode
  frame : t'.frame = t.frame
  plen : t'.plen = t.plen
  consumed : t'.consumed = t.consumed
  maskkey : t'.maskkey = t.maskkey
  olen : t'.olen = t.olen
  payload : ∀ j, j < t.olen.toNat → bufByte t' .obuf j = bufByte t .obuf j

theorem sameParse_writeParsed (frame : Nat → Byte) (s s' : State) :
    SameParse (succeed (writeParsed s (parsedOf frame))) (succeed (writeParsed s' (parsedOf frame))) where
  ok := by simp
  errcode := rfl
  frame := rfl
  plen := rfl
  consumed := rfl
  maskkey := rfl
  olen := rfl
  payload := fun j hj => by
    have holen : (BitVec.ofNat 32 (declaredLen frame)).toNat ≤ declaredLen frame :=
      (BitVec.toNat_ofNat _ _).trans_le (Nat.mod_le _ _)
    have hlen : j < (parsedOf frame).payload.length := by
      simpa [parsedOf] using Nat.lt_of_lt_of_le hj holen
    exact (bufByte_write_inside (s := s') rfl hlen).trans (bufByte_write_inside (s := s) rfl hlen).symm

theorem sameParse_raise (e : CmdError) (s s' : State) :
    SameParse (raise e (clearParsed s)) (raise e (clearParsed s')) where
  ok := by simp
  errcode := rfl
  frame := rfl
  plen := rfl
  consumed := rfl
  maskkey := rfl
  olen := rfl
  payload := fun _ hj => absurd hj (Nat.not_lt_zero _)

/-- Two states whose parses are the same result end with the same results. -/
theorem exec_sameParse {i : Instr} {s s' t : State} (hi : RunsParser i)
    (hparse : parseInput (frameOf i s') s' = parseInput (frameOf i s) s) (h : exec i s = .next t) :
    ∃ t', exec i s' = .next t' ∧ SameParse t t' := by
  rw [exec_parser_complete hi] at h ⊢
  rw [hparse]
  injection h with ht
  subst ht
  refine ⟨_, rfl, ?_⟩
  cases hr : parseInput (frameOf i s) s with
  | ok p =>
    obtain ⟨-, -, rfl⟩ := parseInput_ok_iff.1 hr
    exact sameParse_writeParsed (frameOf i s) s s'
  | error e => exact sameParse_raise e s s'

/-- Settles O30: the first short step of the parse, and a parse that takes bytes below ILEN only. -/
theorem parserUnderrunsAtTheFirstShortStep : Obligations.ParserUnderrunsAtTheFirstShortStep := by
  refine ⟨?_, ?_⟩
  · rintro i s n x k len step hi rfl hilen hx hk hlen hstep
    exact exec_parser_fails hi
      ((parseInput_of_le hilen _).trans (parseFrame_underrun hx hk hlen hstep))
  · intro i s s' t hi hparams hilen hbytes h
    obtain ⟨t', ht', hok, hcode, hframe, hplen, hcons, hkey, holen, hobuf⟩ :=
      exec_sameParse hi (parseInput_congr hparams hilen (frameOf_congr hbytes)) h
    exact ⟨t', ht', hok, hcode, hframe, hplen, hcons, hkey, holen, hobuf⟩

/-- Settles O32: a frame within both ILENs parses to the same result from both states. -/
theorem decodeReadsOnlyItsFrame : Obligations.DecodeReadsOnlyItsFrame := by
  intro s s' t hilen hparams hfit hfit' hilen' hbytes h
  obtain ⟨htotal, hparsed⟩ := parsedOf_congr hbytes (Nat.le_refl _)
  have hdec : parseInput (inputFrame s) s = .ok (parsedOf (inputFrame s)) :=
    parseInput_ok_iff.2 ⟨hilen, hfit, rfl⟩
  have hdec' : parseInput (inputFrame s') s' = .ok (parsedOf (inputFrame s)) :=
    parseInput_ok_iff.2 ⟨hilen', htotal.trans_le hfit', hparsed⟩
  rw [exec_parser_ok (.inl rfl) hdec] at h
  injection h with ht
  subst ht
  obtain ⟨-, -, hframe, hplen, hcons, hkey, holen, hobuf⟩ := sameParse_writeParsed (inputFrame s) s s'
  exact ⟨_, exec_parser_ok (.inl rfl) hdec', hframe, hplen, hcons, hkey, holen, succeeded_succeed _,
    succeeded_succeed _, hobuf⟩

end Sys2Proof.Machine
end

section
/-! PROOF. The unmask datapath and UNMASK (40_frame_parser.md R120, R123, R124): byte by byte, in the
datapath, on the machine, and twice over. -/

namespace Sys2Proof.Machine

/-! ### The datapath -/

/-- No lane of the zero key changes a byte (R97, R120). -/
theorem unmaskBytes_zero (bs : List Byte) : unmaskBytes bs [0, 0, 0, 0] = bs := by
  have hlane : ∀ j, ([0, 0, 0, 0] : List Byte).getD j 0 = 0 :=
    List.getElem?_getD_replicate_default_eq (d := (0 : Byte)) 4
  refine List.ext_getElem? fun j => ?_
  rw [unmaskBytes_getElem?, hlane]
  simp

/-- A byte meets its lane twice (R124). -/
theorem unmaskBytes_unmaskBytes (bs k : List Byte) : unmaskBytes (unmaskBytes bs k) k = bs := by
  refine List.ext_getElem? fun j => ?_
  rw [unmaskBytes_getElem?, unmaskBytes_getElem?, Option.map_map]
  simp [Function.comp_def]

/-- Settles O36: the datapath's bytes, one by one. -/
theorem unmaskXorsByLane : Obligations.UnmaskXorsByLane := by
  refine ⟨fun p k _ => ⟨unmaskBytes_length p k, fun i hi => ?_⟩, unmaskBytes_zero⟩
  rw [unmaskBytes_getElem?, List.getElem?_eq_getElem hi, Option.map_some]

/-! ### The command -/

/-- MASKKEY's bytes, most significant first (R31). -/
theorem keyBytes_getD (key : Word) (i : Nat) :
    (keyBytes key).getD (i % 4) 0 = key.extractLsb' (24 - 8 * (i % 4)) 8 := by
  have h : i % 4 < 4 := Nat.mod_lt _ (by decide)
  generalize i % 4 = j at h ⊢
  interval_cases j <;> rfl

theorem exec_unmask_of_le {s : State} (h : s.ilen.toNat ≤ s.params.ibufSize) :
    exec .unmask s = .next (succeed (unmasked s)) := by
  rw [exec_unmask, if_neg (Nat.not_lt.2 h)]

/-- OBUF after UNMASK (R123). -/
theorem bufByte_unmasked {s : State} {i : Nat} (hi : i < s.ilen.toNat) :
    bufByte (succeed (unmasked s)) .obuf i =
      bufByte s .ibuf i ^^^ s.maskkey.extractLsb' (24 - 8 * (i % 4)) 8 := by
  have hlen : i < (unmaskBytes (inputBytes s) (keyBytes s.maskkey)).length := by
    simpa [inputBytes] using hi
  refine (bufByte_write_inside (s := s) rfl hlen).trans ?_
  rw [unmaskBytes_getElem, keyBytes_getD]
  simp only [inputBytes, bufBytes_getElem]

theorem not_runsParser_unmask : ¬ RunsParser .unmask := by simp [RunsParser, spaceOf]

/-- Settles O37: UNMASK by its outcome, each with the registers R47 gives it no write to. -/
theorem unmaskWritesTheXorOfTheInput : Obligations.UnmaskWritesTheXorOfTheInput := by
  refine ⟨decodeOfEncodeIsTheInstruction .unmask rfl, fun s => ⟨fun hilen => ?_, fun hilen => ?_⟩⟩
  · have ht := exec_unmask_of_le hilen
    obtain ⟨hcontrol, hframe, hkeylen, -⟩ := exec_keepsRegs ht
    refine ⟨_, ht, succeeded_succeed _, hcontrol, hframe not_runsParser_unmask, hkeylen (by decide), rfl,
      fun i hi => bufByte_unmasked hi, fun a ha => ?_⟩
    exact memByte_write_outside (s := s) rfl rfl (by simpa [inputBytes] using ha)
  · have ht := (exec_unmask s).trans (congrArg _ (if_pos hilen))
    obtain ⟨hcontrol, hframe, hkeylen, -⟩ := exec_keepsRegs ht
    exact ⟨_, ht, failed_raise _ _, hcontrol, hframe not_runsParser_unmask, hkeylen (by decide), rfl,
      memByte_congr rfl rfl⟩

/-- The host's copy of OBUF[0 .. OLEN) to IBUF, with ILEN = OLEN (R124). -/
def hostCopy (t : State) : State :=
  { writeBuf .ibuf (bufBytes t .obuf t.olen.toNat) t with ilen := t.olen }

theorem bufByte_hostCopy {t : State} {i : Nat} (hi : i < t.olen.toNat) :
    bufByte (hostCopy t) .ibuf i = bufByte t .obuf i := by
  have hlen : i < (bufBytes t .obuf t.olen.toNat).length := by simpa using hi
  exact (bufByte_write_inside (s := t) rfl hlen).trans (bufBytes_getElem hlen)

/-- UNMASK, the host's copy and UNMASK again leave the first input in OBUF: each byte meets its lane
twice (R124). -/
theorem bufByte_unmasked_hostCopy {s : State} {i : Nat} (hi : i < s.ilen.toNat) :
    bufByte (succeed (unmasked (hostCopy (succeed (unmasked s))))) .obuf i = bufByte s .ibuf i := by
  calc bufByte (succeed (unmasked (hostCopy (succeed (unmasked s))))) .obuf i
      = bufByte (hostCopy (succeed (unmasked s))) .ibuf i ^^^
          s.maskkey.extractLsb' (24 - 8 * (i % 4)) 8 := bufByte_unmasked hi
    _ = bufByte s .ibuf i ^^^ s.maskkey.extractLsb' (24 - 8 * (i % 4)) 8 ^^^
          s.maskkey.extractLsb' (24 - 8 * (i % 4)) 8 := by
        rw [bufByte_hostCopy hi, bufByte_unmasked hi]
    _ = bufByte s .ibuf i := by rw [BitVec.xor_assoc, BitVec.xor_self, BitVec.xor_zero]

/-- Settles O38: both UNMASKs succeed on the one ILEN, and their bytes are `bufByte_unmasked_hostCopy`. -/
theorem unmaskIsSelfInverse : Obligations.UnmaskIsSelfInverse := by
  refine ⟨fun b k _ => unmaskBytes_unmaskBytes b k, ?_⟩
  intro s t u v _ hilen ht hu hv
  rw [exec_unmask_of_le hilen] at ht
  cases ht
  obtain rfl : u = hostCopy (succeed (unmasked s)) := hu
  rw [exec_unmask_of_le (s := hostCopy (succeed (unmasked s))) hilen] at hv
  cases hv
  exact ⟨rfl, fun i hi => bufByte_unmasked_hostCopy hi⟩

end Sys2Proof.Machine
end

section
/-! PROOF. The frame encoder (41_frame_encoder.md R160, R163): ENCODE by its outcome, byte by byte, and its
frame as DECODE parses it. -/

namespace Sys2Proof.Machine

/-! ### The command -/

@[simp] theorem textFrame_length (payload : List Byte) :
    (textFrame payload).length = payload.length + 2 := rfl

@[simp] theorem inputBytes_length (s : State) : (inputBytes s).length = s.ilen.toNat :=
  bufBytes_length s .ibuf _

theorem exec_encode_of_le {s : State} (h : s.ilen.toNat ≤ 125) :
    exec .encode s = .next (succeed (encoded s)) := by
  rw [exec_encode, if_neg (by omega)]

/-- OLEN after ENCODE does not wrap (R160). -/
theorem encoded_olen_toNat {s : State} (h : s.ilen.toNat ≤ 125) :
    (succeed (encoded s)).olen.toNat = s.ilen.toNat + 2 := by
  show (s.ilen + 2).toNat = _
  rw [BitVec.toNat_add, show (2 : Word).toNat = 2 from rfl]
  omega

/-- OBUF[0 .. L + 2) after ENCODE holds the frame it emits (R160). -/
theorem bufByte_encoded {s : State} {i : Nat} (hi : i < (textFrame (inputBytes s)).length) :
    bufByte (succeed (encoded s)) .obuf i = (textFrame (inputBytes s))[i] :=
  bufByte_write_inside (s := s) rfl hi

theorem bufByte_encoded_zero (s : State) : bufByte (succeed (encoded s)) .obuf 0 = 0x81 :=
  bufByte_encoded (by simp)

theorem bufByte_encoded_one (s : State) :
    bufByte (succeed (encoded s)) .obuf 1 = s.ilen.extractLsb' 0 8 := by
  refine (bufByte_encoded (by simp)).trans ?_
  show BitVec.ofNat 8 (inputBytes s).length = _
  rw [inputBytes_length, BitVec.ofNat_toNat, ← BitVec.setWidth_eq_extractLsb' (by decide)]

theorem bufByte_encoded_payload {s : State} {i : Nat} (hi : i < s.ilen.toNat) :
    bufByte (succeed (encoded s)) .obuf (2 + i) = bufByte s .ibuf i := by
  rw [Nat.add_comm 2 i]
  exact (bufByte_encoded (by simpa using hi)).trans (bufBytes_getElem (by simpa using hi))

theorem not_runsParser_encode : ¬ RunsParser .encode := by simp [RunsParser, spaceOf]

/-- Settles O39: ENCODE by its outcome, each with the registers R47 gives it no write to. -/
theorem encodePacksATextFrame : Obligations.EncodePacksATextFrame := by
  refine ⟨decodeOfEncodeIsTheInstruction .encode rfl, fun s _ => ⟨fun hilen => ?_, fun hilen => ?_⟩⟩
  · have ht := exec_encode_of_le hilen
    obtain ⟨hcontrol, hframe, hkeylen, -⟩ := exec_keepsRegs ht
    refine ⟨_, ht, succeeded_succeed _, hcontrol, hframe not_runsParser_encode, hkeylen (by decide),
      encoded_olen_toNat hilen, bufByte_encoded_zero s, bufByte_encoded_one s,
      fun i hi => bufByte_encoded_payload hi, fun a ha => ?_⟩
    exact memByte_write_outside (s := s) rfl rfl (by simpa using ha)
  · have ht := (exec_encode s).trans (congrArg _ (if_pos hilen))
    obtain ⟨hcontrol, hframe, hkeylen, -⟩ := exec_keepsRegs ht
    exact ⟨_, ht, failed_raise _ _, hcontrol, hframe not_runsParser_encode, hkeylen (by decide), rfl,
      memByte_congr rfl rfl⟩

/-! ### The emitted frame, parsed -/

/-- A length of at most 125 is a frame byte 1 of its own: MASK = 0 and LENIND the length (R95, R96). -/
theorem lengthByte_eq_frameByte1 {n : Word} (h : n.toNat ≤ 125) :
    n.extractLsb' 0 8 = frameByte1 false (n.setWidth 7) := by
  refine BitVec.eq_of_toNat_eq ?_
  simp only [frameByte1, BitVec.extractLsb'_toNat, BitVec.toNat_append, BitVec.toNat_setWidth,
    BitVec.toNat_ofBool, Bool.toNat_false, Nat.zero_shiftLeft, Nat.zero_or, Nat.shiftRight_zero]
  omega

/-- The layout of an unmasked frame with a literal length: no extension bytes and no key (R96, R97, R100). -/
theorem layout_of_literalLength {frame : Nat → Byte} {ind : BitVec 7}
    (hbyte : frame 1 = frameByte1 false ind) (hind : ind.toNat ≤ 125) :
    headerLen frame = 2 ∧ declaredLen frame = ind.toNat ∧ ∀ j, declaredKey frame j = 0 := by
  obtain ⟨h126, h127⟩ := (lenInd_le_iff ind).1 hind
  simp only [headerLen, extBytes, keySize, declaredLen, declaredKey, hbyte, lenIndOf_frameByte1,
    maskOf_frameByte1, if_neg h126, if_neg h127]
  simp

/-- The frame ENCODE emits, copied by the host to IBUF (R163). -/
def looped (s : State) : State := hostCopy (succeed (encoded s))

section Looped
variable {s : State} (hlen : s.ilen.toNat ≤ 125)
include hlen

theorem looped_ilen_toNat : (looped s).ilen.toNat = s.ilen.toNat + 2 := encoded_olen_toNat hlen

theorem inputFrame_looped {i : Nat} (hi : i < s.ilen.toNat + 2) :
    inputFrame (looped s) i = bufByte (succeed (encoded s)) .obuf i :=
  bufByte_hostCopy (by rwa [encoded_olen_toNat hlen])

theorem inputFrame_looped_zero : inputFrame (looped s) 0 = frameByte0 true 0 1 :=
  (inputFrame_looped hlen (by omega)).trans (bufByte_encoded_zero s)

theorem inputFrame_looped_one : inputFrame (looped s) 1 = frameByte1 false (s.ilen.setWidth 7) :=
  (inputFrame_looped hlen (by omega)).trans
    ((bufByte_encoded_one s).trans (lengthByte_eq_frameByte1 hlen))

theorem inputFrame_looped_payload {i : Nat} (hi : i < s.ilen.toNat) :
    inputFrame (looped s) (2 + i) = bufByte s .ibuf i :=
  (inputFrame_looped hlen (by omega)).trans (bufByte_encoded_payload hi)

/-- The emitted frame has the two bytes of header and the payload, and no key (R97, R100, R160). -/
theorem layout_looped :
    headerLen (inputFrame (looped s)) = 2 ∧ declaredLen (inputFrame (looped s)) = s.ilen.toNat ∧
      ∀ j, declaredKey (inputFrame (looped s)) j = 0 := by
  have hind : (s.ilen.setWidth 7).toNat = s.ilen.toNat :=
    (BitVec.toNat_setWidth _ _).trans (Nat.mod_eq_of_lt (by omega))
  rw [← hind]
  exact layout_of_literalLength (inputFrame_looped_one hlen) (hind.trans_le hlen)

/-- DECODE takes the emitted frame: it ends at ILEN, which lies in IBUF (R7, R160). -/
theorem exec_decode_looped (hlegal : s.params.Legal) :
    ∃ v, exec .decode (looped s) = .next v ∧ Decoded (inputFrame (looped s)) v := by
  obtain ⟨hhead, hdecl, -⟩ := layout_looped hlen
  obtain ⟨⟨hsize, -⟩, -⟩ := hlegal
  have hilen := looped_ilen_toNat hlen
  refine exec_decoded (i := .decode) (.inl rfl) ?_ ?_
  · show (looped s).ilen.toNat ≤ s.params.ibufSize
    omega
  · show headerLen (inputFrame (looped s)) + declaredLen (inputFrame (looped s)) ≤ _
    omega

end Looped

/-- Settles O40: byte 0 of the emitted frame is FIN with the text opcode, byte 1 its length without MASK,
and no lane of the absent key changes the payload. -/
theorem encodeThenDecodeGivesThePayloadBack : Obligations.EncodeThenDecodeGivesThePayloadBack := by
  intro s t u hlegal hlen ht hu
  rw [exec_encode_of_le hlen] at ht
  cases ht
  obtain rfl : u = looped s := hu
  obtain ⟨hhead, hdecl, hkey⟩ := layout_looped hlen
  obtain ⟨v, hv, hdec⟩ := exec_decode_looped hlen hlegal
  have hreported : v.frame.extractLsb' 0 8 = frameByte0 true 0 1 :=
    hdec.byte0.trans (inputFrame_looped_zero hlen)
  refine ⟨v, hv, hdec.succeeded, fun i hi => ?_, ?_, ?_, ?_, ?_,
    BitVec.eq_of_toNat_eq (hdec.plen.trans hdecl), BitVec.eq_of_toNat_eq (hdec.olen.trans hdecl), ?_⟩
  · rw [hdec.payload i (hi.trans_eq hdecl.symm), hhead, hkey, inputFrame_looped_payload hlen hi]
    exact BitVec.xor_zero
  · rw [frameFin_eq, hreported]
    exact finOf_frameByte0 true 0 1
  · rw [frameOpcode_eq, hreported]
    exact opcodeOf_frameByte0 true 0 1
  · rw [frameRsv_eq, hreported]
    exact rsvOf_frameByte0 true 0 1
  · rw [hdec.mask, inputFrame_looped_one hlen, maskOf_frameByte1]
  · rw [hdec.consumed, hhead, hdecl, Nat.add_comm]

end Sys2Proof.Machine
end

section
/-! PROOF. The validator's byte strings (42_header_validator.md R171 to R175): folding, trimming, `contains`,
decimal strings and the lookup of a header by name. -/

namespace Sys2Proof.Machine

/-! ### Folding (R171) -/

/-- `foldByte` over byte values: adding 0x20 to a capital does not wrap. -/
theorem foldByte_eq (b : Byte) :
    foldByte b =
      if 0x41 ≤ b.toNat ∧ b.toNat ≤ 0x5A then BitVec.ofNat 8 (b.toNat + 0x20) else b := by
  rw [BitVec.ofNat_add, BitVec.ofNat_toNat, BitVec.setWidth_eq]
  rfl

/-- Settles O41: `fold` maps `foldByte` over the positions. -/
theorem foldingLowersAsciiCapitalsOnly : Obligations.FoldingLowersAsciiCapitalsOnly := by
  refine fun bs => ⟨List.length_map _, fun i hi => ?_⟩
  rw [fold, List.getElem?_map, List.getElem?_eq_getElem hi, Option.map_some, foldByte_eq]

/-! ### Trimming (R172) -/

theorem isSpace_iff (b : Byte) :
    isSpace b = true ↔ b.toNat ∈ [0x09, 0x0A, 0x0B, 0x0C, 0x0D, 0x20, 0xA0] := by
  simp [isSpace, BitVec.toNat_eq, or_assoc]

/-- `trimLeft` stops where the leading whitespace ends. -/
theorem trimLeft_append {pre u : List Byte} (hpre : ∀ b ∈ pre, isSpace b = true)
    (hu : ∀ b ∈ u.head?, isSpace b = false) : trimLeft (pre ++ u) = u := by
  induction pre with
  | nil =>
    cases u with
    | nil => rfl
    | cons b u =>
      have hb : isSpace b = false := hu b rfl
      simp [trimLeft, hb]
  | cons b pre ih =>
    obtain ⟨hb, hpre⟩ := List.forall_mem_cons.1 hpre
    rw [List.cons_append, trimLeft, if_pos hb, ih hpre]

/-- Whitespace alone trims to the empty string. -/
theorem trim_of_spaces {v : List Byte} (h : ∀ b ∈ v, isSpace b = true) : trim v = [] := by
  have hleft : trimLeft v = [] := by simpa using trimLeft_append (u := []) h (by simp)
  rw [trim, hleft]
  rfl

/-- What `TrimsTo` describes is what `trim` computes, so it is determined by the value. -/
theorem TrimsTo.trim_eq {v k : List Byte} (h : TrimsTo v k) : trim v = k := by
  obtain ⟨hne, pre, suf, rfl, hpre, hsuf, hfirst, hlast⟩ := h
  have hleft : trimLeft (pre ++ k ++ suf) = k ++ suf := by
    rw [List.append_assoc]
    exact trimLeft_append hpre (by rwa [List.head?_append_of_ne_nil k hne])
  have hright : trimLeft (suf.reverse ++ k.reverse) = k.reverse :=
    trimLeft_append (by simpa using hsuf) (by rwa [List.head?_reverse])
  rw [trim, hleft, List.reverse_append, hright, List.reverse_reverse]

/-- `trim` leaves nothing of whitespace alone, and else strips all whitespace at both ends. -/
theorem trim_spec (s : List Byte) :
    (trim s = [] ∧ ∀ b ∈ s, isSpace b = true) ∨ TrimsTo s (trim s) := by
  obtain ⟨pre, hs, hpre, hfirst⟩ := trimLeft_spec s
  obtain ⟨suf, hrev, hsuf, hlast⟩ := trimLeft_spec (trimLeft s).reverse
  have hleft : trimLeft s = trim s ++ suf.reverse := by
    rw [trim, ← List.reverse_append, ← hrev, List.reverse_reverse]
  have hsplit : s = pre ++ trim s ++ suf.reverse := by
    rw [List.append_assoc, ← hleft, ← hs]
  by_cases hne : trim s = []
  · refine .inl ⟨hne, fun b hb => ?_⟩
    rw [hsplit, hne] at hb
    rcases List.mem_append.1 hb with hb | hb
    · exact hpre b (by simpa using hb)
    · exact hsuf b (by simpa using hb)
  · refine .inr ⟨hne, pre, suf.reverse, hsplit, hpre, by simpa using hsuf, ?_, ?_⟩
    · rwa [hleft, List.head?_append_of_ne_nil _ hne] at hfirst
    · rwa [trim, List.getLast?_reverse]

/-- Settles O42: the set by its seven values, and the shape of a trimmed string. -/
theorem trimRemovesTheLongestEnds : Obligations.TrimRemovesTheLongestEnds :=
  ⟨isSpace_iff, trim_spec⟩

/-! ### `contains` (R173) -/

theorem startsWith_iff_prefix (s t : List Byte) : startsWith s t = true ↔ t <+: s :=
  (startsWith_iff s t).trans (exists_congr fun _ => eq_comm)

theorem contains_iff_infix (s t : List Byte) : contains s t = true ↔ t <:+: s := by
  induction s with
  | nil => rw [contains, startsWith_iff_prefix, List.prefix_nil, List.infix_nil]
  | cons b s ih =>
    rw [contains, Bool.or_eq_true, startsWith_iff_prefix, ih, List.infix_cons_iff]

/-- `contains` as the handshake checks state it. -/
theorem contains_iff_append (s t : List Byte) : contains s t = true ↔ ∃ u v, s = u ++ t ++ v :=
  (contains_iff_infix s t).trans (exists_congr fun _ => exists_congr fun _ => eq_comm)

/-- Settles O43: `u ++ t ++ v` has `t` at index `|u|`, and a slice of `s` stands in it. -/
theorem containsIsSubstring : Obligations.ContainsIsSubstring := by
  intro s t
  constructor
  · intro h
    obtain ⟨u, v, rfl⟩ := (contains_iff_append s t).1 h
    exact ⟨u.length, by simp, by simp⟩
  · rintro ⟨i, -, h⟩
    refine (contains_iff_infix s t).2 ?_
    rw [← h]
    exact (List.take_prefix _ _).isInfix.trans (List.drop_suffix _ _).isInfix

/-! ### Decimal strings (R174) -/

/-- The number that a string of ASCII digits reads as. -/
def decimalValue (ds : List Byte) : Nat := ds.foldl (fun n b => 10 * n + (b.toNat - 0x30)) 0

/-- `ds` is the decimal string of `n`: ASCII digits that read as `n`, with no leading zero. -/
structure IsDecimal (ds : List Byte) (n : Nat) : Prop where
  digits : ∀ b ∈ ds, 0x30 ≤ b.toNat ∧ b.toNat ≤ 0x39
  value : decimalValue ds = n
  nonempty : ds ≠ []
  leadingZero : ds.head? = some 0x30 → n = 0 ∧ ds.length = 1

theorem digit_toNat {d : Nat} (h : d < 10) : (BitVec.ofNat 8 (0x30 + d)).toNat = 0x30 + d :=
  (BitVec.toNat_ofNat _ _).trans (Nat.mod_eq_of_lt (by omega))

theorem isDecimal_digit {d : Nat} (h : d < 10) : IsDecimal [BitVec.ofNat 8 (0x30 + d)] d where
  digits := by
    intro b hb
    rw [List.mem_singleton.1 hb, digit_toNat h]
    omega
  value := by
    simp only [decimalValue, List.foldl, digit_toNat h]
    omega
  nonempty := by simp
  leadingZero := by
    intro hb
    have hzero := congrArg BitVec.toNat (Option.some.inj hb)
    rw [digit_toNat h, show (0x30 : Byte).toNat = 0x30 from rfl] at hzero
    exact ⟨by omega, rfl⟩

/-- A number of two digits or more: the string of its tens, then its last digit. -/
theorem IsDecimal.append_digit {ds : List Byte} {n : Nat} (hn : 10 ≤ n) (h : IsDecimal ds (n / 10)) :
    IsDecimal (ds ++ [BitVec.ofNat 8 (0x30 + n % 10)]) n where
  digits := by
    intro b hb
    rcases List.mem_append.1 hb with hb | hb
    · exact h.digits b hb
    · exact (isDecimal_digit (Nat.mod_lt n (by decide))).digits b hb
  value := by
    have hvalue := h.value
    simp only [decimalValue, List.foldl_append, List.foldl_cons, List.foldl_nil,
      digit_toNat (Nat.mod_lt n (by decide : 0 < 10))] at hvalue ⊢
    omega
  nonempty := by simp
  leadingZero := by
    intro hb
    rw [List.head?_append_of_ne_nil _ h.nonempty] at hb
    have hzero := (h.leadingZero hb).1
    omega

/-- With fuel for all its digits, `decDigits` puts the decimal string in front of what it is given. -/
theorem decDigits_isDecimal (fuel n : Nat) (acc : List Byte) (hn : n < 10 ^ (fuel + 1)) :
    ∃ ds, decDigits fuel n acc = ds ++ acc ∧ IsDecimal ds n ∧ ds.length ≤ fuel + 1 := by
  induction fuel generalizing n acc with
  | zero =>
    have hdigit : n % 10 = n := Nat.mod_eq_of_lt hn
    exact ⟨[BitVec.ofNat 8 (0x30 + n)], by rw [decDigits, hdigit]; rfl, isDecimal_digit hn, Nat.le_refl _⟩
  | succ fuel ih =>
    rw [decDigits]
    split
    · next hdigit => exact ⟨[BitVec.ofNat 8 (0x30 + n)], rfl, isDecimal_digit hdigit, by simp⟩
    · next hdigit =>
      obtain ⟨ds, hds, hdec, hlen⟩ := ih (n / 10) (BitVec.ofNat 8 (0x30 + n % 10) :: acc)
        (Nat.div_lt_of_lt_mul (by rwa [Nat.pow_succ'] at hn))
      exact ⟨ds ++ [BitVec.ofNat 8 (0x30 + n % 10)], by simp [hds],
        hdec.append_digit (Nat.le_of_not_lt hdigit), by simpa using hlen⟩

/-- Five digits are enough for 16 bits. -/
theorem dec_isDecimal (v : BitVec 16) : IsDecimal (dec v) v.toNat ∧ (dec v).length ≤ 5 := by
  obtain ⟨ds, hds, hdec, hlen⟩ := decDigits_isDecimal 4 v.toNat [] (by omega)
  rw [List.append_nil] at hds
  rw [dec, hds]
  exact ⟨hdec, hlen⟩

/-- Settles O44: `dec_isDecimal`, and the rule's four examples by evaluation. -/
theorem decimalStringIsExact : Obligations.DecimalStringIsExact := by
  refine ⟨fun v => ?_, by decide, by decide, by decide, by decide⟩
  obtain ⟨⟨hdigits, hvalue, hne, hzero⟩, hlen⟩ := dec_isDecimal v
  refine ⟨hdigits, hvalue, fun htwo hhead => ?_, List.length_pos_iff.2 hne, hlen⟩
  have hone := (hzero hhead).2
  omega

/-! ### Lookup (R175) -/

/-- Names are compared whole: the length test is implied by the comparison. -/
theorem nameIs_iff (s : State) (t : List Byte) (e : Nat) :
    nameIs s t e = true ↔ fold (headerName s e) = t := by
  have hlen : fold (headerName s e) = t → (hdrLens s e).nameLen.toNat = t.length := by
    rintro rfl
    simp [fold, headerName]
  simpa [nameIs] using hlen

theorem lookupHeader_eq_some_iff {s : State} {t : List Byte} {e : Nat} :
    lookupHeader s t = some e ↔ FirstNamed s t e := by
  simp only [lookupHeader, List.find?_range_eq_some, FirstNamed, nameIs_iff, List.mem_range,
    Bool.not_eq_true', ← Bool.not_eq_true, ne_eq]
  exact and_left_comm

theorem lookupHeader_eq_none_iff {s : State} {t : List Byte} :
    lookupHeader s t = none ↔ NoneNamed s t := by
  simp only [lookupHeader, List.find?_range_eq_none, NoneNamed, nameIs_iff,
    Bool.not_eq_true', ← Bool.not_eq_true, ne_eq]

/-- Settles O45: each answer of the search, characterised. -/
theorem lookupFindsTheLowestEntry : Obligations.LookupFindsTheLowestEntry :=
  fun _ _ => ⟨fun _ => lookupHeader_eq_some_iff, lookupHeader_eq_none_iff⟩

end Sys2Proof.Machine
end

section
/-! PROOF. VALIDATE (42_header_validator.md R180 to R187): its length checks, its four handshake checks by
their outcomes, and what a success and a failure leave. -/

namespace Sys2Proof.Machine

/-! ### What VALIDATE leaves -/

theorem not_runsParser_validate : ¬ RunsParser .validate := by simp [RunsParser, spaceOf]

/-- A check that fails leaves KEYLEN = 0 and nothing else but its record (R180, R236). -/
theorem validateFails_of_error {s : State} {err : CmdError} (h : validateTable s = .error err) :
    ValidateFails s (errorCode err.kind) err.detail err.index := by
  have ht : exec .validate s = .next (raise err { s with keylen := 0 }) := by
    rw [exec_validate, h, complete_error]
  obtain ⟨hcontrol, hframe, -, holen⟩ := exec_keepsRegs ht
  exact ⟨_, ht, failed_raise _ _, hcontrol, hframe not_runsParser_validate, holen (.inl rfl),
    memByte_congr rfl rfl, rfl⟩

/-! ### The length checks (R181) -/

/-- The first `some` of a search over entry numbers. -/
theorem findSome?_range_of_first {α : Type} {f : Nat → Option α} {n e : Nat} {a : α} (he : e < n)
    (hfirst : ∀ e', e' < e → f e' = none) (ha : f e = some a) :
    (List.range n).findSome? f = some a := by
  obtain ⟨m, rfl⟩ := Nat.exists_eq_add_of_lt he
  have hbefore : (List.range e).findSome? f = none :=
    List.findSome?_eq_none_iff.2 fun e' he' => hfirst e' (List.mem_range.1 he')
  rw [Nat.add_assoc, List.range_add, List.findSome?_append, hbefore, List.range_succ_eq_map]
  simp [ha]

theorem preCheck_of_count {s : State} (h : s.params.hdrN < s.hdrCount.toNat) :
    preCheck s = .error ⟨.lengthOutOfRange, 3, 0⟩ := if_pos h

section FirstBadLength
variable {s : State} {e : Nat}

theorem preCheckEntry_of_fits (hname : (hdrLens s e).nameLen.toNat ≤ s.params.hnameMax)
    (hvalue : (hdrLens s e).valueLen.toNat ≤ s.params.hvalMax) : preCheckEntry s e = none := by
  rw [preCheckEntry, if_neg (Nat.not_lt.2 hname), if_neg (Nat.not_lt.2 hvalue)]

theorem preCheckEntry_of_name (hname : s.params.hnameMax < (hdrLens s e).nameLen.toNat) :
    preCheckEntry s e = some ⟨.lengthOutOfRange, 4, entryIndex e⟩ := if_pos hname

theorem preCheckEntry_of_value (hname : (hdrLens s e).nameLen.toNat ≤ s.params.hnameMax)
    (hvalue : s.params.hvalMax < (hdrLens s e).valueLen.toNat) :
    preCheckEntry s e = some ⟨.lengthOutOfRange, 5, entryIndex e⟩ := by
  rw [preCheckEntry, if_neg (Nat.not_lt.2 hname), if_pos hvalue]

/-- The first entry with a length out of range is the one reported. -/
theorem preCheck_of_entry {err : CmdError} (hcount : s.hdrCount.toNat ≤ s.params.hdrN)
    (he : e < s.hdrCount.toNat)
    (hfirst : ∀ e', e' < e → (hdrLens s e').nameLen.toNat ≤ s.params.hnameMax ∧
      (hdrLens s e').valueLen.toNat ≤ s.params.hvalMax)
    (hentry : preCheckEntry s e = some err) : preCheck s = .error err := by
  have hsome := findSome?_range_of_first he
    (fun e' he' => preCheckEntry_of_fits (hfirst e' he').1 (hfirst e' he').2) hentry
  rw [preCheck, if_neg (Nat.not_lt.2 hcount), hsome]

end FirstBadLength

/-- PreCheck's error is VALIDATE's. -/
theorem validateTable_of_preCheck {s : State} {err : CmdError} (h : preCheck s = .error err) :
    validateTable s = .error err := by
  rw [validateTable, h]
  rfl

/-- Settles O48: PreCheck's first failure, count before entries and name before value. -/
theorem preCheckRaisesTheFirstBadLength : Obligations.PreCheckRaisesTheFirstBadLength := by
  refine fun s => ⟨fun hcount => ?_,
    fun e hcount he hfirst => ⟨fun hname => ?_, fun hname hvalue => ?_⟩⟩
  · exact validateFails_of_error (validateTable_of_preCheck (preCheck_of_count hcount))
  · exact validateFails_of_error (validateTable_of_preCheck
      (preCheck_of_entry hcount he hfirst (preCheckEntry_of_name hname)))
  · exact validateFails_of_error (validateTable_of_preCheck
      (preCheck_of_entry hcount he hfirst (preCheckEntry_of_value hname hvalue)))

/-! ### One handshake check (R182 to R186)

Each check takes the lowest entry of one name and tests its value: it ends as an absent header, as an invalid
value, or with what follows the test. -/

section Check
variable {s : State} {t : List Byte} {e : Nat} {α : Type}

theorem requireHeader_absent (h : NoneNamed s t) (kind : ErrKind) (f : Nat → Except CmdError α) :
    (requireHeader s t kind >>= f) = .error ⟨kind, 0, 0xFF⟩ := by
  rw [requireHeader, lookupHeader_eq_none_iff.2 h]
  rfl

theorem requireHeader_found (h : FirstNamed s t e) (kind : ErrKind) (f : Nat → Except CmdError α) :
    (requireHeader s t kind >>= f) = f e := by
  rw [requireHeader, lookupHeader_eq_some_iff.2 h]
  rfl

theorem requireValue_of_true {ok : Bool} (h : ok = true) (kind : ErrKind) (e : Nat) :
    requireValue ok kind e = .ok () := if_pos h

theorem requireValue_of_not {ok : Bool} (h : ¬ ok = true) (kind : ErrKind) (e : Nat) :
    requireValue ok kind e = .error ⟨kind, 1, entryIndex e⟩ := if_neg h

theorem checkUpgrade_passes (h : UpgradePasses s) : checkUpgrade s = .ok () := by
  obtain ⟨e, he, hv⟩ := h
  exact (requireHeader_found he _ _).trans (requireValue_of_true (beq_iff_eq.2 hv) _ _)

theorem checkUpgrade_invalid (he : FirstNamed s strUpgrade e)
    (hv : fold (headerValue s e) ≠ strWebsocket) :
    checkUpgrade s = .error ⟨.missingOrInvalidUpgrade, 1, entryIndex e⟩ :=
  (requireHeader_found he _ _).trans (requireValue_of_not (mt beq_iff_eq.1 hv) _ _)

theorem checkConnection_passes (h : ConnectionPasses s) : checkConnection s = .ok () := by
  obtain ⟨e, he, hv⟩ := h
  exact (requireHeader_found he _ _).trans
    (requireValue_of_true ((contains_iff_append _ _).2 hv) _ _)

theorem checkConnection_invalid (he : FirstNamed s strConnection e)
    (hv : ¬ ∃ u v, fold (headerValue s e) = u ++ strUpgrade ++ v) :
    checkConnection s = .error ⟨.missingOrInvalidConnection, 1, entryIndex e⟩ :=
  (requireHeader_found he _ _).trans
    (requireValue_of_not (mt (contains_iff_append _ _).1 hv) _ _)

theorem checkVersion_passes (h : VersionPasses s) : checkVersion s = .ok () := by
  obtain ⟨e, he, hv⟩ := h
  exact (requireHeader_found he _ _).trans (requireValue_of_true (beq_iff_eq.2 hv) _ _)

theorem checkVersion_invalid (he : FirstNamed s strVersion e) (hv : headerValue s e ≠ dec s.cfgVersion) :
    checkVersion s = .error ⟨.unsupportedVersion, 1, entryIndex e⟩ :=
  (requireHeader_found he _ _).trans (requireValue_of_not (mt beq_iff_eq.1 hv) _ _)

theorem checkKey_passes {k : List Byte} (he : FirstNamed s strKey e) (hk : TrimsTo (headerValue s e) k) :
    checkKey s = .ok k := by
  have hne : (!k.isEmpty) = true := by simpa using hk.1
  refine (requireHeader_found he _ _).trans ?_
  rw [hk.trim_eq, requireValue_of_true hne]
  rfl

theorem checkKey_invalid (he : FirstNamed s strKey e) (hv : ∀ b ∈ headerValue s e, isSpace b = true) :
    checkKey s = .error ⟨.missingOrInvalidKey, 1, entryIndex e⟩ := by
  refine (requireHeader_found he _ _).trans ?_
  rw [trim_of_spaces hv]
  rfl

end Check

/-! ### The checks in their order (R180, R187)

With every earlier check passed, VALIDATE ends as what is left of its checks. -/

section Order
variable {s : State} (hfits : TableFits s)
include hfits

theorem validateTable_of_fits :
    validateTable s = (do checkUpgrade s; checkConnection s; checkVersion s; checkKey s) := by
  rw [validateTable, (preCheck_ok_iff s).2 hfits]
  rfl

variable (hupgrade : UpgradePasses s)
include hupgrade

theorem validateTable_of_upgrade :
    validateTable s = (do checkConnection s; checkVersion s; checkKey s) := by
  rw [validateTable_of_fits hfits, checkUpgrade_passes hupgrade]
  rfl

variable (hconnection : ConnectionPasses s)
include hconnection

theorem validateTable_of_connection : validateTable s = (do checkVersion s; checkKey s) := by
  rw [validateTable_of_upgrade hfits hupgrade, checkConnection_passes hconnection]
  rfl

theorem validateTable_of_version (hversion : VersionPasses s) : validateTable s = checkKey s := by
  rw [validateTable_of_connection hfits hupgrade hconnection, checkVersion_passes hversion]
  rfl

end Order

/-- A check that comes next and fails ends VALIDATE: whatever would follow is not run (R187). -/
theorem validateFails_of_check {α : Type} {s : State} {check : Except CmdError α}
    {rest : α → Except CmdError (List Byte)} {err : CmdError}
    (hnext : validateTable s = check >>= rest) (h : check = .error err) :
    ValidateFails s (errorCode err.kind) err.detail err.index := by
  refine validateFails_of_error ?_
  rw [hnext, h]
  rfl

/-- Settles O47: each check, reached with the earlier ones passed, fails as absent or as invalid. -/
theorem validateRaisesTheFirstFailedCheck : Obligations.ValidateRaisesTheFirstFailedCheck := by
  intro s hfits
  refine ⟨fun habsent => ?_, fun e he hv => ?_, fun hu habsent => ?_, fun e hu he hv => ?_,
    fun hu hc habsent => ?_, fun e hu hc he hv => ?_, fun hu hc hver habsent => ?_,
    fun e hu hc hver he hv => ?_⟩
  · exact validateFails_of_check (validateTable_of_fits hfits) (requireHeader_absent habsent _ _)
  · exact validateFails_of_check (validateTable_of_fits hfits) (checkUpgrade_invalid he hv)
  · exact validateFails_of_check (validateTable_of_upgrade hfits hu) (requireHeader_absent habsent _ _)
  · exact validateFails_of_check (validateTable_of_upgrade hfits hu) (checkConnection_invalid he hv)
  · exact validateFails_of_check (validateTable_of_connection hfits hu hc)
      (requireHeader_absent habsent _ _)
  · exact validateFails_of_check (validateTable_of_connection hfits hu hc) (checkVersion_invalid he hv)
  · exact validateFails_of_error ((validateTable_of_version hfits hu hc hver).trans
      (requireHeader_absent habsent _ _))
  · exact validateFails_of_error ((validateTable_of_version hfits hu hc hver).trans
      (checkKey_invalid he hv))

/-! ### Success -/

/-- Settles O46: every check passes with the trimmed key, which VALIDATE writes to KEYBUF. -/
theorem validateAcceptsAndWritesTheKey : Obligations.ValidateAcceptsAndWritesTheKey := by
  refine ⟨rfl, rfl, rfl, rfl, rfl, fun s e k _ hfits hupgrade hconnection hversion he hk => ?_⟩
  have hok : validateTable s = .ok k :=
    (validateTable_of_version hfits hupgrade hconnection hversion).trans (checkKey_passes he hk)
  have ht : exec .validate s = .next (succeed (validated s k)) := by
    rw [exec_validate, hok, complete_ok]
  have hkeylen : (succeed (validated s k)).keylen.toNat = k.length := validated_keylen hok
  have hkeybuf : bufBytes (succeed (validated s k)) .keybuf k.length = k :=
    bufBytes_written (s := s) rfl
  obtain ⟨hcontrol, hframe, -, holen⟩ := exec_keepsRegs ht
  exact ⟨_, ht, succeeded_succeed _, hcontrol, hframe not_runsParser_validate, holen (.inl rfl), hkeylen,
    hkeylen ▸ hkeybuf, fun a ha => memByte_write_outside (s := s) rfl rfl ha⟩

end Sys2Proof.Machine
end

section
/-! PROOF. SHA-1 (43_sha1_accept.md R200 to R204): padding, blocks, schedule, rounds and digest. -/

namespace Sys2Proof.Machine

/-! ### Padding (R201) -/

/-- The padding zeros are the least number that brings `M ++ [0x80]` to 56 modulo 64. -/
theorem padZeros_least (n : Nat) :
    (n + 1 + padZeros n) % 64 = 56 ∧ ∀ z, (n + 1 + z) % 64 = 56 → padZeros n ≤ z := by
  unfold padZeros
  exact ⟨by omega, fun z hz => by omega⟩

theorem padMessage_length_mod (m : List Byte) : (padMessage m).length % 64 = 0 := by
  have h := (padZeros_least m.length).1
  rw [padMessage_length]
  omega

/-- The padded length in whole blocks. -/
theorem padMessage_blocks (m : List Byte) :
    64 * ((padMessage m).length / 64) = (padMessage m).length :=
  Nat.mul_div_cancel' (Nat.dvd_of_mod_eq_zero (padMessage_length_mod m))

/-- BE64 encodes a 64-bit number: its bytes' big-endian value is the number. -/
theorem be64Bytes_value {n : Nat} (h : n < 2 ^ 64) :
    (be64Bytes n).foldl (fun k b => 256 * k + b.toNat) 0 = n := by
  simp only [be64Bytes, List.map_cons, List.map_nil, List.foldl_cons, List.foldl_nil,
    BitVec.toNat_ofNat]
  omega

/-- Settles O49: `z` is `padZeros`, the last 8 bytes are BE64 of the bit length. -/
theorem paddingFillsTheLastBlock : Obligations.PaddingFillsTheLastBlock := by
  intro m
  obtain ⟨hfills, hleast⟩ := padZeros_least m.length
  exact ⟨padZeros m.length, hfills, hleast, padMessage_length_mod m,
    fun hlen => ⟨be64Bytes (8 * m.length), rfl, be64Bytes_value hlen, rfl⟩⟩

/-! ### Blocks (R200) -/

theorem blocksOf_flatten (n : Nat) (p : List Byte) : (blocksOf n p).flatten = p.take (64 * n) := by
  induction n generalizing p with
  | zero => rfl
  | succ n ih => rw [blocksOf, List.flatten_cons, ih, Nat.mul_succ, Nat.add_comm, List.take_add]

theorem length_of_mem_blocksOf {n : Nat} {p b : List Byte} (hp : 64 * n ≤ p.length)
    (hb : b ∈ blocksOf n p) : b.length = 64 := by
  induction n generalizing p with
  | zero => simp [blocksOf] at hb
  | succ n ih =>
    rcases List.mem_cons.1 hb with rfl | hb
    · rw [List.length_take]
      omega
    · exact ih (by rw [List.length_drop]; omega) hb

/-- The blocks, taken from the end: one more block is the next 64 bytes. -/
theorem blocksOf_succ (n : Nat) (p : List Byte) :
    blocksOf (n + 1) p = blocksOf n p ++ [(p.drop (64 * n)).take 64] := by
  induction n generalizing p with
  | zero => rfl
  | succ n ih =>
    rw [blocksOf, ih, blocksOf, List.cons_append, List.drop_drop, Nat.mul_succ, Nat.add_comm 64]

/-- Settles O51: the first `n` blocks are the first `64 n` bytes, and the padded message is whole blocks. -/
theorem blocksAreThePaddedMessage : Obligations.BlocksAreThePaddedMessage := by
  intro m
  refine ⟨?_, fun b hb => length_of_mem_blocksOf (padMessage_blocks m).le hb⟩
  rw [blocksOf_flatten, padMessage_blocks, List.take_length]

/-! ### The round functions (R203) -/

theorem rotl32_eq_rotateLeft (x : Word) {r : Nat} (h : r < 32) : rotl32 x r = x.rotateLeft r := by
  rw [rotl32, BitVec.rotateLeft_def, Nat.mod_eq_of_lt h]

/-- `f` chooses, takes the majority or the parity, bit by bit. -/
theorem roundF_getLsbD (t : Nat) {n : Nat} (b c d : Word) (hn : n < 32) :
    (roundF t b c d).getLsbD n =
      if t ≤ 19 then (if b.getLsbD n then c.getLsbD n else d.getLsbD n)
      else if 40 ≤ t ∧ t ≤ 59 then
        decide (2 ≤ (b.getLsbD n).toNat + (c.getLsbD n).toNat + (d.getLsbD n).toNat)
      else (b.getLsbD n ^^ c.getLsbD n ^^ d.getLsbD n) := by
  unfold roundF
  split
  case isTrue =>
    simp only [BitVec.getLsbD_or, BitVec.getLsbD_and, BitVec.getLsbD_not, hn, decide_true]
    cases b.getLsbD n <;> simp
  split
  case isTrue => rw [if_neg (by omega), BitVec.getLsbD_xor, BitVec.getLsbD_xor]
  split
  case isTrue =>
    rw [if_pos (by omega)]
    simp only [BitVec.getLsbD_or, BitVec.getLsbD_and]
    cases b.getLsbD n <;> cases c.getLsbD n <;> cases d.getLsbD n <;> rfl
  case isFalse => rw [if_neg (by omega), BitVec.getLsbD_xor, BitVec.getLsbD_xor]

/-- Settles O52: `f` by `roundF_getLsbD`, the rotation as the library's, `k` by its ranges. -/
theorem roundFunctionsBitByBit : Obligations.RoundFunctionsBitByBit := by
  refine ⟨fun t n b c d hn => roundF_getLsbD t b c d hn,
    fun x r _ hr => rotl32_eq_rotateLeft x (Nat.lt_succ_of_le hr), fun t h => ?_, fun t h h' => ?_,
    fun t h h' => ?_, fun t h h' => ?_⟩ <;> unfold roundK
  · rw [if_pos h]
  · rw [if_neg (by omega), if_pos h']
  · rw [if_neg (by omega), if_neg (by omega), if_pos h']
  · rw [if_neg (by omega), if_neg (by omega), if_neg (by omega)]

/-! ### The message schedule (R202) -/

theorem blockWords_length (n : Nat) (b : List Byte) : (blockWords n b).length = n := by
  induction n generalizing b with
  | zero => rfl
  | succ n ih => rw [blockWords, List.length_cons, ih]

theorem be32_drop (k : Nat) (b : List Byte) :
    be32 (b.drop k) = b.getD k 0 ++ b.getD (k + 1) 0 ++ b.getD (k + 2) 0 ++ b.getD (k + 3) 0 := by
  simp only [be32, List.getD_eq_getElem?_getD, List.getElem?_drop, Nat.add_zero]

theorem blockWords_getD {n t : Nat} (ht : t < n) (b : List Byte) :
    (blockWords n b).getD t 0 = be32 (b.drop (4 * t)) := by
  induction n generalizing t b with
  | zero => omega
  | succ n ih =>
    cases t with
    | zero => rfl
    | succ t =>
      rw [blockWords, List.getD_cons_succ, ih (by omega), List.drop_drop, Nat.mul_succ, Nat.add_comm 4]

/-- `W[t]` by the recurrence, from a schedule `w`. -/
def recurrence (w : List Word) (t : Nat) : Word :=
  (w.getD (t - 3) 0 ^^^ w.getD (t - 8) 0 ^^^ w.getD (t - 14) 0 ^^^ w.getD (t - 16) 0).rotateLeft 1

theorem nextWord_eq_recurrence (w : List Word) : nextWord w = recurrence w w.length :=
  rotl32_eq_rotateLeft _ (by decide)

theorem getD_of_prefix {u w : List Word} (h : u <+: w) {t : Nat} (ht : t < u.length) :
    w.getD t 0 = u.getD t 0 := by
  obtain ⟨v, rfl⟩ := h
  exact List.getD_append u v 0 t ht

/-- The recurrence reads earlier words only. -/
theorem recurrence_of_prefix {u w : List Word} (h : u <+: w) {t : Nat} (hpos : 0 < t)
    (ht : t ≤ u.length) : recurrence w t = recurrence u t := by
  simp only [recurrence]
  repeat rw [getD_of_prefix h (by omega)]

theorem extendSchedule_length (n : Nat) (w : List Word) :
    (extendSchedule n w).length = w.length + n := by
  induction n generalizing w with
  | zero => rfl
  | succ n ih => rw [extendSchedule, ih, List.length_append, List.length_singleton, Nat.add_right_comm,
      Nat.add_assoc]

theorem prefix_extendSchedule (n : Nat) (w : List Word) : w <+: extendSchedule n w := by
  induction n generalizing w with
  | zero => exact List.prefix_rfl
  | succ n ih => exact (List.prefix_append w _).trans (ih _)

/-- Every word added obeys the recurrence. -/
theorem extendSchedule_getD (n : Nat) {w : List Word} {t : Nat} (hpos : 0 < w.length)
    (hold : w.length ≤ t) (hnew : t < w.length + n) :
    (extendSchedule n w).getD t 0 = recurrence (extendSchedule n w) t := by
  induction n generalizing w with
  | zero => omega
  | succ n ih =>
    have hlen : (w ++ [nextWord w]).length = w.length + 1 := by simp
    rw [extendSchedule]
    rcases hold.eq_or_lt with rfl | hlt
    · have hpre := prefix_extendSchedule n (w ++ [nextWord w])
      rw [getD_of_prefix hpre (by omega), recurrence_of_prefix ((List.prefix_append _ _).trans hpre) hpos
        le_rfl, ← nextWord_eq_recurrence]
      simp
    · exact ih (by omega) (by omega) (by omega)

@[simp] theorem schedule_length (b : List Byte) : (schedule b).length = 80 := by
  rw [schedule, extendSchedule_length, blockWords_length]

/-- Settles O50: the block's words begin the schedule, the others obey the recurrence. -/
theorem scheduleFollowsTheRecurrence : Obligations.ScheduleFollowsTheRecurrence := by
  intro b _
  have hwords := blockWords_length 16 b
  refine ⟨schedule_length b, fun t ht => ?_, fun t hold hnew => ?_⟩
  · rw [schedule, getD_of_prefix (prefix_extendSchedule 64 _) (by omega), blockWords_getD ht, be32_drop]
  · exact extendSchedule_getD 64 (by omega) (by omega) (by omega)

/-! ### Rounds, chaining values and the digest (R203, R204) -/

theorem shaStep_shaRound (t : Nat) (w : Word) (v : Chain) : ShaStep t w v (shaRound t w v) where
  a := by rw [← rotl32_eq_rotateLeft _ (by decide)]; rfl
  b := rfl
  c := rotl32_eq_rotateLeft _ (by decide)
  d := rfl
  e := rfl

theorem shaRounds_append (t : Nat) (ws : List Word) (w : Word) (v : Chain) :
    shaRounds t (ws ++ [w]) v = shaRound (t + ws.length) w (shaRounds t ws v) := by
  induction ws generalizing t v with
  | nil => rfl
  | cons x ws ih => rw [List.cons_append, shaRounds, ih, shaRounds, List.length_cons, Nat.add_right_comm,
      Nat.add_assoc]

/-- The working variables after the first `t` rounds. -/
def roundsBefore (ws : List Word) (h : Chain) (t : Nat) : Chain := shaRounds 0 (ws.take t) h

theorem shaStep_roundsBefore {ws : List Word} {t : Nat} (h : Chain) (ht : t < ws.length) :
    ShaStep t (ws.getD t 0) (roundsBefore ws h t) (roundsBefore ws h (t + 1)) := by
  have hnext : roundsBefore ws h (t + 1) = shaRound t (ws.getD t 0) (roundsBefore ws h t) := by
    rw [roundsBefore, List.take_succ_eq_append_getElem ht, shaRounds_append, List.length_take_of_le ht.le,
      Nat.zero_add, List.getD_eq_getElem _ _ ht, roundsBefore]
  exact hnext ▸ shaStep_shaRound _ _ _

theorem shaBlock_compress (h : Chain) (b : List Byte) : ShaBlock (schedule b) h (compress h b) := by
  have hall : roundsBefore (schedule b) h 80 = shaRounds 0 (schedule b) h := by
    rw [roundsBefore, List.take_of_length_le (schedule_length b).le]
  refine ⟨roundsBefore (schedule b) h, rfl, fun t ht => shaStep_roundsBefore h (by simpa using ht), ?_⟩
  rw [hall]
  exact ⟨rfl, rfl, rfl, rfl, rfl⟩

/-- The chaining value after the first `j` blocks of a padded message. -/
def chainAfter (p : List Byte) (j : Nat) : Chain := (blocksOf j p).foldl compress shaInit

theorem chainAfter_succ (p : List Byte) (j : Nat) :
    chainAfter p (j + 1) = compress (chainAfter p j) ((p.drop (64 * j)).take 64) := by
  rw [chainAfter, blocksOf_succ, List.foldl_append]
  rfl

theorem sha1_eq_digestBytes {m : List Byte} {n : Nat} (h : 64 * n = (padMessage m).length) :
    sha1 m = digestBytes (chainAfter (padMessage m) n) := by
  rw [sha1, ← h, Nat.mul_div_cancel_left n (by decide), chainAfter]

theorem digestBytes_getElem? (h : Chain) {j : Nat} (hj : j < 4) :
    (digestBytes h)[j]? = some (h.a.extractLsb' (24 - 8 * j) 8) ∧
    (digestBytes h)[4 + j]? = some (h.b.extractLsb' (24 - 8 * j) 8) ∧
    (digestBytes h)[8 + j]? = some (h.c.extractLsb' (24 - 8 * j) 8) ∧
    (digestBytes h)[12 + j]? = some (h.d.extractLsb' (24 - 8 * j) 8) ∧
    (digestBytes h)[16 + j]? = some (h.e.extractLsb' (24 - 8 * j) 8) := by
  interval_cases j <;> exact ⟨rfl, rfl, rfl, rfl, rfl⟩

/-- Settles O53: the chaining values are `chainAfter`, each the compression of the one before. -/
theorem sha1FollowsTheRounds : Obligations.Sha1FollowsTheRounds := by
  intro m
  refine ⟨chainAfter (padMessage m), rfl, fun j _ => ?_, sha1_length m, fun n j hn hj => ?_⟩
  · rw [chainAfter_succ]
    exact shaBlock_compress _ _
  · rw [sha1_eq_digestBytes hn]
    exact digestBytes_getElem? _ hj

end Sys2Proof.Machine
end

section
/-! PROOF. Base64 (43_sha1_accept.md R205, R206): the alphabet, the text group by group, the padding, and a
decoder that inverts it. -/

namespace Sys2Proof.Machine

/-! ### The alphabet (R205) -/

/-- The alphabet's five ranges, value by value. -/
theorem base64Char_ranges (v : BitVec 6) :
    (v.toNat ≤ 25 → (base64Char v).toNat = 0x41 + v.toNat) ∧
    (26 ≤ v.toNat → v.toNat ≤ 51 → (base64Char v).toNat = 0x61 + (v.toNat - 26)) ∧
    (52 ≤ v.toNat → v.toNat ≤ 61 → (base64Char v).toNat = 0x30 + (v.toNat - 52)) ∧
    (v.toNat = 62 → base64Char v = 0x2B) ∧ (v.toNat = 63 → base64Char v = 0x2F) := by
  revert v
  decide

theorem base64Char_ne_pad (v : BitVec 6) : base64Char v ≠ 0x3D := by
  revert v
  decide

/-! ### The text, group by group (R206) -/

theorem group24_toNat (d0 d1 d2 : Byte) :
    (group24 d0 d1 d2).toNat = d0.toNat * 2 ^ 16 + d1.toNat * 2 ^ 8 + d2.toNat := by
  rw [group24, BitVec.toNat_append, BitVec.toNat_append,
    ← Nat.shiftLeft_add_eq_or_of_lt d1.isLt, ← Nat.shiftLeft_add_eq_or_of_lt d2.isLt,
    Nat.shiftLeft_eq, Nat.shiftLeft_eq]
  omega

theorem groupChars_getElem? (x : BitVec 24) {k : Nat} (hk : k < 4) :
    (groupChars x)[k]? = some (base64Char (BitVec.ofNat 6 (x.toNat / 2 ^ (18 - 6 * k)))) := by
  rw [← Nat.shiftRight_eq_div_pow]
  interval_cases k <;> rfl

/-- Whole groups before a position do not change the text after them. -/
theorem base64_drop (g : Nat) {d : List Byte} (h : 3 * g ≤ d.length) :
    (base64 d).drop (4 * g) = base64 (d.drop (3 * g)) := by
  induction g generalizing d with
  | zero => rfl
  | succ g ih =>
    match d, h with
    | d0 :: d1 :: d2 :: rest, h =>
      simp only [List.length_cons] at h
      exact ih (by omega)

/-- The text of group `g` is the text of what stands from byte `3g` on. -/
theorem base64_getElem? {d : List Byte} {g : Nat} (h : 3 * g ≤ d.length) (k : Nat) :
    (base64 d)[4 * g + k]? = (base64 (d.drop (3 * g)))[k]? := by
  rw [← base64_drop g h, List.getElem?_drop]

/-- The 24-bit value of group `g`, an absent byte read as 0. -/
def groupValue (d : List Byte) (g : Nat) : Nat :=
  (d.getD (3 * g) 0).toNat * 2 ^ 16 + (d.getD (3 * g + 1) 0).toNat * 2 ^ 8 +
    (d.getD (3 * g + 2) 0).toNat

theorem groupValue_drop (d : List Byte) (g : Nat) : groupValue (d.drop (3 * g)) 0 = groupValue d g := by
  simp only [groupValue, List.getD_eq_getElem?_getD, List.getElem?_drop, Nat.mul_zero, Nat.zero_add,
    Nat.add_zero]

/-- The first group's text: `b` bytes give characters `0` to `b` of their value. -/
theorem base64_char_zero {d : List Byte} {k : Nat} (hk : k < 4) (hpos : 0 < d.length)
    (hle : k ≤ d.length) :
    (base64 d)[k]? = some (base64Char (BitVec.ofNat 6 (groupValue d 0 / 2 ^ (18 - 6 * k)))) := by
  have hgroup := fun d0 d1 d2 => groupChars_getElem? (group24 d0 d1 d2) hk
  simp only [group24_toNat] at hgroup
  match d with
  | [d0] =>
    have hlt : k < 2 := by simpa [Nat.lt_succ_iff] using hle
    rw [base64, List.getElem?_append_left (by simpa using hlt), List.getElem?_take_of_lt hlt, hgroup]
    rfl
  | [d0, d1] =>
    have hlt : k < 3 := by simpa [Nat.lt_succ_iff] using hle
    rw [base64, List.getElem?_append_left (by simpa using hlt), List.getElem?_take_of_lt hlt, hgroup]
    rfl
  | d0 :: d1 :: d2 :: rest =>
    rw [base64, List.getElem?_append_left (by simpa using hk), hgroup]
    rfl

/-- The first group's padding: each character past `b` bytes' own is `=`. -/
theorem base64_pad_zero {d : List Byte} {k : Nat} (hk : k < 4) (hpos : 0 < d.length)
    (hlt : d.length < k) : (base64 d)[k]? = some 0x3D := by
  match d with
  | [d0] =>
    simp only [List.length_singleton] at hlt
    interval_cases k <;> rfl
  | [d0, d1] =>
    simp only [List.length_cons, List.length_nil] at hlt
    interval_cases k
    rfl
  | d0 :: d1 :: d2 :: rest =>
    simp only [List.length_cons] at hlt
    omega

section Group
variable {d : List Byte} {g k : Nat} (hk : k < 4) (hg : 3 * g < d.length)
include hk hg

theorem base64_char (hle : 3 * g + k ≤ d.length) :
    (base64 d)[4 * g + k]? =
      some (base64Char (BitVec.ofNat 6 (groupValue d g / 2 ^ (18 - 6 * k)))) := by
  rw [base64_getElem? hg.le, ← groupValue_drop]
  exact base64_char_zero hk (by rw [List.length_drop]; omega) (by rw [List.length_drop]; omega)

theorem base64_pad (hlt : d.length < 3 * g + k) : (base64 d)[4 * g + k]? = some 0x3D := by
  rw [base64_getElem? hg.le]
  exact base64_pad_zero hk (by rw [List.length_drop]; omega) (by rw [List.length_drop]; omega)

end Group

theorem getD_toNat_of_le {d : List Byte} {i : Nat} (h : d.length ≤ i) : (d.getD i 0).toNat = 0 :=
  congrArg BitVec.toNat (List.getD_eq_default _ _ h)

theorem groupValue_of_two {d : List Byte} {g : Nat} (h : d.length = 3 * g + 2) :
    groupValue d g =
      (d.getD (3 * g) 0).toNat * 2 ^ 16 + (d.getD (3 * g + 1) 0).toNat * 2 ^ 8 := by
  simp only [groupValue, getD_toNat_of_le h.le, Nat.add_zero]

theorem groupValue_of_one {d : List Byte} {g : Nat} (h : d.length = 3 * g + 1) :
    groupValue d g = (d.getD (3 * g) 0).toNat * 2 ^ 16 := by
  have hthird : d.length ≤ 3 * g + 2 := by omega
  simp only [groupValue, getD_toNat_of_le h.le, getD_toNat_of_le hthird, Nat.zero_mul, Nat.add_zero]

/-- Settles O56: the alphabet's ranges, and each group's characters and padding, with the absent bytes of a
last group counted as 0 in its value. -/
theorem base64TextByGroups : Obligations.Base64TextByGroups := by
  refine ⟨base64Char_ranges, fun d g n => ⟨base64_length d, fun hlen hn k hk => ?_, fun hlen hn => ?_,
    fun hlen hn => ?_⟩⟩
  · obtain rfl : n = groupValue d g := hn
    exact base64_char hk (by omega) (by omega)
  · obtain rfl : n = groupValue d g := hn.trans (groupValue_of_two hlen).symm
    exact ⟨fun k hk => base64_char (by omega) (by omega) (by omega),
      base64_pad (by decide) (by omega) (by omega)⟩
  · obtain rfl : n = groupValue d g := hn.trans (groupValue_of_one hlen).symm
    exact ⟨fun k hk => base64_char (by omega) (by omega) (by omega),
      base64_pad (by decide) (by omega) (by omega), base64_pad (by decide) (by omega) (by omega)⟩

/-! ### The token's text -/

/-- Settles O57: 20 bytes are six groups and a last one of two bytes. -/
theorem tokenTextEndsInOnePad : Obligations.TokenTextEndsInOnePad := by
  intro m
  have hlen := sha1_length m
  have htext : (base64 (sha1 m)).length = 28 := by rw [base64_length, hlen]
  have halphabet : ∀ c ∈ (base64 (sha1 m)).take 27, ∃ v, c = base64Char v := by
    intro c hc
    obtain ⟨i, hi, rfl⟩ := List.mem_take_iff_getElem.1 hc
    have hchar := base64_char (d := sha1 m) (g := i / 4) (k := i % 4) (by omega) (by omega) (by omega)
    rw [Nat.div_add_mod, List.getElem?_eq_getElem (by omega)] at hchar
    exact ⟨_, Option.some.inj hchar⟩
  have hpad : (base64 (sha1 m))[27]? = some 0x3D :=
    base64_pad (g := 6) (k := 3) (by decide) (by omega) (by omega)
  refine ⟨(base64 (sha1 m)).take 27, by simp [htext], halphabet, fun c hc => ?_, ?_⟩
  · obtain ⟨v, rfl⟩ := halphabet c hc
    exact base64Char_ne_pad v
  · calc base64 (sha1 m) = (base64 (sha1 m)).take (27 + 1) := (List.take_of_length_le htext.le).symm
      _ = (base64 (sha1 m)).take 27 ++ [0x3D] := by rw [List.take_add_one, hpad]; rfl

/-! ### A decoder

It inverts the text, so the text loses nothing. -/

/-- The value of an alphabet character (R205), 0 for `=`. -/
def base64Value (c : Byte) : Nat :=
  if c = 0x2B then 62
  else if c = 0x2F then 63
  else if c = 0x3D then 0
  else if c.toNat < 0x3A then c.toNat - 0x30 + 52
  else if c.toNat < 0x5B then c.toNat - 0x41
  else c.toNat - 0x61 + 26

theorem base64Value_base64Char (v : BitVec 6) : base64Value (base64Char v) = v.toNat := by
  revert v
  decide

/-- The value of four characters. -/
def textValue (c0 c1 c2 c3 : Byte) : Nat :=
  base64Value c0 * 2 ^ 18 + base64Value c1 * 2 ^ 12 + base64Value c2 * 2 ^ 6 + base64Value c3

/-- The three bytes of a 24-bit value. -/
def valueBytes (n : Nat) : List Byte :=
  [BitVec.ofNat 8 (n / 2 ^ 16), BitVec.ofNat 8 (n / 2 ^ 8), BitVec.ofNat 8 n]

/-- The bytes of a text: each group loses one byte for each `=`. -/
def base64Decode : List Byte → List Byte
  | c0 :: c1 :: c2 :: c3 :: rest =>
    (valueBytes (textValue c0 c1 c2 c3)).take (if c2 = 0x3D then 1 else if c3 = 0x3D then 2 else 3) ++
      base64Decode rest
  | _ => []

theorem valueBytes_group24 (d0 d1 d2 : Byte) : valueBytes (group24 d0 d1 d2).toNat = [d0, d1, d2] := by
  have h1 := d1.isLt
  have h2 := d2.isLt
  have hbyte : ∀ {n : Nat} {b : Byte}, n % 256 = b.toNat → BitVec.ofNat 8 n = b :=
    fun h => BitVec.eq_of_toNat_eq ((BitVec.toNat_ofNat _ _).trans h)
  rw [group24_toNat, valueBytes, hbyte (b := d0) (by omega), hbyte (b := d1) (by omega),
    hbyte (b := d2) (by omega)]

theorem base64Value_extract (x : BitVec 24) (i : Nat) :
    base64Value (base64Char (x.extractLsb' i 6)) = x.toNat / 2 ^ i % 2 ^ 6 := by
  rw [base64Value_base64Char, BitVec.extractLsb'_toNat, Nat.shiftRight_eq_div_pow]

/-- The four characters of a group have the group's value; a `=` may stand for six bits that are 0. -/
theorem textValue_groupChars {x : BitVec 24} {c2 c3 : Byte}
    (h2 : base64Value c2 = x.toNat / 2 ^ 6 % 2 ^ 6) (h3 : base64Value c3 = x.toNat / 2 ^ 0 % 2 ^ 6) :
    textValue (base64Char (x.extractLsb' 18 6)) (base64Char (x.extractLsb' 12 6)) c2 c3 = x.toNat := by
  rw [textValue, h2, h3, base64Value_extract, base64Value_extract]
  omega

/-- The six bits a first `=` stands for. -/
theorem base64Value_pad_two (d0 : Byte) :
    base64Value 0x3D = (group24 d0 0 0).toNat / 2 ^ 6 % 2 ^ 6 := by
  rw [group24_toNat, show base64Value 0x3D = 0 from rfl, show (0 : Byte).toNat = 0 from rfl]
  omega

/-- The six bits a last `=` stands for. -/
theorem base64Value_pad_one (d0 d1 : Byte) :
    base64Value 0x3D = (group24 d0 d1 0).toNat / 2 ^ 0 % 2 ^ 6 := by
  rw [group24_toNat, show base64Value 0x3D = 0 from rfl, show (0 : Byte).toNat = 0 from rfl]
  omega

/-- The decoder inverts the text group by group. -/
theorem base64Decode_base64 : ∀ d : List Byte, base64Decode (base64 d) = d
  | [] => rfl
  | [d0] => by
    have hvalue := textValue_groupChars (base64Value_pad_two d0) (base64Value_pad_one d0 0)
    simp only [base64, groupChars, List.take, List.cons_append, List.nil_append, base64Decode, if_true,
      hvalue, valueBytes_group24]
  | [d0, d1] => by
    have hvalue := textValue_groupChars (base64Value_extract _ 6) (base64Value_pad_one d0 d1)
    simp only [base64, groupChars, List.take, List.cons_append, List.nil_append, base64Decode, if_true,
      base64Char_ne_pad, if_false, hvalue, valueBytes_group24]
  | d0 :: d1 :: d2 :: rest => by
    have hvalue := textValue_groupChars (x := group24 d0 d1 d2) (base64Value_extract _ 6)
      (base64Value_extract _ 0)
    simp only [base64, groupChars, List.take, List.cons_append, List.nil_append, base64Decode,
      base64Char_ne_pad, if_false, hvalue, valueBytes_group24, base64Decode_base64 rest]

/-- Settles O58: the text has a left inverse. -/
theorem base64LosesNothing : Obligations.Base64LosesNothing :=
  fun _ _ h => Function.LeftInverse.injective base64Decode_base64 h

end Sys2Proof.Machine
end

section
/-! PROOF. The commands SHA1 and ACCEPT (43_sha1_accept.md R210, R211, R213). -/

namespace Sys2Proof.Machine

/-! ### SHA1 -/

theorem not_runsParser_sha1 : ¬ RunsParser .sha1 := by simp [RunsParser, spaceOf]

theorem exec_sha1_of_le {s : State} (h : s.ilen.toNat ≤ s.params.ibufSize) :
    exec .sha1 s = .next (succeed (writeBuf .digest (sha1 (inputBytes s)) s)) := by
  rw [exec_sha1, if_neg (Nat.not_lt.2 h)]

section Digest
variable {s : State} {d : List Byte} (hd : d.length = 20)
include hd

theorem bufBytes_digest_writeBuf : bufBytes (succeed (writeBuf .digest d s)) .digest 20 = d :=
  hd ▸ bufBytes_written (s := s) rfl

theorem memByte_writeBuf_digest {a : Nat}
    (ha : ¬ (Win.addr .digest 0 ≤ a ∧ a < Win.addr .digest 0 + 20)) :
    memByte (succeed (writeBuf .digest d s)) a = memByte s a :=
  memByte_write_outside (s := s) rfl rfl (hd ▸ ha)

end Digest

/-- Settles O54: SHA1 by its outcome, each with the registers R47 gives it no write to. -/
theorem sha1WritesTheDigest : Obligations.Sha1WritesTheDigest := by
  refine ⟨decodeOfEncodeIsTheInstruction .sha1 rfl, fun s => ⟨fun hilen => ?_, fun hilen => ?_⟩⟩
  · have ht := exec_sha1_of_le hilen
    have hlen := sha1_length (inputBytes s)
    obtain ⟨hcontrol, hframe, hkeylen, holen⟩ := exec_keepsRegs ht
    exact ⟨_, ht, succeeded_succeed _, hcontrol, hframe not_runsParser_sha1, hkeylen (by decide),
      holen (by simp), bufBytes_digest_writeBuf hlen, fun a => memByte_writeBuf_digest hlen⟩
  · have ht := (exec_sha1 s).trans (congrArg _ (if_pos hilen))
    obtain ⟨hcontrol, hframe, hkeylen, holen⟩ := exec_keepsRegs ht
    exact ⟨_, ht, failed_raise _ _, hcontrol, hframe not_runsParser_sha1, hkeylen (by decide),
      holen (by simp), memByte_congr rfl rfl⟩

/-! ### ACCEPT -/

theorem not_runsParser_accept : ¬ RunsParser .accept := by simp [RunsParser, spaceOf]

theorem exec_accept_of_le {s : State} (h : s.keylen.toNat ≤ s.params.hvalMax) :
    exec .accept s = .next (succeed (writeToken (sha1 (acceptMessage s)) s)) := by
  rw [exec_accept, if_neg (Nat.not_lt.2 h)]

section Token
variable {s : State} {d : List Byte} (hd : d.length = 20)
include hd

theorem base64_digest_length : (base64 d).length = 28 := by rw [base64_length, hd]

theorem bufBytes_token_writeToken : bufBytes (succeed (writeToken d s)) .token 28 = base64 d :=
  base64_digest_length hd ▸ bufBytes_written (s := succeed (writeBuf .digest d s)) rfl

/-- A byte outside TOKEN is as the write to DIGEST left it. -/
theorem memByte_writeToken {a : Nat}
    (ha : ¬ (Win.addr .token 0 ≤ a ∧ a < Win.addr .token 0 + 28)) :
    memByte (succeed (writeToken d s)) a = memByte (succeed (writeBuf .digest d s)) a :=
  memByte_write_outside (s := succeed (writeBuf .digest d s)) rfl rfl (base64_digest_length hd ▸ ha)

/-- DIGEST lies below TOKEN (R61), so the text leaves the digest as written. -/
theorem bufBytes_digest_writeToken : bufBytes (succeed (writeToken d s)) .digest 20 = d := by
  have hkeep : bufBytes (succeed (writeToken d s)) .digest 20 =
      bufBytes (succeed (writeBuf .digest d s)) .digest 20 := by
    refine bufBytes_congr fun i hi => memByte_writeToken hd ?_
    simp only [Win.addr, Win.base]
    omega
  exact hkeep.trans (bufBytes_digest_writeBuf hd)

theorem memByte_writeToken_outside {a : Nat}
    (hdigest : ¬ (Win.addr .digest 0 ≤ a ∧ a < Win.addr .digest 0 + 20))
    (htoken : ¬ (Win.addr .token 0 ≤ a ∧ a < Win.addr .token 0 + 28)) :
    memByte (succeed (writeToken d s)) a = memByte s a :=
  (memByte_writeToken hd htoken).trans (memByte_writeBuf_digest hd hdigest)

end Token

/-- Settles O55: ACCEPT by its outcome, each with the registers R47 gives it no write to. -/
theorem acceptWritesDigestAndToken : Obligations.AcceptWritesDigestAndToken := by
  refine ⟨decodeOfEncodeIsTheInstruction .accept rfl, fun s => ⟨fun hkey => ?_, fun hkey => ?_⟩⟩
  · have ht := exec_accept_of_le hkey
    have hlen := sha1_length (acceptMessage s)
    obtain ⟨hcontrol, hframe, hkeylen, holen⟩ := exec_keepsRegs ht
    exact ⟨_, _, ht, succeeded_succeed _, rfl, hcontrol, hframe not_runsParser_accept,
      hkeylen (by decide), holen (by simp), bufBytes_digest_writeToken hlen,
      bufBytes_token_writeToken hlen, fun a => memByte_writeToken_outside hlen⟩
  · have ht := (exec_accept s).trans (congrArg _ (if_pos hkey))
    obtain ⟨hcontrol, hframe, hkeylen, holen⟩ := exec_keepsRegs ht
    exact ⟨_, ht, failed_raise _ _, hcontrol, hframe not_runsParser_accept, hkeylen (by decide),
      holen (by simp), memByte_congr rfl rfl⟩

/-! ### The vector of R213 -/

/-- The key `dGhlIHNhbXBsZSBub25jZQ==` (R213). -/
def vectorKey : List Byte :=
  [0x64, 0x47, 0x68, 0x6C, 0x49, 0x48, 0x4E, 0x68, 0x62, 0x58, 0x42, 0x73, 0x5A, 0x53, 0x42, 0x75,
   0x62, 0x32, 0x35, 0x6A, 0x5A, 0x51, 0x3D, 0x3D]

/-- Its digest (R213). -/
def vectorDigest : List Byte :=
  [0xB3, 0x7A, 0x4F, 0x2C, 0xC0, 0x62, 0x4F, 0x16, 0x90, 0xF6, 0x46, 0x06, 0xCF, 0x38, 0x59,
   0x45, 0xB2, 0xBE, 0xC4, 0xEA]

theorem sha1_vectorKey : sha1 (vectorKey ++ guid) = vectorDigest := by decide +kernel

/-- The text `s3pPLMBiTxaQ9kYGzzhZRbK+xOo=` (R213). -/
theorem base64_vectorDigest : base64 vectorDigest =
    [0x73, 0x33, 0x70, 0x50, 0x4C, 0x4D, 0x42, 0x69, 0x54, 0x78, 0x61, 0x51, 0x39, 0x6B, 0x59,
     0x47, 0x7A, 0x7A, 0x68, 0x5A, 0x52, 0x62, 0x4B, 0x2B, 0x78, 0x4F, 0x6F, 0x3D] := by decide

/-- Settles O59: what ACCEPT hashes is the key and the GUID, and the vector's digest and text are
evaluated. -/
theorem acceptGivesTheTwsVector : Obligations.AcceptGivesTheTwsVector := by
  intro s hkeylen hkey hmax
  have hmessage : acceptMessage s = vectorKey ++ guid := by
    rw [acceptMessage, clientKey, hkeylen]
    exact congrArg (· ++ guid) hkey
  have ht := exec_accept_of_le (s := s) (by rw [hkeylen]; exact hmax)
  rw [hmessage, sha1_vectorKey] at ht
  exact ⟨_, ht, succeeded_succeed _, bufBytes_digest_writeToken rfl,
    (bufBytes_token_writeToken rfl).trans base64_vectorDigest⟩

end Sys2Proof.Machine
end

section
/-! PROOF. How a command ends, and the idle block (10_state.md R47; 60_exceptions.md R230, R235 to R238,
R255): every instruction records success or one error, an error changes its failure outputs alone, and with
no host event pending nothing changes. -/

namespace Sys2Proof.Machine

/-! ### The bytes outside the outputs -/

/-- A byte outside every output window of the instruction, as far as R47 lets it write, reads as before. -/
theorem Wrote.keepsOtherBytes {i : Instr} {s u : State} (hu : Wrote i s u) :
    KeepsOtherBytes i s (succeed u) := by
  obtain ⟨w, w', bs, bs', hw, hw', hbs, hbs', -, hmem⟩ := hu.memory
  intro a ha
  have outside : ∀ {v : Win} {ds : List Byte}, WritesWindow i v → ds.length ≤ bytesWritten u v →
      ¬ (v.addr 0 ≤ a ∧ a < v.addr 0 + ds.length) :=
    fun hv hds ⟨hlo, hhi⟩ => ha _ hv ⟨hlo, Nat.lt_of_lt_of_le hhi (Nat.add_le_add_left hds _)⟩
  calc memByte (succeed u) a
    _ = memByte (writeBuf w bs s) a :=
        memByte_write_outside (s := writeBuf w bs s) hmem hu.regs.control.resets (outside hw' hbs')
    _ = memByte s a := memByte_write_outside rfl rfl (outside hw hbs)

/-- The failure outputs are registers: recording an error with them changes no byte (R236). -/
theorem keepsMemory_failure (i : Instr) (e : CmdError) (s : State) :
    KeepsMemory s (raise e (failureOutputs i s)) :=
  let ⟨hregs, hmem⟩ := failureOutputs_keeps i s
  memByte_congr hmem hregs.control.resets

/-! ### The outcome of every instruction -/

/-- Settles O25: the registers R47 gives no write to are kept whatever the outcome, and each outcome has its
own record and its own bytes. -/
theorem everyCommandRecordsItsOutcome : Obligations.EveryCommandRecordsItsOutcome := by
  intro i s
  rcases exec_outcome i s with ⟨e, h⟩ | ⟨u, h, hu⟩
  · obtain ⟨hcontrol, hframe, hkeylen, holen⟩ := exec_keepsRegs h
    obtain ⟨hlo, hhi⟩ := errorCode_range e.kind
    have hmem := keepsMemory_failure i e s
    exact ⟨_, h, hcontrol, .inr ⟨_, _, _, hlo, hhi, failed_raise e _, hmem⟩, hframe, hkeylen, holen,
      fun a _ => hmem a⟩
  · obtain ⟨hcontrol, hframe, hkeylen, holen⟩ := exec_keepsRegs h
    exact ⟨_, h, hcontrol, .inl (succeeded_succeed u), hframe, hkeylen, holen, hu.keepsOtherBytes⟩

/-! ### The state after an error -/

/-- An instruction that ends with ERR = 1 has raised an error with its failure outputs (R236). -/
theorem exec_eq_raise_of_err {i : Instr} {s t : State} (h : exec i s = .next t)
    (herr : statusErrBit t.status = true) : ∃ e, t = raise e (failureOutputs i s) := by
  rcases exec_next h with hraise | ⟨u, rfl, -⟩
  · exact hraise
  · rw [(succeeded_succeed u).err] at herr
    cases herr

/-- The failure outputs are the same registers at the same values, whatever the host does next and CMD and
the reply hold. -/
theorem failureOutputs_issued (i : Instr) (s : State) (rest : List HostEvent) (w : Word)
    (r : Option Reply) :
    failureOutputs i { s with host := rest, cmd := w, reply := r } =
      { failureOutputs i s with host := rest, cmd := w, reply := r } := by
  cases i <;> rfl

/-- Settles O26: a raised error sets STATUS and ERRCODE on the failure outputs; issued by a host write, on
those of the state with CMD written and the event taken, or with an illegal word on that state itself. -/
theorem errorsArePrecise : Obligations.ErrorsArePrecise := by
  refine ⟨fun i s t h herr => ?_, fun s t w rest hw h herr => ?_⟩
  · obtain ⟨e, rfl⟩ := exec_eq_raise_of_err h herr
    rfl
  · rw [step_command hw, issue] at h
    cases hd : decodeCommand w with
    | ok i =>
      rw [hd] at h
      obtain ⟨e, rfl⟩ := exec_eq_raise_of_err h herr
      rw [failureOutputs_issued]
      rfl
    | error reject =>
      rw [hd] at h
      cases h
      rfl

/-! ### The idle block -/

/-- Settles O6: with an empty queue `step` is its idle case. -/
theorem idleBlockKeepsItsState : Obligations.IdleBlockKeepsItsState := by
  intro s hidle
  rcases step_cases s with ⟨-, h⟩ | ⟨ev, rest, hpending, -⟩
  · exact h
  · rw [hidle] at hpending
    cases hpending

end Sys2Proof.Machine
end

section
/-! PROOF. The block after a reset event, and ACCEPT after a failed VALIDATE
(70_reset_and_hazards.md R260, R261, R274). -/

namespace Sys2Proof.Machine

/-! ### The registers after reset -/

/-- The reset value of each register, under the parameters `p` (R260). -/
def resetValue (p : Params) : Reg → Word
  | .id => 0x57530001
  | .cfgVersion => 13
  | .paramIbufSize => BitVec.ofNat 32 p.ibufSize
  | .paramHdrN => BitVec.ofNat 32 p.hdrN
  | .paramHnameMax => BitVec.ofNat 32 p.hnameMax
  | .paramHvalMax => BitVec.ofNat 32 p.hvalMax
  | _ => 0

/-- Every entry number reads lengths 0 after reset: below HDR_N its own, at or above it the default. -/
theorem hdrLens_resetWith (p : Params) (n e : Nat) : hdrLens (State.resetWith p n) e = ⟨0, 0⟩ := by
  rw [hdrLens, State.resetWith, List.getD_eq_getElem?_getD, List.getElem?_replicate]
  split <;> rfl

/-- Only the entry lengths depend on the table; every other register is a field of `State.resetWith`. -/
theorem readReg_resetWith (p : Params) (n : Nat) (r : Reg) :
    readReg (State.resetWith p n) r = resetValue p r := by
  cases r with
  | nameLen e => exact congrArg HdrLens.nameLen (hdrLens_resetWith p n e)
  | valueLen e => exact congrArg HdrLens.valueLen (hdrLens_resetWith p n e)
  | _ => rfl

/-- The step that takes a reset event keeps the parameters and the host's later events, and counts the
event. -/
theorem step_reset {s : State} {rest : List HostEvent} (h : s.host = .reset :: rest) :
    step s = .next { State.resetWith s.params (s.resets + 1) with host := rest } := by
  simp only [step, h, hostEvent, resetEvent]

/-- Settles O1: `step_reset` gives the state, `readReg_resetWith` its registers. -/
theorem resetEventSetsEveryRegister : Obligations.ResetEventSetsEveryRegister := by
  refine ⟨fun s rest h => ?_, fun r => ?_⟩
  · have hread (r : Reg) : readReg { State.resetWith s.params (s.resets + 1) with host := rest } r =
        resetValue s.params r :=
      (readReg_host _ rest r).trans (readReg_resetWith _ _ r)
    exact ⟨_, step_reset h, rfl, rfl, hread .id, hread .cmd, hread .status, hread .errcode,
      hread .cfgVersion, hread .paramIbufSize, hread .paramHdrN, hread .paramHnameMax,
      hread .paramHvalMax, hread .ilen, hread .olen, hread .plen, hread .consumed, hread .keylen,
      hread .hdrCount, hread .maskkey, hread .frame,
      fun e => ⟨hread (.nameLen e), hread (.valueLen e)⟩⟩
  · refine (readReg_resetWith Params.reference 0 r).trans ?_
    cases r <;> rfl

/-! ### The buffer bytes after reset -/

/-- With no byte written, every address reads its free value (R261). -/
theorem memByte_of_mem_nil {s : State} (h : s.mem = []) (a : Nat) :
    memByte s a = Config.resetDraw s.resets a := by
  rw [memByte, h]
  rfl

/-- Settles O2: the reset event leaves no byte written and one reset more. -/
theorem resetLeavesBufferBytesFree : Obligations.ResetLeavesBufferBytesFree :=
  fun _ _ h => ⟨_, step_reset h, fun w i => memByte_of_mem_nil rfl (w.addr i)⟩

/-! ### ACCEPT after a failed VALIDATE -/

/-- A VALIDATE that ends with ERR = 1 leaves no key (R180, R236). -/
theorem keylen_of_validate_err {s t : State} (h : exec .validate s = .next t)
    (herr : statusErrBit t.status = true) : t.keylen = 0 := by
  obtain ⟨e, rfl⟩ := exec_eq_raise_of_err h herr
  rfl

/-- With an empty key ACCEPT hashes the GUID alone (R208). -/
theorem acceptMessage_of_keylen_zero {s : State} (h : s.keylen = 0) : acceptMessage s = guid := by
  rw [acceptMessage, clientKey, h]
  rfl

/-- The digest of the GUID alone, under the token of R274. -/
def guidDigest : List Byte :=
  [0x29, 0xF8, 0x7D, 0x40, 0x8B, 0x0C, 0x55, 0x97, 0x25, 0xEB, 0x11, 0x0F, 0x63, 0x13, 0xC7,
   0xCD, 0x6F, 0x12, 0x67, 0xCC]

theorem sha1_guid : sha1 guid = guidDigest := by decide +kernel

/-- The text `Kfh9QIsMVZcl6xEPYxPHzW8SZ8w=` (R274). -/
theorem base64_guidDigest : base64 guidDigest =
    [0x4B, 0x66, 0x68, 0x39, 0x51, 0x49, 0x73, 0x4D, 0x56, 0x5A, 0x63, 0x6C, 0x36, 0x78, 0x45,
     0x50, 0x59, 0x78, 0x50, 0x48, 0x7A, 0x57, 0x38, 0x53, 0x5A, 0x38, 0x77, 0x3D] := by decide

/-- Settles O60: the failed VALIDATE leaves KEYLEN 0, which ACCEPT admits whatever HVAL_MAX is, and the
GUID's digest and text are evaluated. -/
theorem acceptAfterAFailedValidate : Obligations.AcceptAfterAFailedValidate := by
  intro s t h herr
  have hkeylen := keylen_of_validate_err h herr
  have hu := exec_accept_of_le (s := t) (by rw [hkeylen]; exact Nat.zero_le _)
  rw [acceptMessage_of_keylen_zero hkeylen, sha1_guid] at hu
  exact ⟨hkeylen, _, hu, succeeded_succeed _,
    (bufBytes_token_writeToken rfl).trans base64_guidDigest⟩

end Sys2Proof.Machine
end
